-- ==== Sys2Proof/Word.lean ====
section
/-!
DEFINITION. The words of the machine (00_scope R7, R8; 30_encoding R91): bytes, data slots, registers and the five
kinds of operand field, each at the width the spec fixes for it.
-/

namespace Sys2Proof

/-- A byte is 8 bits (00_scope R8). -/
abbrev Byte := BitVec 8

/-- A data slot: 64 bits, read as a signed integer with `BitVec.toInt` (00_scope R7, 10_state R20). -/
abbrev Slot := BitVec 64

/-- The 32-bit registers `pc`, `pcs`, `cs` and `us` (10_state R21). -/
abbrev Reg := BitVec 32

/-- The five bits of `flags` (10_state R27). -/
abbrev FlagBits := BitVec 5

/-- An `A` field: a data address, signed (30_encoding R91). -/
abbrev DataAddr := BitVec 32

/-- A `C` field: a code address, signed (30_encoding R91). -/
abbrev CodeAddr := BitVec 32

/-- An `O` field: a relative offset, signed (30_encoding R91). -/
abbrev Offset := BitVec 8

/-- An `F` field: a function id, unsigned (30_encoding R91). -/
abbrev FunId := BitVec 16

/-- `wrap64(x)` of 00_scope R8: the slot equal to `x` modulo `2^64`. -/
abbrev wrap64 (x : Int) : Slot := BitVec.ofInt 64 x

end Sys2Proof
end

