-- ==== Sys2Proof/Machine/Memory.lean ====
section
/-!
DEFINITION. Byte memories (20_memory R61, R62) and the little-endian byte order (00_scope R9, 20_memory R70, R71).
A memory is a list of (address, byte) pairs in one canonical form; both the code region and the data buffer are one.
-/

namespace Sys2Proof.Machine

/-- A byte memory: addresses strictly rising, no entry equal to what an unlisted address reads as (0). -/
abbrev Memory := List Host.Cell

/-- What an unlisted address reads as: 0, the byte that reset writes to all of the data buffer (20_memory R83). -/
abbrev Memory.unlisted : Byte := 0#8

/-- The canonical form of a memory. -/
abbrev Memory.wf (m : Memory) : Prop :=
  m.Pairwise (fun c d => c.1 < d.1) ∧ ∀ c ∈ m, c.2 ≠ Memory.unlisted

/-- The byte at an address. -/
def Memory.read : Memory → Nat → Byte
  | [], _ => Memory.unlisted
  | (k, b) :: rest, a => if k = a then b else Memory.read rest a

/-- Put a byte in front of the cells above its address, unless it is the unlisted byte. -/
def Memory.cons (a : Nat) (v : Byte) (rest : Memory) : Memory :=
  if v = Memory.unlisted then rest else (a, v) :: rest

/-- Write one byte, keeping the canonical form. -/
def Memory.write : Memory → Nat → Byte → Memory
  | [], a, v => Memory.cons a v []
  | (k, b) :: rest, a, v =>
    if a < k then Memory.cons a v ((k, b) :: rest)
    else if a = k then Memory.cons a v rest
    else (k, b) :: Memory.write rest a v

/-- The `n` bytes from an offset on. -/
def Memory.readBytes (m : Memory) (off : Nat) : Nat → List Byte
  | 0 => []
  | n + 1 => m.read off :: Memory.readBytes m (off + 1) n

/-- Write a list of bytes from an offset on. -/
def Memory.writeBytes (m : Memory) (off : Nat) : List Byte → Memory
  | [] => m
  | b :: bs => Memory.writeBytes (m.write off b) (off + 1) bs

/-- `le(b0, ..., bk)` of 00_scope R9, as a number: little-endian concatenation. -/
def leNat : List Byte → Nat
  | [] => 0
  | b :: bs => b.toNat + 256 * leNat bs

/-- `bytes_le(v, n)` of 00_scope R9: the `n` bytes of `v mod 2^(8n)`, least significant first. -/
def bytesLE : Nat → Nat → List Byte
  | 0, _ => []
  | n + 1, v => BitVec.ofNat 8 v :: bytesLE n (v / 256)

/-- `MemRead(off, 8)` of 20_memory R71: the slot at a byte offset. -/
def Memory.readSlot (m : Memory) (off : Nat) : Slot :=
  BitVec.ofNat 64 (leNat (m.readBytes off 8))

/-- `MemWrite(off, 8, v)` of 20_memory R71. -/
def Memory.writeSlot (m : Memory) (off : Nat) (v : Slot) : Memory :=
  m.writeBytes off (bytesLE 8 v.toNat)

end Sys2Proof.Machine
end

