-- ==== Sys2Proof/Config.lean ====
section
/-!
DEFINITION. What is fixed for one instance (00_scope R7, 10_state R31): the four sizes and the parameters, as plain data
that no step writes; the causes and classes of step errors (60_exceptions R211); and the one free value, the host's
external-function oracle (46_external R200).
-/

namespace Sys2Proof

/-- `W_STEPS`, the width of `stepCount`, at its default (00_scope R7, 10_state R26). -/
abbrev Config.stepsWidth : Nat := 64

/-- The upper bound of each of the four sizes, `2^31 - 1` (00_scope R7). -/
abbrev Config.maxSize : Nat := 2147483647

/-- `DATA_SIZE` of the instance that `State.reset` describes. DESIGN CHOICE (unsafe): the spec leaves the sizes to the
host's construct command (10_state R31); log entry 1. -/
abbrev Config.resetDataSize : Nat := 1024

/-- `CS_SIZE` of the instance that `State.reset` describes. DESIGN CHOICE (unsafe), log entry 1. -/
abbrev Config.resetCsSize : Nat := 256

/-- `US_SIZE` of the instance that `State.reset` describes. DESIGN CHOICE (unsafe), log entry 1. -/
abbrev Config.resetUsSize : Nat := 256

/-- The 41 instructions as names, before any operand (30_encoding R97). -/
inductive Opcode where
  | nop | setVal | setDat | clrDat | incDat | decDat
  | addDat | subDat | mulDat | divDat | borDat | andDat | xorDat | notDat
  | setInd | setIdx | pshDat | popDat | jmpSub | retSub | jmpAdr
  | bzrDat | bnzDat | bgtDat | bltDat | bgeDat | bleDat | beqDat | bneDat
  | slpDat | fizDat | stzDat | finImd | stpImd | setPcs
  | extFun | extFunDat | extFunDat2 | extFunRet | extFunRetDat | extFunRetDat2
  deriving DecidableEq, Repr

/-- `OPCODE_MAP` (00_scope R7): the byte value of each opcode, one pair a row. -/
abbrev OpcodeMap := List (Byte × Opcode)

/-- The two error classes a step can report (40_engine R120). -/
inductive ErrClass where
  /-- OverflowClass: a stack full or empty. -/
  | overflow
  /-- InvalidClass: everything else. -/
  | invalid
  deriving DecidableEq, Repr

/-- Every cause of a step error (60_exceptions R211). -/
inductive Cause where
  /-- Decode: a byte outside the opcode map (30_encoding R99). -/
  | unknownOpcode
  /-- Decode: the instruction would run past `CODE_SIZE` (30_encoding R103). -/
  | operandBounds
  /-- Decode: an `A` field that fails `ValidData` (30_encoding R105). -/
  | dataAddress
  /-- Decode: a `C` field or a branch target that fails `ValidCode` (30_encoding R106). -/
  | codeAddress
  /-- Execute: a computed data address outside the data zone (41_data_movement R143, R144). -/
  | indirectAddress
  /-- Execute: a transfer to an offset outside `legalTargets` (40_engine R121). -/
  | unresolvedJump
  /-- Execute: DIV_DAT with a zero divisor (42_arithmetic R164). -/
  | divisionByZero
  /-- Execute: `INT64_MIN / -1` when `DIV_MIN_NEG1` is INVALID (42_arithmetic R164). -/
  | divisionOverflow
  /-- Execute: the host answers an external call with `ok = 0` (46_external R200). -/
  | extCallRejected
  /-- Execute: JMP_SUB with the call stack full (44_control R175). -/
  | callStackFull
  /-- Execute: RET_SUB with the call stack empty (44_control R176). -/
  | callStackEmpty
  /-- Execute: PSH_DAT with the user stack full (43_stack R170). -/
  | userStackFull
  /-- Execute: POP_DAT with the user stack empty (43_stack R171). -/
  | userStackEmpty
  deriving DecidableEq, Repr

/-- `NOP_RUN_TARGETS` (00_scope R7, 40_engine R128). -/
inductive NopRunTargets where
  /-- Only the first byte of a no-op run is a legal target (the default). -/
  | runStart
  /-- Every byte of a no-op run is a legal target. -/
  | everyByte
  deriving DecidableEq, Repr

/-- `DIV_MIN_NEG1` (00_scope R7, 42_arithmetic R164). -/
inductive DivMinNeg1 where
  /-- `INT64_MIN / -1` is `INT64_MIN` (the default). -/
  | wrap
  /-- `INT64_MIN / -1` raises `Invalid(DivisionOverflow)`. -/
  | invalid
  deriving DecidableEq, Repr

/-- The configuration of one instance: the sizes the construct command sets (10_state R31) and the parameters of
00_scope R7. No step and no reset writes any of it. -/
structure Configuration where
  /-- `CODE_SIZE` -/
  codeSize : Nat
  /-- `DATA_SIZE` -/
  dataSize : Nat
  /-- `CS_SIZE` -/
  csSize : Nat
  /-- `US_SIZE` -/
  usSize : Nat
  /-- `OPCODE_MAP` -/
  opcodeMap : OpcodeMap
  /-- `NOP_RUN_TARGETS` -/
  nopRunTargets : NopRunTargets
  /-- `DIV_MIN_NEG1` -/
  divMinNeg1 : DivMinNeg1
  /-- `INDIRECT_FAULT_CLASS` -/
  indirectFaultClass : ErrClass
  deriving DecidableEq, Repr

/-- A request on the external-call port: `Ext(id, args, wantRet)` (46_external R200). -/
structure ExtRequest where
  id : FunId
  args : List Slot
  wantRet : Bool
  deriving DecidableEq, Repr

/-- The three bits the host flag port writes (10_state R45). -/
structure HostFlags where
  paused : Bool
  aZero : Bool
  bZero : Bool
  deriving DecidableEq, Repr

/-- The host's answer to an external call (46_external R200): accepted or rejected, the returned value, the write it
made on the host flag port while it served the request (if any), and the host context it leaves. -/
structure ExtResponse where
  ok : Bool
  value : Slot
  flagWrite : Option HostFlags
  context : Nat
  deriving DecidableEq, Repr, Inhabited

/-- `ExtOracle` (00_scope R7, 46_external R200), a FREE VALUE: what the host answers in a context when no answer is
queued in the state. It has no body, so nothing can be proved of it; log entry 2. -/
opaque Config.extOracle : Nat → ExtRequest → ExtResponse

end Sys2Proof
end

