-- ==== Sys2Proof/Syntax.lean ====
section
/-!
DEFINITION. The instructions (30_encoding R93, R97): one constructor per row of the opcode table, with its decoded
operand fields in the order of the row's format.
-/

namespace Sys2Proof

/-- One decoded instruction. `a1`, `a2`, `a3` are data addresses, `v` a literal, `c` a code address, `off` a relative
offset and `fn` a function id; `k` is the length of a no-op run. -/
inductive Instr where
  /-- NOP, a run of `k` no-op bytes (format N, 41_data_movement R140). -/
  | nop (k : Nat)
  /-- SET_VAL @a1, #v (AV, R141). -/
  | setVal (a1 : DataAddr) (v : Slot)
  /-- SET_DAT @a1, @a2 (AA, R142). -/
  | setDat (a1 a2 : DataAddr)
  /-- CLR_DAT @a1 (A, R145). -/
  | clrDat (a1 : DataAddr)
  /-- INC_DAT @a1 (A, R146). -/
  | incDat (a1 : DataAddr)
  /-- DEC_DAT @a1 (A, R147). -/
  | decDat (a1 : DataAddr)
  /-- ADD_DAT @a1, @a2 (AA, 42_arithmetic R161). -/
  | addDat (a1 a2 : DataAddr)
  /-- SUB_DAT @a1, @a2 (AA, R162). -/
  | subDat (a1 a2 : DataAddr)
  /-- MUL_DAT @a1, @a2 (AA, R163). -/
  | mulDat (a1 a2 : DataAddr)
  /-- DIV_DAT @a1, @a2 (AA, R164). -/
  | divDat (a1 a2 : DataAddr)
  /-- BOR_DAT @a1, @a2 (AA, R165). -/
  | borDat (a1 a2 : DataAddr)
  /-- AND_DAT @a1, @a2 (AA, R166). -/
  | andDat (a1 a2 : DataAddr)
  /-- XOR_DAT @a1, @a2 (AA, R167). -/
  | xorDat (a1 a2 : DataAddr)
  /-- NOT_DAT @a1 (A, R148). -/
  | notDat (a1 : DataAddr)
  /-- SET_IND @a1, @a2 (AA, R143). -/
  | setInd (a1 a2 : DataAddr)
  /-- SET_IDX @a1, @a2, @a3 (AAA, R144): `a2` the base slot, `a3` the index slot. -/
  | setIdx (a1 a2 a3 : DataAddr)
  /-- PSH_DAT @a1 (A, 43_stack R170). -/
  | pshDat (a1 : DataAddr)
  /-- POP_DAT @a1 (A, R171). -/
  | popDat (a1 : DataAddr)
  /-- JMP_SUB :c (C, 44_control R175). -/
  | jmpSub (c : CodeAddr)
  /-- RET_SUB (Z, R176). -/
  | retSub
  /-- JMP_ADR :c (C, R178). -/
  | jmpAdr (c : CodeAddr)
  /-- BZR_DAT @a1, off (AO, R180). -/
  | bzrDat (a1 : DataAddr) (off : Offset)
  /-- BNZ_DAT @a1, off (AO, R181). -/
  | bnzDat (a1 : DataAddr) (off : Offset)
  /-- BGT_DAT @a1, @a2, off (AAO, R182). -/
  | bgtDat (a1 a2 : DataAddr) (off : Offset)
  /-- BLT_DAT @a1, @a2, off (AAO, R183). -/
  | bltDat (a1 a2 : DataAddr) (off : Offset)
  /-- BGE_DAT @a1, @a2, off (AAO, R184). -/
  | bgeDat (a1 a2 : DataAddr) (off : Offset)
  /-- BLE_DAT @a1, @a2, off (AAO, R185). -/
  | bleDat (a1 a2 : DataAddr) (off : Offset)
  /-- BEQ_DAT @a1, @a2, off (AAO, R186). -/
  | beqDat (a1 a2 : DataAddr) (off : Offset)
  /-- BNE_DAT @a1, @a2, off (AAO, R187). -/
  | bneDat (a1 a2 : DataAddr) (off : Offset)
  /-- SLP_DAT @a1 (A, 45_system R190). -/
  | slpDat (a1 : DataAddr)
  /-- FIZ_DAT @a1 (A, R192). -/
  | fizDat (a1 : DataAddr)
  /-- STZ_DAT @a1 (A, R193). -/
  | stzDat (a1 : DataAddr)
  /-- FIN_IMD (Z, R194). -/
  | finImd
  /-- STP_IMD (Z, R195). -/
  | stpImd
  /-- SET_PCS (Z, R196). -/
  | setPcs
  /-- EXT_FUN fn (F, 46_external R201). -/
  | extFun (fn : FunId)
  /-- EXT_FUN_DAT fn, @a1 (FA, R202): `a1` the argument slot. -/
  | extFunDat (fn : FunId) (a1 : DataAddr)
  /-- EXT_FUN_DAT_2 fn, @a1, @a2 (FAA, R203): `a1`, `a2` the argument slots. -/
  | extFunDat2 (fn : FunId) (a1 a2 : DataAddr)
  /-- EXT_FUN_RET fn, @a1 (FA, R204): `a1` the output slot. -/
  | extFunRet (fn : FunId) (a1 : DataAddr)
  /-- EXT_FUN_RET_DAT fn, @a1, @a2 (FAA, R205): `a1` the output slot, `a2` the argument slot. -/
  | extFunRetDat (fn : FunId) (a1 a2 : DataAddr)
  /-- EXT_FUN_RET_DAT_2 fn, @a1, @a2, @a3 (FAAA, R206): `a1` the output slot, `a2`, `a3` the argument slots. -/
  | extFunRetDat2 (fn : FunId) (a1 a2 a3 : DataAddr)
  deriving DecidableEq, Repr

end Sys2Proof
end

