-- ==== Sys2Proof/Decode.lean ====
section
/-!
DEFINITION. The opcode map, the formats and the decoder (30_encoding R90 to R109), the two address checks (20_memory R64,
R65), then the encoder from the same tables, and `decodeTableWord`.
-/

namespace Sys2Proof

open Machine (Memory leNat bytesLE)

/-- `OPCODE_MAP` at its default (30_encoding R97). PRESUMED by the spec itself for every byte but `0x01` and `0x28`
(unsafe); log entry 7. -/
def opcodeTable : OpcodeMap :=
  [(0x7f#8, .nop), (0x01#8, .setVal), (0x02#8, .setDat), (0x03#8, .clrDat),
   (0x04#8, .incDat), (0x05#8, .decDat), (0x06#8, .addDat), (0x07#8, .subDat),
   (0x08#8, .mulDat), (0x09#8, .divDat), (0x0a#8, .borDat), (0x0b#8, .andDat),
   (0x0c#8, .xorDat), (0x0d#8, .notDat), (0x0e#8, .setInd), (0x0f#8, .setIdx),
   (0x10#8, .pshDat), (0x11#8, .popDat), (0x12#8, .jmpSub), (0x13#8, .retSub),
   (0x1a#8, .jmpAdr), (0x1b#8, .bzrDat), (0x1e#8, .bnzDat), (0x1f#8, .bgtDat),
   (0x20#8, .bltDat), (0x21#8, .bgeDat), (0x22#8, .bleDat), (0x23#8, .beqDat),
   (0x24#8, .bneDat), (0x25#8, .slpDat), (0x26#8, .fizDat), (0x27#8, .stzDat),
   (0x28#8, .finImd), (0x29#8, .stpImd), (0x30#8, .setPcs), (0x32#8, .extFun),
   (0x33#8, .extFunDat), (0x34#8, .extFunDat2), (0x35#8, .extFunRet), (0x36#8, .extFunRetDat),
   (0x37#8, .extFunRetDat2)]

/-- The configuration `State.reset` and `decodeTableWord` stand on: the parameters at the defaults of 00_scope R7, the
sizes of log entry 1, and an empty code region. -/
def resetConfiguration : Configuration where
  codeSize := 0
  dataSize := Config.resetDataSize
  csSize := Config.resetCsSize
  usSize := Config.resetUsSize
  opcodeMap := opcodeTable
  nopRunTargets := .runStart
  divMinNeg1 := .wrap
  indirectFaultClass := .invalid

/-- The opcode a byte stands for: the whole byte is compared (30_encoding R98). -/
def OpcodeMap.opcodeOf (map : OpcodeMap) (b : Byte) : Option Opcode :=
  (map.find? (fun row => row.1 == b)).map Prod.snd

/-- The byte that stands for an opcode (0 if the map has no row for it; a map that meets `OpcodeMap.wf` has one). -/
def OpcodeMap.byteOf (map : OpcodeMap) (op : Opcode) : Byte :=
  ((map.find? (fun row => row.2 == op)).map Prod.fst).getD 0#8

/-- The instruction formats (30_encoding R93). -/
inductive Format where
  | z | a | aa | aaa | av | c | ao | aao | f | fa | faa | faaa | n
  deriving DecidableEq, Repr

/-- The length in bytes of a format (30_encoding R93); for the no-op run, of its shortest form. -/
def Format.length : Format → Nat
  | .z => 1
  | .a => 5
  | .aa => 9
  | .aaa => 13
  | .av => 13
  | .c => 5
  | .ao => 6
  | .aao => 10
  | .f => 3
  | .fa => 7
  | .faa => 11
  | .faaa => 15
  | .n => 1

/-- The format of each opcode (30_encoding R97). -/
def Opcode.format : Opcode → Format
  | .nop => .n
  | .setVal => .av
  | .setDat | .addDat | .subDat | .mulDat | .divDat | .borDat | .andDat | .xorDat | .setInd => .aa
  | .clrDat | .incDat | .decDat | .notDat | .pshDat | .popDat | .slpDat | .fizDat | .stzDat => .a
  | .setIdx => .aaa
  | .jmpSub | .jmpAdr => .c
  | .retSub | .finImd | .stpImd | .setPcs => .z
  | .bzrDat | .bnzDat => .ao
  | .bgtDat | .bltDat | .bgeDat | .bleDat | .beqDat | .bneDat => .aao
  | .extFun => .f
  | .extFunDat | .extFunRet => .fa
  | .extFunDat2 | .extFunRetDat => .faa
  | .extFunRetDat2 => .faaa

/-- The opcode of an instruction. -/
def Instr.opcode : Instr → Opcode
  | .nop _ => .nop
  | .setVal _ _ => .setVal
  | .setDat _ _ => .setDat
  | .clrDat _ => .clrDat
  | .incDat _ => .incDat
  | .decDat _ => .decDat
  | .addDat _ _ => .addDat
  | .subDat _ _ => .subDat
  | .mulDat _ _ => .mulDat
  | .divDat _ _ => .divDat
  | .borDat _ _ => .borDat
  | .andDat _ _ => .andDat
  | .xorDat _ _ => .xorDat
  | .notDat _ => .notDat
  | .setInd _ _ => .setInd
  | .setIdx _ _ _ => .setIdx
  | .pshDat _ => .pshDat
  | .popDat _ => .popDat
  | .jmpSub _ => .jmpSub
  | .retSub => .retSub
  | .jmpAdr _ => .jmpAdr
  | .bzrDat _ _ => .bzrDat
  | .bnzDat _ _ => .bnzDat
  | .bgtDat _ _ _ => .bgtDat
  | .bltDat _ _ _ => .bltDat
  | .bgeDat _ _ _ => .bgeDat
  | .bleDat _ _ _ => .bleDat
  | .beqDat _ _ _ => .beqDat
  | .bneDat _ _ _ => .bneDat
  | .slpDat _ => .slpDat
  | .fizDat _ => .fizDat
  | .stzDat _ => .stzDat
  | .finImd => .finImd
  | .stpImd => .stpImd
  | .setPcs => .setPcs
  | .extFun _ => .extFun
  | .extFunDat _ _ => .extFunDat
  | .extFunDat2 _ _ _ => .extFunDat2
  | .extFunRet _ _ => .extFunRet
  | .extFunRetDat _ _ _ => .extFunRetDat
  | .extFunRetDat2 _ _ _ _ => .extFunRetDat2

/-- The length in bytes of an instruction (30_encoding R109). -/
def Instr.length (i : Instr) : Nat :=
  match i with
  | .nop k => k
  | i => i.opcode.format.length

/-- The data-address fields of an instruction, in field order (30_encoding R93, R96). -/
def Instr.dataAddrs : Instr → List DataAddr
  | .nop _ => []
  | .setVal a1 _ => [a1]
  | .setDat a1 a2 => [a1, a2]
  | .clrDat a1 => [a1]
  | .incDat a1 => [a1]
  | .decDat a1 => [a1]
  | .addDat a1 a2 => [a1, a2]
  | .subDat a1 a2 => [a1, a2]
  | .mulDat a1 a2 => [a1, a2]
  | .divDat a1 a2 => [a1, a2]
  | .borDat a1 a2 => [a1, a2]
  | .andDat a1 a2 => [a1, a2]
  | .xorDat a1 a2 => [a1, a2]
  | .notDat a1 => [a1]
  | .setInd a1 a2 => [a1, a2]
  | .setIdx a1 a2 a3 => [a1, a2, a3]
  | .pshDat a1 => [a1]
  | .popDat a1 => [a1]
  | .jmpSub _ => []
  | .retSub => []
  | .jmpAdr _ => []
  | .bzrDat a1 _ => [a1]
  | .bnzDat a1 _ => [a1]
  | .bgtDat a1 a2 _ => [a1, a2]
  | .bltDat a1 a2 _ => [a1, a2]
  | .bgeDat a1 a2 _ => [a1, a2]
  | .bleDat a1 a2 _ => [a1, a2]
  | .beqDat a1 a2 _ => [a1, a2]
  | .bneDat a1 a2 _ => [a1, a2]
  | .slpDat a1 => [a1]
  | .fizDat a1 => [a1]
  | .stzDat a1 => [a1]
  | .finImd => []
  | .stpImd => []
  | .setPcs => []
  | .extFun _ => []
  | .extFunDat _ a1 => [a1]
  | .extFunDat2 _ a1 a2 => [a1, a2]
  | .extFunRet _ a1 => [a1]
  | .extFunRetDat _ a1 a2 => [a1, a2]
  | .extFunRetDat2 _ a1 a2 a3 => [a1, a2, a3]

/-- The code offsets an instruction at `cursor` names: its code address, or its branch target `cursor + off`
(30_encoding R106), as exact integers. -/
def Instr.codeTargets (cursor : Nat) : Instr → List Int
  | .nop _ => []
  | .setVal _ _ => []
  | .setDat _ _ => []
  | .clrDat _ => []
  | .incDat _ => []
  | .decDat _ => []
  | .addDat _ _ => []
  | .subDat _ _ => []
  | .mulDat _ _ => []
  | .divDat _ _ => []
  | .borDat _ _ => []
  | .andDat _ _ => []
  | .xorDat _ _ => []
  | .notDat _ => []
  | .setInd _ _ => []
  | .setIdx _ _ _ => []
  | .pshDat _ => []
  | .popDat _ => []
  | .jmpSub c => [c.toInt]
  | .retSub => []
  | .jmpAdr c => [c.toInt]
  | .bzrDat _ off => [(cursor : Int) + off.toInt]
  | .bnzDat _ off => [(cursor : Int) + off.toInt]
  | .bgtDat _ _ off => [(cursor : Int) + off.toInt]
  | .bltDat _ _ off => [(cursor : Int) + off.toInt]
  | .bgeDat _ _ off => [(cursor : Int) + off.toInt]
  | .bleDat _ _ off => [(cursor : Int) + off.toInt]
  | .beqDat _ _ off => [(cursor : Int) + off.toInt]
  | .bneDat _ _ off => [(cursor : Int) + off.toInt]
  | .slpDat _ => []
  | .fizDat _ => []
  | .stzDat _ => []
  | .finImd => []
  | .stpImd => []
  | .setPcs => []
  | .extFun _ => []
  | .extFunDat _ _ => []
  | .extFunDat2 _ _ _ => []
  | .extFunRet _ _ => []
  | .extFunRetDat _ _ _ => []
  | .extFunRetDat2 _ _ _ _ => []

/-- `ValidData(a)` of 20_memory R64, in exact arithmetic. -/
abbrev Configuration.ValidData (cfg : Configuration) (a : Int) : Prop :=
  0 ≤ a ∧ a * 8 + 8 ≤ cfg.dataSize

/-- `ValidCode(a)` of 20_memory R65. -/
abbrev Configuration.ValidCode (cfg : Configuration) (a : Int) : Prop :=
  0 ≤ a ∧ a < cfg.codeSize

/-- The `n` bytes at position `p` of an instruction's bytes, as a little-endian number (30_encoding R92). -/
def fieldNat (bs : List Byte) (p n : Nat) : Nat :=
  leNat ((bs.drop p).take n)

/-- An `A` field at byte position `p` (30_encoding R91). -/
def dataField (bs : List Byte) (p : Nat) : DataAddr :=
  BitVec.ofNat 32 (fieldNat bs p 4)

/-- A `C` field at byte position `p` (30_encoding R91). -/
def codeField (bs : List Byte) (p : Nat) : CodeAddr :=
  BitVec.ofNat 32 (fieldNat bs p 4)

/-- A `V` field at byte position `p` (30_encoding R91). -/
def literalField (bs : List Byte) (p : Nat) : Slot :=
  BitVec.ofNat 64 (fieldNat bs p 8)

/-- An `O` field at byte position `p` (30_encoding R91). -/
def offsetField (bs : List Byte) (p : Nat) : Offset :=
  BitVec.ofNat 8 (fieldNat bs p 1)

/-- An `F` field at byte position `p` (30_encoding R91). -/
def funField (bs : List Byte) (p : Nat) : FunId :=
  BitVec.ofNat 16 (fieldNat bs p 2)

/-- The instruction whose bytes, opcode byte first, are `bs`: every field at its position (30_encoding R93). -/
def assemble (op : Opcode) (bs : List Byte) : Instr :=
  match op with
  | .nop => .nop bs.length
  | .setVal => .setVal (dataField bs 1) (literalField bs 5)
  | .setDat => .setDat (dataField bs 1) (dataField bs 5)
  | .clrDat => .clrDat (dataField bs 1)
  | .incDat => .incDat (dataField bs 1)
  | .decDat => .decDat (dataField bs 1)
  | .addDat => .addDat (dataField bs 1) (dataField bs 5)
  | .subDat => .subDat (dataField bs 1) (dataField bs 5)
  | .mulDat => .mulDat (dataField bs 1) (dataField bs 5)
  | .divDat => .divDat (dataField bs 1) (dataField bs 5)
  | .borDat => .borDat (dataField bs 1) (dataField bs 5)
  | .andDat => .andDat (dataField bs 1) (dataField bs 5)
  | .xorDat => .xorDat (dataField bs 1) (dataField bs 5)
  | .notDat => .notDat (dataField bs 1)
  | .setInd => .setInd (dataField bs 1) (dataField bs 5)
  | .setIdx => .setIdx (dataField bs 1) (dataField bs 5) (dataField bs 9)
  | .pshDat => .pshDat (dataField bs 1)
  | .popDat => .popDat (dataField bs 1)
  | .jmpSub => .jmpSub (codeField bs 1)
  | .retSub => .retSub
  | .jmpAdr => .jmpAdr (codeField bs 1)
  | .bzrDat => .bzrDat (dataField bs 1) (offsetField bs 5)
  | .bnzDat => .bnzDat (dataField bs 1) (offsetField bs 5)
  | .bgtDat => .bgtDat (dataField bs 1) (dataField bs 5) (offsetField bs 9)
  | .bltDat => .bltDat (dataField bs 1) (dataField bs 5) (offsetField bs 9)
  | .bgeDat => .bgeDat (dataField bs 1) (dataField bs 5) (offsetField bs 9)
  | .bleDat => .bleDat (dataField bs 1) (dataField bs 5) (offsetField bs 9)
  | .beqDat => .beqDat (dataField bs 1) (dataField bs 5) (offsetField bs 9)
  | .bneDat => .bneDat (dataField bs 1) (dataField bs 5) (offsetField bs 9)
  | .slpDat => .slpDat (dataField bs 1)
  | .fizDat => .fizDat (dataField bs 1)
  | .stzDat => .stzDat (dataField bs 1)
  | .finImd => .finImd
  | .stpImd => .stpImd
  | .setPcs => .setPcs
  | .extFun => .extFun (funField bs 1)
  | .extFunDat => .extFunDat (funField bs 1) (dataField bs 3)
  | .extFunDat2 => .extFunDat2 (funField bs 1) (dataField bs 3) (dataField bs 7)
  | .extFunRet => .extFunRet (funField bs 1) (dataField bs 3)
  | .extFunRetDat => .extFunRetDat (funField bs 1) (dataField bs 3) (dataField bs 7)
  | .extFunRetDat2 => .extFunRetDat2 (funField bs 1) (dataField bs 3) (dataField bs 7) (dataField bs 11)

/-- What the decoder returns (30_encoding R101). -/
inductive Decoded where
  /-- `NoInstr`: the cursor is at or beyond `CODE_SIZE`. -/
  | noInstr
  /-- `Ok(instr, len)`. -/
  | ok (i : Instr) (len : Nat)
  /-- `Err(cause)`: UnknownOpcode, OperandBounds, DataAddress or CodeAddress. -/
  | err (cause : Cause)
  deriving DecidableEq, Repr

/-- The number of consecutive bytes equal to `b` from `cursor` on, looking at `fuel` bytes at most (30_encoding R100). -/
def runLength (code : Memory) (b : Byte) : Nat → Nat → Nat
  | 0, _ => 0
  | fuel + 1, cursor => if code.read cursor = b then 1 + runLength code b fuel (cursor + 1) else 0

/-- Every `A` field passes `ValidData` (30_encoding R105). -/
def Instr.dataOk (cfg : Configuration) (i : Instr) : Bool :=
  i.dataAddrs.all fun a => decide (cfg.ValidData a.toInt)

/-- The `C` field, or the branch target, passes `ValidCode`, whether or not the branch is taken (30_encoding R106). -/
def Instr.codeOk (cfg : Configuration) (cursor : Nat) (i : Instr) : Bool :=
  (i.codeTargets cursor).all fun t => decide (cfg.ValidCode t)

/-- The operand checks of 30_encoding R101: data addresses first, then the code address or branch target. -/
def checkOperands (cfg : Configuration) (cursor : Nat) (i : Instr) (len : Nat) : Decoded :=
  if i.dataOk cfg then
    if i.codeOk cfg cursor then .ok i len else .err .codeAddress
  else .err .dataAddress

/-- The decoding of an opcode's bytes at `cursor` (30_encoding R101): the no-op run, or a fixed-length instruction. -/
def decodeOpcode (cfg : Configuration) (code : Memory) (cursor : Nat) (op : Opcode) : Decoded :=
  if op = .nop then
    let k := runLength code (code.read cursor) (cfg.codeSize - cursor) cursor
    .ok (.nop k) k
  else if cfg.codeSize < cursor + op.format.length then .err .operandBounds
  else checkOperands cfg cursor (assemble op (code.readBytes cursor op.format.length)) op.format.length

/-- `Decode(cursor)` of 30_encoding R101. Total: every byte is decoded or rejected by its cause. -/
def decode (cfg : Configuration) (code : Memory) (cursor : Nat) : Decoded :=
  if cfg.codeSize ≤ cursor then .noInstr
  else
    match cfg.opcodeMap.opcodeOf (code.read cursor) with
    | none => .err .unknownOpcode
    | some op => decodeOpcode cfg code cursor op

/-- The bytes of an `A` or `C` field. -/
def addrBytes (a : BitVec 32) : List Byte :=
  bytesLE 4 a.toNat

/-- The bytes of a `V` field. -/
def literalBytes (v : Slot) : List Byte :=
  bytesLE 8 v.toNat

/-- The byte of an `O` field. -/
def offsetBytes (off : Offset) : List Byte :=
  bytesLE 1 off.toNat

/-- The bytes of an `F` field. -/
def funBytes (fn : FunId) : List Byte :=
  bytesLE 2 fn.toNat

/-- The bytes of an instruction, opcode byte first (30_encoding R93, R97). -/
def encode (map : OpcodeMap) (i : Instr) : List Byte :=
  match i with
  | .nop k => List.replicate k (map.byteOf .nop)
  | .setVal a1 v => map.byteOf .setVal :: (addrBytes a1 ++ literalBytes v)
  | .setDat a1 a2 => map.byteOf .setDat :: (addrBytes a1 ++ addrBytes a2)
  | .clrDat a1 => map.byteOf .clrDat :: addrBytes a1
  | .incDat a1 => map.byteOf .incDat :: addrBytes a1
  | .decDat a1 => map.byteOf .decDat :: addrBytes a1
  | .addDat a1 a2 => map.byteOf .addDat :: (addrBytes a1 ++ addrBytes a2)
  | .subDat a1 a2 => map.byteOf .subDat :: (addrBytes a1 ++ addrBytes a2)
  | .mulDat a1 a2 => map.byteOf .mulDat :: (addrBytes a1 ++ addrBytes a2)
  | .divDat a1 a2 => map.byteOf .divDat :: (addrBytes a1 ++ addrBytes a2)
  | .borDat a1 a2 => map.byteOf .borDat :: (addrBytes a1 ++ addrBytes a2)
  | .andDat a1 a2 => map.byteOf .andDat :: (addrBytes a1 ++ addrBytes a2)
  | .xorDat a1 a2 => map.byteOf .xorDat :: (addrBytes a1 ++ addrBytes a2)
  | .notDat a1 => map.byteOf .notDat :: addrBytes a1
  | .setInd a1 a2 => map.byteOf .setInd :: (addrBytes a1 ++ addrBytes a2)
  | .setIdx a1 a2 a3 => map.byteOf .setIdx :: (addrBytes a1 ++ addrBytes a2 ++ addrBytes a3)
  | .pshDat a1 => map.byteOf .pshDat :: addrBytes a1
  | .popDat a1 => map.byteOf .popDat :: addrBytes a1
  | .jmpSub c => map.byteOf .jmpSub :: addrBytes c
  | .retSub => map.byteOf .retSub :: []
  | .jmpAdr c => map.byteOf .jmpAdr :: addrBytes c
  | .bzrDat a1 off => map.byteOf .bzrDat :: (addrBytes a1 ++ offsetBytes off)
  | .bnzDat a1 off => map.byteOf .bnzDat :: (addrBytes a1 ++ offsetBytes off)
  | .bgtDat a1 a2 off => map.byteOf .bgtDat :: (addrBytes a1 ++ addrBytes a2 ++ offsetBytes off)
  | .bltDat a1 a2 off => map.byteOf .bltDat :: (addrBytes a1 ++ addrBytes a2 ++ offsetBytes off)
  | .bgeDat a1 a2 off => map.byteOf .bgeDat :: (addrBytes a1 ++ addrBytes a2 ++ offsetBytes off)
  | .bleDat a1 a2 off => map.byteOf .bleDat :: (addrBytes a1 ++ addrBytes a2 ++ offsetBytes off)
  | .beqDat a1 a2 off => map.byteOf .beqDat :: (addrBytes a1 ++ addrBytes a2 ++ offsetBytes off)
  | .bneDat a1 a2 off => map.byteOf .bneDat :: (addrBytes a1 ++ addrBytes a2 ++ offsetBytes off)
  | .slpDat a1 => map.byteOf .slpDat :: addrBytes a1
  | .fizDat a1 => map.byteOf .fizDat :: addrBytes a1
  | .stzDat a1 => map.byteOf .stzDat :: addrBytes a1
  | .finImd => map.byteOf .finImd :: []
  | .stpImd => map.byteOf .stpImd :: []
  | .setPcs => map.byteOf .setPcs :: []
  | .extFun fn => map.byteOf .extFun :: funBytes fn
  | .extFunDat fn a1 => map.byteOf .extFunDat :: (funBytes fn ++ addrBytes a1)
  | .extFunDat2 fn a1 a2 => map.byteOf .extFunDat2 :: (funBytes fn ++ addrBytes a1 ++ addrBytes a2)
  | .extFunRet fn a1 => map.byteOf .extFunRet :: (funBytes fn ++ addrBytes a1)
  | .extFunRetDat fn a1 a2 => map.byteOf .extFunRetDat :: (funBytes fn ++ addrBytes a1 ++ addrBytes a2)
  | .extFunRetDat2 fn a1 a2 a3 => map.byteOf .extFunRetDat2 :: (funBytes fn ++ addrBytes a1 ++ addrBytes a2 ++ addrBytes a3)

/-- The longest fixed-length instruction, format FAAA (30_encoding R93). -/
abbrev longestInstr : Nat := 15

/-- The bytes of an instruction whose bits are `w`, of `nbits` bits, with zeros above them up to the longest
instruction; bit 0 is the least significant bit of the first byte. -/
def tableBytes (nbits w : Nat) : List Byte :=
  bytesLE longestInstr (w % 2 ^ nbits)

/-- The instruction the decoder reads from those bytes, placed at offset 0 of a code region that holds them alone, under
`resetConfiguration`'s sizes and parameters. -/
def decodeTableWord (nbits w : Nat) : Option Instr :=
  match decode { resetConfiguration with codeSize := longestInstr } (Memory.writeBytes [] 0 (tableBytes nbits w)) 0 with
  | .noInstr => none
  | .ok i _ => some i
  | .err _ => none

end Sys2Proof
end

