-- ==== Sys2Proof/Machine/State.lean ====
section
/-!
DEFINITION. The state of one instance (10_state R21, R31, R32, R33), as plain data; what stops a step; and the state right
after reset (70_reset_and_hazards R241, R242).
-/

namespace Sys2Proof.Machine

/-- The host's side of the external-call port (46_external R200), the MODEL's own field: no part of the core's state
(10_state R34). DESIGN CHOICE, log entries 2 and 3. -/
structure ExtPort where
  /-- A number that names the host context the next call is answered in. -/
  context : Nat
  /-- The answers the host will give to the next calls, oldest first. When there is none, `Config.extOracle` answers. -/
  answers : List ExtResponse
  /-- The requests the core has sent, newest first. -/
  sent : List ExtRequest
  deriving DecidableEq, Repr

/-- The state of one instance. -/
structure State where
  /-- The byte offset of the next instruction (10_state R22). -/
  pc : Reg
  /-- The restart point (10_state R23). -/
  pcs : Reg
  /-- `callDepth` (10_state R24). -/
  cs : Reg
  /-- `userDepth` (10_state R25). -/
  us : Reg
  /-- `stepCount` (10_state R26). -/
  steps : BitVec Config.stepsWidth
  /-- The flags, laid out as 10_state R27 says. -/
  flags : FlagBits
  /-- The sleep threshold (10_state R29). -/
  sleepUntil : Slot
  /-- `legalTargets` (10_state R30), strictly rising. -/
  legalTargets : List Nat
  /-- The sizes and parameters (10_state R31, 00_scope R7). -/
  cfg : Configuration
  /-- The code region, offsets `0` to `CODE_SIZE - 1` (20_memory R61). -/
  code : Memory
  /-- The data buffer, offsets `0` to `TOTAL_SIZE - 1` (20_memory R62). -/
  data : Memory
  /-- The external-call port. -/
  ext : ExtPort
  deriving DecidableEq, Repr

/-- Why a step fails (60_exceptions R210, R211): the two negative step results. `reached` is the state the failed step
leaves (40_engine R116), which is final for the run (60_exceptions R215). -/
inductive Fault where
  /-- `OVERFLOW(cause)`: raised by JMP_SUB, RET_SUB, PSH_DAT, POP_DAT, and by SET_IND and SET_IDX when
  `INDIRECT_FAULT_CLASS` is OVERFLOW. Safe: the spec's own error result. -/
  | overflow (cause : Cause) (reached : State)
  /-- `INVALID(cause)`: raised by the decoder, by SET_IND, SET_IDX, DIV_DAT, the transfers and the external calls. Safe:
  the spec's own error result. -/
  | invalid (cause : Cause) (reached : State)
  deriving DecidableEq, Repr

/-- What has no meaning in the model. -/
inductive Refusal where
  /-- An instruction with no meaning yet; no arm answers it. Safe. -/
  | notModelled (mnemonic : String)
  /-- JMP_SUB or RET_SUB in a state whose `cs` is above `CS_CAP`, an illegal value (10_state R21) that no run reaches.
  Safe; log entry 5. -/
  | callDepthIllegal
  /-- PSH_DAT or POP_DAT in a state whose `us` is above `US_CAP`, an illegal value (10_state R21) that no run reaches.
  Safe; log entry 5. -/
  | userDepthIllegal
  /-- The host steps or decodes before the first reset after a construct (70 R244, R245); raised by `hostMove`. Safe. -/
  | stepBeforeReset
  /-- The host mixes execute steps and decode-only steps without a reset between (70 R247); raised by `hostMove`. Safe. -/
  | modesInterleaved
  /-- The host constructs an instance whose sizes break 00_scope R7, or whose code has another length than `CODE_SIZE`;
  raised by `hostMove`. Safe. -/
  | constructIllegal
  deriving DecidableEq, Repr

/-- What a meaning and a step answer. -/
abbrev Result := Host.Outcome State Fault Refusal

/-- The port of a host that has been asked nothing. DESIGN CHOICE (unsafe), log entry 2. -/
def ExtPort.fresh : ExtPort where
  context := 0
  answers := []
  sent := []

/-- The machine right after reset (70_reset_and_hazards R241, R242): every register 0, the data buffer all zeros, and
`legalTargets` the sweep of the code region. The configuration and the code region are those of an instance constructed
with no code; log entry 1. -/
def State.reset : State where
  pc := 0#32
  pcs := 0#32
  cs := 0#32
  us := 0#32
  steps := 0
  flags := 0#5
  sleepUntil := 0#64
  legalTargets := []
  cfg := resetConfiguration
  code := []
  data := []
  ext := ExtPort.fresh

end Sys2Proof.Machine
end

