-- ==== Sys2Proof/Machine/Flags.lean ====
section
/-!
DEFINITION. The `flags` register (10_state R27): its bits by name, setting one bit, and the write of the host flag port
(R45). No instruction computes a condition code (R36).
-/

namespace Sys2Proof.Machine

/-- Bit position of `stopped` (10_state R27). -/
def stoppedBit : Nat := 0

/-- Bit position of `terminated` (10_state R27). -/
def terminatedBit : Nat := 1

/-- Bit position of `paused` (10_state R27). -/
def pausedBit : Nat := 2

/-- Bit position of `aZero`, registerA-is-zero (10_state R27). -/
def aZeroBit : Nat := 3

/-- Bit position of `bZero`, registerB-is-zero (10_state R27). -/
def bZeroBit : Nat := 4

/-- One flag of the register. -/
def flagAt (f : FlagBits) (bit : Nat) : Bool :=
  f.getLsbD bit

/-- Set one flag and leave the others (45_system R191: no flag is cleared). -/
def setFlag (f : FlagBits) (bit : Nat) : FlagBits :=
  f ||| (1#5 <<< bit)

/-- Give one flag a value and leave the others. -/
def putFlag (f : FlagBits) (bit : Nat) (v : Bool) : FlagBits :=
  if v then f ||| (1#5 <<< bit) else f &&& ~~~(1#5 <<< bit)

/-- A write of the host flag port: `paused`, `aZero` and `bZero`, and no other bit (10_state R45). -/
def putHostFlags (f : FlagBits) (w : HostFlags) : FlagBits :=
  putFlag (putFlag (putFlag f pausedBit w.paused) aZeroBit w.aZero) bZeroBit w.bZero

/-- `isStopped()` (10_state R41). -/
def State.isStopped (s : State) : Bool :=
  flagAt s.flags stoppedBit

/-- `isTerminated()` (10_state R41). -/
def State.isTerminated (s : State) : Bool :=
  flagAt s.flags terminatedBit

/-- `isPaused()` (10_state R41). -/
def State.isPaused (s : State) : Bool :=
  flagAt s.flags pausedBit

/-- The host flag port writes `flags` (10_state R45). -/
def State.writeHostFlags (s : State) (w : HostFlags) : State :=
  { s with flags := putHostFlags s.flags w }

end Sys2Proof.Machine
end

