-- ==== Sys2Proof/Machine/Ops.lean ====
section
/-!
DEFINITION. The named operations on the state: step errors, data slots, the two stacks, the program counter, the halt
actions, the retirement of an instruction, and one transaction on the external-call port.

The hardware has no trap entry and no trap return (60_exceptions R215, R217): the one shared operation that takes its
place is `raise`, which ends the step with a class, a cause and the state left.
-/

namespace Sys2Proof

/-- `CS_CAP` (00_scope R7). -/
def Configuration.csCap (cfg : Configuration) : Nat :=
  cfg.csSize / 8

/-- `US_CAP` (00_scope R7). -/
def Configuration.usCap (cfg : Configuration) : Nat :=
  cfg.usSize / 8

/-- `TOTAL_SIZE` (00_scope R7). -/
def Configuration.totalSize (cfg : Configuration) : Nat :=
  cfg.dataSize + cfg.csSize + cfg.usSize

/-- `CallOff(N)` (20_memory R67). -/
def Configuration.callOff (cfg : Configuration) (n : Nat) : Nat :=
  cfg.dataSize + cfg.csSize - 8 * n

/-- `UserOff(N)` (20_memory R67). -/
def Configuration.userOff (cfg : Configuration) (n : Nat) : Nat :=
  cfg.totalSize - 8 * n

end Sys2Proof

namespace Sys2Proof.Machine

/-- End the step with an error (00_scope R10; 60_exceptions R210). `s` is the state the failed step leaves. -/
def raise (cls : ErrClass) (cause : Cause) (s : State) : Result :=
  match cls with
  | .overflow => .fault (.overflow cause s)
  | .invalid => .fault (.invalid cause s)

/-- `raise Invalid(cause)`. -/
def raiseInvalid (cause : Cause) (s : State) : Result :=
  raise .invalid cause s

/-- `raise Overflow(cause)`. -/
def raiseOverflow (cause : Cause) (s : State) : Result :=
  raise .overflow cause s

/-- The byte offset of the slot a data address names (20_memory R63). -/
def slotOff (a : Int) : Nat :=
  (a * 8).toNat

/-- `Slot(a)` (20_memory R71), for an `a` that passed `ValidData`. -/
def State.slot (s : State) (a : Int) : Slot :=
  s.data.readSlot (slotOff a)

/-- `SetSlot(a, v)` (20_memory R71), for an `a` that passed `ValidData`. -/
def State.setSlot (s : State) (a : Int) (v : Slot) : State :=
  { s with data := s.data.writeSlot (slotOff a) v }

/-- `pc <- pc + len` (40_engine R117). -/
def State.advance (s : State) (len : Nat) : State :=
  { s with pc := s.pc + BitVec.ofNat 32 len }

/-- `pc <- t` for a validated target (40_engine R117). -/
def State.jumpTo (s : State) (t : Int) : State :=
  { s with pc := BitVec.ofInt 32 t }

/-- `t in legalTargets` (40_engine R121), for an exact integer. -/
abbrev State.IsTarget (s : State) (t : Int) : Prop :=
  0 ≤ t ∧ t.toNat ∈ s.legalTargets

/-- The write half of `pushCall(v)` (20_memory R68), made once the capacity is checked. -/
def State.pushCall (s : State) (v : Slot) : State :=
  { s with cs := s.cs + 1#32, data := s.data.writeSlot (s.cfg.callOff (s.cs.toNat + 1)) v }

/-- The value on top of the call stack (20_memory R68). -/
def State.topCall (s : State) : Slot :=
  s.data.readSlot (s.cfg.callOff s.cs.toNat)

/-- `cs <- cs - 1`: the pop of the call stack leaves its bytes as they are (20_memory R68). -/
def State.dropCall (s : State) : State :=
  { s with cs := s.cs - 1#32 }

/-- The write half of `pushUser(v)` (20_memory R68), made once the capacity is checked. -/
def State.pushUser (s : State) (v : Slot) : State :=
  { s with us := s.us + 1#32, data := s.data.writeSlot (s.cfg.userOff (s.us.toNat + 1)) v }

/-- The value on top of the user stack (20_memory R68). -/
def State.topUser (s : State) : Slot :=
  s.data.readSlot (s.cfg.userOff s.us.toNat)

/-- `us <- us - 1`: the pop of the user stack leaves its bytes as they are (20_memory R68). -/
def State.dropUser (s : State) : State :=
  { s with us := s.us - 1#32 }

/-- `Stop(len)` (45_system R191). -/
def State.stop (s : State) (len : Nat) : State :=
  { s with flags := setFlag s.flags stoppedBit }.advance len

/-- `Terminate()` (45_system R191): sets the flag and snaps `pc` back to `pcs`, with no test of `legalTargets`
(40_engine R122). -/
def State.terminate (s : State) : State :=
  { s with flags := setFlag s.flags terminatedBit, pc := s.pcs }

/-- `steps <- (steps + 1) mod 2^W_STEPS` (40_engine R115, R118). -/
def State.retire (s : State) : State :=
  { s with steps := s.steps + 1 }

/-- What the host answers to a request: the oldest queued answer, or the oracle's (46_external R200). -/
def State.extAnswer (s : State) (req : ExtRequest) : ExtResponse :=
  match s.ext.answers with
  | r :: _ => r
  | [] => Config.extOracle s.ext.context req

/-- The state once the host has answered `r` to `req`: the request sent, the answer used up, the host's context moved,
and the host's flag write made (46_external R200). -/
def State.served (s : State) (req : ExtRequest) (r : ExtResponse) : State :=
  { s with
    flags := match r.flagWrite with
      | some w => putHostFlags s.flags w
      | none => s.flags
    ext := { context := r.context, answers := s.ext.answers.tail, sent := req :: s.ext.sent } }

end Sys2Proof.Machine
end

