-- ==== Sys2Proof/Machine/Operands.lean ====
section
/-!
DEFINITION. The operand forms: reading a data slot, the indirect slot, writing the result and advancing, the stack checks,
the legal-target test, the branch rule and the external call; and the arithmetic of a slot (42_arithmetic R160).
-/

namespace Sys2Proof.Machine

/-- Read the slot an `A` field names and go on with its value. The decoder has already checked the address (30_encoding
R105); an instruction built by hand that names a bad address gets the same error (10_state R38). -/
def withSlot (a : DataAddr) (s : State) (k : Slot → Result) : Result :=
  if s.cfg.ValidData a.toInt then k (s.slot a.toInt) else raiseInvalid .dataAddress s

/-- Write the result to the slot an `A` field names and move past the instruction. -/
def store (a : DataAddr) (v : Slot) (len : Nat) (s : State) : Result :=
  if s.cfg.ValidData a.toInt then .next ((s.setSlot a.toInt v).advance len) else raiseInvalid .dataAddress s

/-- Replace one slot by a function of its value and move past the instruction. -/
def modify (f : Slot → Slot) (a : DataAddr) (len : Nat) (s : State) : Result :=
  withSlot a s fun x => store a (f x) len s

/-- Combine two slots into the first and move past the instruction (42_arithmetic, "result stored in the first"). -/
def combine (f : Slot → Slot → Slot) (a1 a2 : DataAddr) (len : Nat) (s : State) : Result :=
  withSlot a1 s fun x => withSlot a2 s fun y => store a1 (f x y) len s

/-- Read the slot a computed address names (41_data_movement R143, R144): the address is an exact integer, checked
before use. -/
def withIndirect (t : Int) (s : State) (k : Slot → Result) : Result :=
  if s.cfg.ValidData t then k (s.slot t) else raise s.cfg.indirectFaultClass .indirectAddress s

/-- The legal-target test (40_engine R121). -/
def withTarget (t : Int) (s : State) (k : Result) : Result :=
  if s.IsTarget t then k else raiseInvalid .unresolvedJump s

/-- Capacity of the call stack, checked before a push (20_memory R68). -/
def withCallRoom (s : State) (k : Result) : Result :=
  if s.cfg.csCap < s.cs.toNat then .refused .callDepthIllegal
  else if s.cs.toNat = s.cfg.csCap then raiseOverflow .callStackFull s
  else k

/-- Occupancy of the call stack, checked before a pop (20_memory R68). -/
def withCallEntry (s : State) (k : Result) : Result :=
  if s.cfg.csCap < s.cs.toNat then .refused .callDepthIllegal
  else if s.cs.toNat = 0 then raiseOverflow .callStackEmpty s
  else k

/-- Capacity of the user stack, checked before a push (20_memory R68). -/
def withUserRoom (s : State) (k : Result) : Result :=
  if s.cfg.usCap < s.us.toNat then .refused .userDepthIllegal
  else if s.us.toNat = s.cfg.usCap then raiseOverflow .userStackFull s
  else k

/-- Occupancy of the user stack, checked before a pop (20_memory R68). -/
def withUserEntry (s : State) (k : Result) : Result :=
  if s.cfg.usCap < s.us.toNat then .refused .userDepthIllegal
  else if s.us.toNat = 0 then raiseOverflow .userStackEmpty s
  else k

/-- `Branch(cond, off, len)` (44_control R179): the target is tested only when the branch is taken. -/
def branch (cond : Bool) (off : Offset) (len : Nat) (s : State) : Result :=
  if cond then
    withTarget (s.pc.toNat + off.toInt) s (.next (s.jumpTo (s.pc.toNat + off.toInt)))
  else .next (s.advance len)

/-- A branch on one slot (44_control R180, R181). -/
def branchOn (c : Slot → Bool) (a1 : DataAddr) (off : Offset) (len : Nat) (s : State) : Result :=
  withSlot a1 s fun x => branch (c x) off len s

/-- A branch on the relation of two slots (44_control R182 to R187). -/
def branchOn2 (c : Slot → Slot → Bool) (a1 a2 : DataAddr) (off : Offset) (len : Nat) (s : State) : Result :=
  withSlot a1 s fun x => withSlot a2 s fun y => branch (c x y) off len s

/-- One transaction on the external-call port (46_external R200): the request, the answer, and either the rejection or
the rest of the instruction with the returned value, in the state the host leaves. -/
def extCall (req : ExtRequest) (s : State) (k : Slot → State → Result) : Result :=
  let r := s.extAnswer req
  if r.ok then k r.value (s.served req r) else raiseInvalid .extCallRejected (s.served req r)

/-- ADD: `wrap64` of the exact sum (42_arithmetic R160). -/
def aluAdd (x y : Slot) : Slot :=
  wrap64 (x.toInt + y.toInt)

/-- SUB: `wrap64` of the exact difference (42_arithmetic R160). -/
def aluSub (x y : Slot) : Slot :=
  wrap64 (x.toInt - y.toInt)

/-- MUL: `wrap64` of the exact product (42_arithmetic R160). -/
def aluMul (x y : Slot) : Slot :=
  wrap64 (x.toInt * y.toInt)

/-- `trunc(x / y)`, for `y` not 0 (42_arithmetic R160). -/
def aluQuot (x y : Slot) : Slot :=
  wrap64 (x.toInt.tdiv y.toInt)

/-- `INT64_MIN` (00_scope R8). -/
def int64Min : Int := -9223372036854775808

/-- The checks of DIV and then the rest of the instruction with the quotient (42_arithmetic R164). -/
def withQuotient (x y : Slot) (s : State) (k : Slot → Result) : Result :=
  if y.toInt = 0 then raiseInvalid .divisionByZero s
  else if x.toInt = int64Min ∧ y.toInt = -1 then
    match s.cfg.divMinNeg1 with
    | .invalid => raiseInvalid .divisionOverflow s
    | .wrap => k (wrap64 int64Min)
  else k (aluQuot x y)

end Sys2Proof.Machine
end

