-- ==== Sys2Proof/Machine/Arithmetic.lean ====
section
/-!
DEFINITION. The meanings of ADD_DAT, SUB_DAT, MUL_DAT, DIV_DAT, BOR_DAT, AND_DAT and XOR_DAT (42_arithmetic R160 to R167).
-/

namespace Sys2Proof.Machine

/-- ADD_DAT (R161). -/
def execAddDat (a1 a2 : DataAddr) (s : State) : Result :=
  combine aluAdd a1 a2 9 s

/-- SUB_DAT (R162). -/
def execSubDat (a1 a2 : DataAddr) (s : State) : Result :=
  combine aluSub a1 a2 9 s

/-- MUL_DAT (R163). -/
def execMulDat (a1 a2 : DataAddr) (s : State) : Result :=
  combine aluMul a1 a2 9 s

/-- DIV_DAT (R164). -/
def execDivDat (a1 a2 : DataAddr) (s : State) : Result :=
  withSlot a2 s fun y => withSlot a1 s fun x => withQuotient x y s fun q => store a1 q 9 s

/-- BOR_DAT (R165). -/
def execBorDat (a1 a2 : DataAddr) (s : State) : Result :=
  combine (fun x y => x ||| y) a1 a2 9 s

/-- AND_DAT (R166). -/
def execAndDat (a1 a2 : DataAddr) (s : State) : Result :=
  combine (fun x y => x &&& y) a1 a2 9 s

/-- XOR_DAT (R167). -/
def execXorDat (a1 a2 : DataAddr) (s : State) : Result :=
  combine (fun x y => x ^^^ y) a1 a2 9 s

end Sys2Proof.Machine
end

