-- ==== Sys2Proof/Machine/Control.lean ====
section
/-!
DEFINITION. The meanings of JMP_SUB, RET_SUB, JMP_ADR and the eight conditional branches (44_control R175 to R187).
Comparisons are on signed 64-bit values.
-/

namespace Sys2Proof.Machine

/-- JMP_SUB (R175): capacity, then legality, then the push of this instruction's end offset. -/
def execJmpSub (c : CodeAddr) (s : State) : Result :=
  withCallRoom s (withTarget c.toInt s
    (.next ((s.pushCall (BitVec.ofNat 64 (s.pc.toNat + 5))).jumpTo c.toInt)))

/-- RET_SUB (R176): the decrement of `cs` is kept when the popped address is not a legal target; the popped value is
compared as a full 64-bit value. -/
def execRetSub (s : State) : Result :=
  withCallEntry s (withTarget s.topCall.toInt s.dropCall (.next (s.dropCall.jumpTo s.topCall.toInt)))

/-- JMP_ADR (R178). -/
def execJmpAdr (c : CodeAddr) (s : State) : Result :=
  withTarget c.toInt s (.next (s.jumpTo c.toInt))

/-- BZR_DAT (R180). -/
def execBzrDat (a1 : DataAddr) (off : Offset) (s : State) : Result :=
  branchOn (fun x => decide (x.toInt = 0)) a1 off 6 s

/-- BNZ_DAT (R181). -/
def execBnzDat (a1 : DataAddr) (off : Offset) (s : State) : Result :=
  branchOn (fun x => decide (x.toInt ≠ 0)) a1 off 6 s

/-- BGT_DAT (R182). -/
def execBgtDat (a1 a2 : DataAddr) (off : Offset) (s : State) : Result :=
  branchOn2 (fun x y => decide (x.toInt > y.toInt)) a1 a2 off 10 s

/-- BLT_DAT (R183). -/
def execBltDat (a1 a2 : DataAddr) (off : Offset) (s : State) : Result :=
  branchOn2 (fun x y => decide (x.toInt < y.toInt)) a1 a2 off 10 s

/-- BGE_DAT (R184). -/
def execBgeDat (a1 a2 : DataAddr) (off : Offset) (s : State) : Result :=
  branchOn2 (fun x y => decide (x.toInt ≥ y.toInt)) a1 a2 off 10 s

/-- BLE_DAT (R185). -/
def execBleDat (a1 a2 : DataAddr) (off : Offset) (s : State) : Result :=
  branchOn2 (fun x y => decide (x.toInt ≤ y.toInt)) a1 a2 off 10 s

/-- BEQ_DAT (R186). -/
def execBeqDat (a1 a2 : DataAddr) (off : Offset) (s : State) : Result :=
  branchOn2 (fun x y => decide (x.toInt = y.toInt)) a1 a2 off 10 s

/-- BNE_DAT (R187). -/
def execBneDat (a1 a2 : DataAddr) (off : Offset) (s : State) : Result :=
  branchOn2 (fun x y => decide (x.toInt ≠ y.toInt)) a1 a2 off 10 s

end Sys2Proof.Machine
end

