-- ==== Sys2Proof/Machine/DataMovement.lean ====
section
/-!
DEFINITION. The meanings of NOP, SET_VAL, SET_DAT, SET_IND, SET_IDX, CLR_DAT, INC_DAT, DEC_DAT and NOT_DAT
(41_data_movement R140 to R148).
-/

namespace Sys2Proof.Machine

/-- NOP (R140). -/
def execNop (k : Nat) (s : State) : Result :=
  .next (s.advance k)

/-- SET_VAL (R141). -/
def execSetVal (a1 : DataAddr) (v : Slot) (s : State) : Result :=
  store a1 v 13 s

/-- SET_DAT (R142). -/
def execSetDat (a1 a2 : DataAddr) (s : State) : Result :=
  withSlot a2 s fun y => store a1 y 9 s

/-- SET_IND (R143): the whole 64-bit slot is the address. -/
def execSetInd (a1 a2 : DataAddr) (s : State) : Result :=
  withSlot a2 s fun p => withIndirect p.toInt s fun v => store a1 v 9 s

/-- SET_IDX (R144): the sum of base and index is exact, with no wrap. -/
def execSetIdx (a1 a2 a3 : DataAddr) (s : State) : Result :=
  withSlot a2 s fun base => withSlot a3 s fun index =>
    withIndirect (base.toInt + index.toInt) s fun v => store a1 v 13 s

/-- CLR_DAT (R145). -/
def execClrDat (a1 : DataAddr) (s : State) : Result :=
  store a1 0#64 5 s

/-- INC_DAT (R146). -/
def execIncDat (a1 : DataAddr) (s : State) : Result :=
  modify (fun x => aluAdd x 1#64) a1 5 s

/-- DEC_DAT (R147). -/
def execDecDat (a1 : DataAddr) (s : State) : Result :=
  modify (fun x => aluSub x 1#64) a1 5 s

/-- NOT_DAT (R148). -/
def execNotDat (a1 : DataAddr) (s : State) : Result :=
  modify (fun x => ~~~x) a1 5 s

end Sys2Proof.Machine
end

