-- ==== Sys2Proof/Machine/External.lean ====
section
/-!
DEFINITION. The meanings of the six external-function calls (46_external R201 to R206): the arguments are read first, then
the request is sent, then the answer is taken, and the output slot (if any) is written last.
-/

namespace Sys2Proof.Machine

/-- EXT_FUN (R201). -/
def execExtFun (fn : FunId) (s : State) : Result :=
  extCall { id := fn, args := [], wantRet := false } s fun _ t => .next (t.advance 3)

/-- EXT_FUN_DAT (R202). -/
def execExtFunDat (fn : FunId) (a1 : DataAddr) (s : State) : Result :=
  withSlot a1 s fun x =>
    extCall { id := fn, args := [x], wantRet := false } s fun _ t => .next (t.advance 7)

/-- EXT_FUN_DAT_2 (R203). -/
def execExtFunDat2 (fn : FunId) (a1 a2 : DataAddr) (s : State) : Result :=
  withSlot a1 s fun x => withSlot a2 s fun y =>
    extCall { id := fn, args := [x, y], wantRet := false } s fun _ t => .next (t.advance 11)

/-- EXT_FUN_RET (R204): `a1` is the output slot, whose address is checked before the request is sent. -/
def execExtFunRet (fn : FunId) (a1 : DataAddr) (s : State) : Result :=
  withSlot a1 s fun _ =>
    extCall { id := fn, args := [], wantRet := true } s fun v t => store a1 v 7 t

/-- EXT_FUN_RET_DAT (R205): `a1` is the output slot, `a2` the argument. -/
def execExtFunRetDat (fn : FunId) (a1 a2 : DataAddr) (s : State) : Result :=
  withSlot a1 s fun _ => withSlot a2 s fun x =>
    extCall { id := fn, args := [x], wantRet := true } s fun v t => store a1 v 11 t

/-- EXT_FUN_RET_DAT_2 (R206): `a1` is the output slot, `a2` and `a3` the arguments. -/
def execExtFunRetDat2 (fn : FunId) (a1 a2 a3 : DataAddr) (s : State) : Result :=
  withSlot a1 s fun _ => withSlot a2 s fun x => withSlot a3 s fun y =>
    extCall { id := fn, args := [x, y], wantRet := true } s fun v t => store a1 v 15 t

end Sys2Proof.Machine
end

