-- ==== Sys2Proof/Machine/Stack.lean ====
section
/-!
DEFINITION. The meanings of PSH_DAT and POP_DAT (43_stack R170, R171).
-/

namespace Sys2Proof.Machine

/-- PSH_DAT (R170): capacity first, then the slot is read and pushed. -/
def execPshDat (a1 : DataAddr) (s : State) : Result :=
  withUserRoom s (withSlot a1 s fun v => .next ((s.pushUser v).advance 5))

/-- POP_DAT (R171): the stack slot that was read keeps its bytes. -/
def execPopDat (a1 : DataAddr) (s : State) : Result :=
  withUserEntry s (withSlot a1 s fun _ => store a1 s.topUser 5 s.dropUser)

end Sys2Proof.Machine
end

