-- ==== Sys2Proof/Machine/System.lean ====
section
/-!
DEFINITION. The meanings of SLP_DAT, FIZ_DAT, STZ_DAT, FIN_IMD, STP_IMD and SET_PCS (45_system R190 to R196).
-/

namespace Sys2Proof.Machine

/-- SLP_DAT (R190): the whole slot is stored; no flag is set. -/
def execSlpDat (a1 : DataAddr) (s : State) : Result :=
  withSlot a1 s fun v => .next ({ s with sleepUntil := v }.advance 5)

/-- FIZ_DAT (R192). -/
def execFizDat (a1 : DataAddr) (s : State) : Result :=
  withSlot a1 s fun x => if x.toInt = 0 then .next s.terminate else .next (s.advance 5)

/-- STZ_DAT (R193). -/
def execStzDat (a1 : DataAddr) (s : State) : Result :=
  withSlot a1 s fun x => if x.toInt = 0 then .next (s.stop 5) else .next (s.advance 5)

/-- FIN_IMD (R194). -/
def execFinImd (s : State) : Result :=
  .next s.terminate

/-- STP_IMD (R195). -/
def execStpImd (s : State) : Result :=
  .next (s.stop 1)

/-- SET_PCS (R196). -/
def execSetPcs (s : State) : Result :=
  .next ({ s with pcs := s.pc + 1#32 }.advance 1)

end Sys2Proof.Machine
end

