-- ==== Sys2Proof/Machine/Dispatch.lean ====
section
/-!
DEFINITION. `exec`: one arm per instruction, each a direct call of its meaning (40_engine R115, R133).
-/

namespace Sys2Proof.Machine

def exec (i : Instr) (s : State) : Host.Outcome State Fault Refusal :=
  match i with
  | .nop k => Sys2Proof.Machine.execNop k s
  | .setVal a1 v => Sys2Proof.Machine.execSetVal a1 v s
  | .setDat a1 a2 => Sys2Proof.Machine.execSetDat a1 a2 s
  | .clrDat a1 => Sys2Proof.Machine.execClrDat a1 s
  | .incDat a1 => Sys2Proof.Machine.execIncDat a1 s
  | .decDat a1 => Sys2Proof.Machine.execDecDat a1 s
  | .addDat a1 a2 => Sys2Proof.Machine.execAddDat a1 a2 s
  | .subDat a1 a2 => Sys2Proof.Machine.execSubDat a1 a2 s
  | .mulDat a1 a2 => Sys2Proof.Machine.execMulDat a1 a2 s
  | .divDat a1 a2 => Sys2Proof.Machine.execDivDat a1 a2 s
  | .borDat a1 a2 => Sys2Proof.Machine.execBorDat a1 a2 s
  | .andDat a1 a2 => Sys2Proof.Machine.execAndDat a1 a2 s
  | .xorDat a1 a2 => Sys2Proof.Machine.execXorDat a1 a2 s
  | .notDat a1 => Sys2Proof.Machine.execNotDat a1 s
  | .setInd a1 a2 => Sys2Proof.Machine.execSetInd a1 a2 s
  | .setIdx a1 a2 a3 => Sys2Proof.Machine.execSetIdx a1 a2 a3 s
  | .pshDat a1 => Sys2Proof.Machine.execPshDat a1 s
  | .popDat a1 => Sys2Proof.Machine.execPopDat a1 s
  | .jmpSub c => Sys2Proof.Machine.execJmpSub c s
  | .retSub => Sys2Proof.Machine.execRetSub s
  | .jmpAdr c => Sys2Proof.Machine.execJmpAdr c s
  | .bzrDat a1 off => Sys2Proof.Machine.execBzrDat a1 off s
  | .bnzDat a1 off => Sys2Proof.Machine.execBnzDat a1 off s
  | .bgtDat a1 a2 off => Sys2Proof.Machine.execBgtDat a1 a2 off s
  | .bltDat a1 a2 off => Sys2Proof.Machine.execBltDat a1 a2 off s
  | .bgeDat a1 a2 off => Sys2Proof.Machine.execBgeDat a1 a2 off s
  | .bleDat a1 a2 off => Sys2Proof.Machine.execBleDat a1 a2 off s
  | .beqDat a1 a2 off => Sys2Proof.Machine.execBeqDat a1 a2 off s
  | .bneDat a1 a2 off => Sys2Proof.Machine.execBneDat a1 a2 off s
  | .slpDat a1 => Sys2Proof.Machine.execSlpDat a1 s
  | .fizDat a1 => Sys2Proof.Machine.execFizDat a1 s
  | .stzDat a1 => Sys2Proof.Machine.execStzDat a1 s
  | .finImd => Sys2Proof.Machine.execFinImd s
  | .stpImd => Sys2Proof.Machine.execStpImd s
  | .setPcs => Sys2Proof.Machine.execSetPcs s
  | .extFun fn => Sys2Proof.Machine.execExtFun fn s
  | .extFunDat fn a1 => Sys2Proof.Machine.execExtFunDat fn a1 s
  | .extFunDat2 fn a1 a2 => Sys2Proof.Machine.execExtFunDat2 fn a1 a2 s
  | .extFunRet fn a1 => Sys2Proof.Machine.execExtFunRet fn a1 s
  | .extFunRetDat fn a1 a2 => Sys2Proof.Machine.execExtFunRetDat fn a1 a2 s
  | .extFunRetDat2 fn a1 a2 a3 => Sys2Proof.Machine.execExtFunRetDat2 fn a1 a2 a3 s

end Sys2Proof.Machine
end

