-- ==== Sys2Proof/Machine/Validator.lean ====
section
/-!
DEFINITION. The jump validator (40_engine R128 to R131): the linear listing of the code region, which the disassembly loop
shares (R127), the sweep that records the legal targets, and the offset where the sweep stops (R132).
-/

namespace Sys2Proof.Machine

/-- The instructions read one after another from an offset on, each with its offset and length, until the decoder answers
anything but an instruction; `fuel` bounds how many (40_engine R127, R128). -/
def listing (cfg : Configuration) (code : Memory) : Nat → Nat → List (Nat × Instr × Nat)
  | 0, _ => []
  | fuel + 1, c =>
    match decode cfg code c with
    | .ok i len => (c, i, len) :: listing cfg code fuel (c + len)
    | .noInstr => []
    | .err _ => []

/-- The offset where that listing stops. -/
def listingEnd (cfg : Configuration) (code : Memory) : Nat → Nat → Nat
  | 0, c => c
  | fuel + 1, c =>
    match decode cfg code c with
    | .ok _ len => listingEnd cfg code fuel (c + len)
    | .noInstr => c
    | .err _ => c

/-- The legal targets one listed instruction gives: its start, or every byte of a no-op run under `EVERY_BYTE`
(40_engine R128). -/
def targetsOf (cfg : Configuration) (row : Nat × Instr × Nat) : List Nat :=
  if row.2.1.opcode = .nop ∧ cfg.nopRunTargets = .everyByte then List.range' row.1 row.2.2 else [row.1]

/-- `Sweep()` of 40_engine R128, from offset 0. Each instruction is at least one byte long, so `CODE_SIZE` bounds the
number of passes. -/
def sweep (cfg : Configuration) (code : Memory) : List Nat :=
  (listing cfg code cfg.codeSize 0).flatMap (targetsOf cfg)

/-- The offset where the sweep stops (40_engine R132). -/
def sweepEnd (cfg : Configuration) (code : Memory) : Nat :=
  listingEnd cfg code cfg.codeSize 0

/-- The reset command (70_reset_and_hazards R241): the registers, the data buffer and `legalTargets`. The configuration,
the code region and the host's side of the external-call port are left as they are. -/
def State.resetCommand (s : State) : State :=
  { s with
    pc := 0#32
    pcs := 0#32
    cs := 0#32
    us := 0#32
    steps := 0
    flags := 0#5
    sleepUntil := 0#64
    data := []
    legalTargets := sweep s.cfg s.code }

/-- A code region that holds the given bytes from offset 0 on. -/
def codeOf (bytes : List Byte) : Memory :=
  Memory.writeBytes [] 0 bytes

/-- The construct command (70_reset_and_hazards R240): the configuration and the code region are the given ones; every
other piece of state is unspecified, so it is whatever `unspecified` holds, a state the spec does not constrain. -/
def State.construct (unspecified : State) (bytes : List Byte) (cfg : Configuration) : State :=
  { unspecified with cfg := cfg, code := codeOf bytes }

/-- The instruction at `pc` (40_engine R115). -/
def fetch (s : State) : Decoded :=
  decode s.cfg s.code s.pc.toNat

/-- A state whose next instruction is the one whose bytes are given: they stand at `pc` in the code region, which is made
long enough, and `legalTargets` is the sweep of that region, as a load of a program leaves it (70 R245); log entry 4. -/
def State.load (s : State) (bytes : List Byte) : State :=
  let cfg := { s.cfg with codeSize := max s.cfg.codeSize (s.pc.toNat + bytes.length) }
  let code := s.code.writeBytes s.pc.toNat bytes
  { s with cfg := cfg, code := code, legalTargets := sweep cfg code }

end Sys2Proof.Machine
end

