-- ==== Sys2Proof/Machine/Step.lean ====
section
/-!
DEFINITION. One execute step, `step(false)` (40_engine R115): decode at `pc`, run the instruction's meaning, and count a
success in `steps`.
-/

namespace Sys2Proof.Machine

/-- One execute step. NONE leaves the state as it is; a decode error leaves it as it is and ends the step with INVALID. -/
def step (s : State) : Host.Outcome State Fault Refusal :=
  match fetch s with
  | .noInstr => .next s
  | .err cause => raiseInvalid cause s
  | .ok i _ =>
    match exec i s with
    | .next t => .next t.retire
    | .fault f => .fault f
    | .refused r => .refused r

/-- `s` with the instruction whose bits are `w` stored where `step` fetches, all bits above `nbits` zero. -/
def State.withFetchWord (s : State) (nbits w : Nat) : State :=
  s.load (tableBytes nbits w)

end Sys2Proof.Machine
end

