-- ==== Sys2Proof/WellFormed.lean ====
section
/-!
DEFINITION. What a well-formed instruction is: an instruction that the decoder could have read at a code offset
(30_encoding R101), and what a well-formed opcode map is (30_encoding R97, R98).
-/

namespace Sys2Proof

/-- Every opcode, in the order of 30_encoding R97. -/
def Opcode.all : List Opcode :=
  opcodeTable.map Prod.snd

/-- A map gives every opcode one byte, and no two rows share a byte (30_encoding R98) or an opcode. -/
abbrev OpcodeMap.wf (map : OpcodeMap) : Prop :=
  (map.map Prod.fst).Nodup ∧ (map.map Prod.snd).Nodup ∧ ∀ op ∈ Opcode.all, op ∈ map.map Prod.snd

/-- `i` is well formed at the code offset `cursor`: a no-op run has at least one byte (R100), the instruction ends inside
the code region (R103), and its data addresses (R105) and code targets (R106) pass their checks. -/
abbrev Instr.WellFormed (cfg : Configuration) (cursor : Nat) (i : Instr) : Prop :=
  1 ≤ i.length ∧ cursor + i.length ≤ cfg.codeSize ∧
  i.dataOk cfg = true ∧ i.codeOk cfg cursor = true

/-- A configuration the construct command may set: each size within its bound (00_scope R7), and a well-formed opcode
map. -/
abbrev Configuration.wf (cfg : Configuration) : Prop :=
  cfg.codeSize ≤ Config.maxSize ∧ cfg.dataSize ≤ Config.maxSize ∧ cfg.csSize ≤ Config.maxSize ∧
  cfg.usSize ≤ Config.maxSize ∧ cfg.opcodeMap.wf

end Sys2Proof
end

