-- ==== Sys2Proof/Machine/HostPorts.lean ====
section
/-!
DEFINITION. The host's ports as transactions (10_state R40 to R46, 70_reset_and_hazards R248): the step result, decode-only
mode, the status reads, the flag port, the boot order, and the snapshot of an instance (10_state R33).
-/

namespace Sys2Proof.Machine

/-- `StepResult` (40_engine R119). -/
inductive StepResult where
  /-- NONE: no instruction. -/
  | noInstr
  /-- OK(len): success, `len` code bytes. -/
  | ok (len : Nat)
  /-- OVERFLOW(cause). -/
  | overflow (cause : Cause)
  /-- INVALID(cause). -/
  | invalid (cause : Cause)
  deriving DecidableEq, Repr

/-- The numeric code of a step result (40_engine R119). -/
def StepResult.code : StepResult → Int
  | .noInstr => 0
  | .ok len => len
  | .overflow _ => -1
  | .invalid _ => -2

/-- `step(false)` as the command port answers it (10_state R40): the result, and the state the step leaves, a failed step
included (40_engine R116). -/
def executeStep (s : State) : Except Refusal (StepResult × State) :=
  match fetch s with
  | .noInstr => .ok (.noInstr, s)
  | .err cause => .ok (.invalid cause, s)
  | .ok i len =>
    match exec i s with
    | .next t => .ok (.ok len, t.retire)
    | .fault (.overflow cause t) => .ok (.overflow cause, t)
    | .fault (.invalid cause t) => .ok (.invalid cause, t)
    | .refused r => .error r

/-- `decodeAt(c)` (40_engine R125): the decode checks alone; it has no state to write. -/
def decodeAt (s : State) (cursor : Nat) : StepResult × Option Instr :=
  match decode s.cfg s.code cursor with
  | .noInstr => (.noInstr, none)
  | .err cause => (.invalid cause, none)
  | .ok i len => (.ok len, some i)

/-- What `dumpState()` gives (10_state R41), its text format left out (00_scope R6). -/
structure StateDump where
  pc : Reg
  pcs : Reg
  cs : Reg
  us : Reg
  steps : BitVec Config.stepsWidth
  flags : FlagBits
  sleepUntil : Slot
  deriving DecidableEq, Repr

/-- `dumpState()` (10_state R41). -/
def State.dumpState (s : State) : StateDump where
  pc := s.pc
  pcs := s.pcs
  cs := s.cs
  us := s.us
  steps := s.steps
  flags := s.flags
  sleepUntil := s.sleepUntil

/-- `dumpBytes` of the code region (10_state R41). -/
def State.dumpCode (s : State) : List Byte :=
  s.code.readBytes 0 s.cfg.codeSize

/-- `dumpBytes` of the data buffer (10_state R41). -/
def State.dumpData (s : State) : List Byte :=
  s.data.readBytes 0 s.cfg.totalSize

/-- Where the host's protocol stands (70_reset_and_hazards R244, R247). -/
inductive Phase where
  /-- Constructed, and not yet reset: the registers are unspecified. -/
  | constructed
  /-- Reset, and neither stepped nor decoded since. -/
  | fresh
  /-- At least one execute step since the reset. -/
  | executing
  /-- At least one decode-only step since the reset. -/
  | decoding
  deriving DecidableEq, Repr

/-- An instance and the phase of the host that drives it. The phase is the host's, no state of the core. -/
structure Session where
  core : State
  phase : Phase
  deriving DecidableEq, Repr

/-- The host's moves (70_reset_and_hazards R248). -/
inductive Command where
  /-- `construct`; `unspecified` is what the spec does not fix of the new instance (R240). -/
  | construct (unspecified : State) (bytes : List Byte) (cfg : Configuration)
  | reset
  | step (disassemble : Bool)
  | decodeAt (cursor : Nat)
  | isStopped
  | isTerminated
  | isPaused
  | dumpState
  | dumpCode
  | dumpData
  /-- A write of the host flag port. -/
  | writeFlags (w : HostFlags)
  /-- The host settles its answer to an external call still to come (46_external R200). -/
  | answer (r : ExtResponse)
  deriving DecidableEq, Repr

/-- What the host gets back (70_reset_and_hazards R248). -/
inductive Reply where
  | nothing
  | stepped (r : StepResult)
  | decoded (r : StepResult) (i : Option Instr)
  | flag (b : Bool)
  | registers (d : StateDump)
  | bytes (bs : List Byte)
  deriving DecidableEq, Repr

/-- May the host step in this phase (R244, R247)? -/
def Phase.mayStep : Phase → Except Refusal Unit
  | .constructed => .error .stepBeforeReset
  | .fresh => .ok ()
  | .executing => .ok ()
  | .decoding => .error .modesInterleaved

/-- May the host decode in this phase (R244, R247)? -/
def Phase.mayDecode : Phase → Except Refusal Unit
  | .constructed => .error .stepBeforeReset
  | .fresh => .ok ()
  | .executing => .error .modesInterleaved
  | .decoding => .ok ()

/-- A decode-only transaction at a cursor (40_engine R125). -/
def decodeMove (h : Session) (cursor : Nat) : Except Refusal (Session × Reply) :=
  match h.phase.mayDecode with
  | .error r => .error r
  | .ok _ => .ok ({ h with phase := .decoding }, .decoded (decodeAt h.core cursor).1 (decodeAt h.core cursor).2)

/-- An execute transaction (40_engine R115). -/
def executeMove (h : Session) : Except Refusal (Session × Reply) :=
  match h.phase.mayStep with
  | .error r => .error r
  | .ok _ =>
    match executeStep h.core with
    | .error r => .error r
    | .ok (res, t) => .ok ({ core := t, phase := .executing }, .stepped res)

/-- One host transaction (70_reset_and_hazards R248). A step error is a reply, not a stop (60_exceptions R210, R217); what
the host may not do is refused. -/
def hostMove (h : Session) (c : Command) : Except Refusal (Session × Reply) :=
  match c with
  | .construct unspecified bytes cfg =>
    if cfg.wf ∧ bytes.length = cfg.codeSize then
      .ok ({ core := { unspecified.construct bytes cfg with ext := h.core.ext }, phase := .constructed }, .nothing)
    else .error .constructIllegal
  | .reset => .ok ({ core := h.core.resetCommand, phase := .fresh }, .nothing)
  | .step true => decodeMove h h.core.pc.toNat
  | .step false => executeMove h
  | .decodeAt cursor => decodeMove h cursor
  | .isStopped => .ok (h, .flag h.core.isStopped)
  | .isTerminated => .ok (h, .flag h.core.isTerminated)
  | .isPaused => .ok (h, .flag h.core.isPaused)
  | .dumpState => .ok (h, .registers h.core.dumpState)
  | .dumpCode => .ok (h, .bytes h.core.dumpCode)
  | .dumpData => .ok (h, .bytes h.core.dumpData)
  | .writeFlags w => .ok ({ h with core := h.core.writeHostFlags w }, .nothing)
  | .answer r =>
    .ok ({ h with core := { h.core with ext := { h.core.ext with answers := h.core.ext.answers ++ [r] } } }, .nothing)

/-- The state a snapshot holds (10_state R33): everything of the core but `legalTargets`. -/
structure Snapshot where
  registers : StateDump
  cfg : Configuration
  code : Memory
  data : Memory
  deriving DecidableEq, Repr

/-- Save an instance (10_state R33). -/
def State.save (s : State) : Snapshot where
  registers := s.dumpState
  cfg := s.cfg
  code := s.code
  data := s.data

/-- Restore an instance, deriving `legalTargets` again by the sweep (10_state R33); the external-call port is the host's. -/
def Snapshot.restore (p : Snapshot) (ext : ExtPort) : State where
  pc := p.registers.pc
  pcs := p.registers.pcs
  cs := p.registers.cs
  us := p.registers.us
  steps := p.registers.steps
  flags := p.registers.flags
  sleepUntil := p.registers.sleepUntil
  legalTargets := sweep p.cfg p.code
  cfg := p.cfg
  code := p.code
  data := p.data
  ext := ext

end Sys2Proof.Machine
end

