-- ==== Sys2Proof/Safety.lean ====
section
/-!
DEFINITION. What claims use: the invariants of 10_state R38 and 40_engine R132, what an instruction may write, and the end
of a run (60_exceptions R238).
-/

namespace Sys2Proof.Machine

/-- The invariants of 10_state R38, with the bounds of 00_scope R7, `legalTargets` as the sweep leaves it (R30), and both
memories in canonical form and inside their regions (20_memory R61, R62). -/
structure State.Inv (s : State) : Prop where
  codeBound : s.cfg.codeSize ≤ Config.maxSize
  dataBound : s.cfg.dataSize ≤ Config.maxSize
  csBound : s.cfg.csSize ≤ Config.maxSize
  usBound : s.cfg.usSize ≤ Config.maxSize
  pcInCode : s.pc.toNat ≤ s.cfg.codeSize
  pcsInCode : s.pcs.toNat ≤ s.cfg.codeSize
  callDepth : s.cs.toNat ≤ s.cfg.csCap
  userDepth : s.us.toNat ≤ s.cfg.usCap
  targets : s.legalTargets = sweep s.cfg s.code
  codeWf : s.code.wf
  dataWf : s.data.wf
  codeInside : ∀ c ∈ s.code, c.1 < s.cfg.codeSize
  dataInside : ∀ c ∈ s.data, c.1 < s.cfg.totalSize

/-- A code offset where the sweep saw an instruction boundary: a legal target, or the offset where the sweep stopped
(40_engine R132). -/
def State.AtBoundary (s : State) (p : Nat) : Prop :=
  p ∈ s.legalTargets ∨ p = sweepEnd s.cfg s.code

/-- 40_engine R132, with the restart point: `pc` and `pcs` are at boundaries of the sweep of the code region. -/
structure State.Placed (s : State) : Prop where
  targets : s.legalTargets = sweep s.cfg s.code
  codeBound : s.cfg.codeSize ≤ Config.maxSize
  pcPlaced : s.AtBoundary s.pc.toNat
  pcsPlaced : s.AtBoundary s.pcs.toNat

/-- What no instruction writes: the configuration, the code region and `legalTargets` (20_memory R76, 10_state R38). -/
def SameProgram (s t : State) : Prop :=
  t.cfg = s.cfg ∧ t.code = s.code ∧ t.legalTargets = s.legalTargets

/-- Every register but `pc`, every flag, and the external-call port are as before. -/
def SameRegisters (s t : State) : Prop :=
  t.pcs = s.pcs ∧ t.cs = s.cs ∧ t.us = s.us ∧ t.steps = s.steps ∧ t.flags = s.flags ∧ t.sleepUntil = s.sleepUntil ∧
  t.ext = s.ext

/-- Every byte outside the 8 bytes at `off` reads as before. -/
def SameOutside (s t : State) (off : Nat) : Prop :=
  ∀ b, b < off ∨ off + 8 ≤ b → t.data.read b = s.data.read b

/-- `t` is `s` with slot `a` holding `v`, moved `len` bytes on, and nothing else changed. -/
structure Stored (s t : State) (a : DataAddr) (v : Slot) (len : Nat) : Prop where
  value : t.slot a.toInt = v
  pc : t.pc = s.pc + BitVec.ofNat 32 len
  outside : SameOutside s t (slotOff a.toInt)
  registers : SameRegisters s t
  program : SameProgram s t

/-- `i` completes from `s` by storing `v` in slot `a` and moving `len` bytes on. -/
def Stores (i : Instr) (s : State) (a : DataAddr) (v : Slot) (len : Nat) : Prop :=
  ∃ t, exec i s = .next t ∧ Stored s t a v len

/-- `t` is `s` with another `pc`, and nothing else changed. -/
structure Moved (s t : State) (pc : Reg) : Prop where
  pc : t.pc = pc
  data : t.data = s.data
  registers : SameRegisters s t
  program : SameProgram s t

/-- `i` completes from `s` by moving to `pc`. -/
def Moves (i : Instr) (s : State) (pc : Reg) : Prop :=
  ∃ t, exec i s = .next t ∧ Moved s t pc

/-- `i` ends the step from `s` with INVALID and a cause, and leaves `s` as it is. -/
def FailsInvalid (i : Instr) (s : State) (c : Cause) : Prop :=
  exec i s = .fault (.invalid c s)

/-- `i` ends the step from `s` with OVERFLOW and a cause, and leaves `s` as it is. -/
def FailsOverflow (i : Instr) (s : State) (c : Cause) : Prop :=
  exec i s = .fault (.overflow c s)

/-- The branch rule of 44_control R179 for an instruction of length `len` that branches by `off` when `cond` holds: taken
to a legal target, taken to an illegal one, and not taken. -/
def Branches (i : Instr) (s : State) (cond : Prop) (off : Offset) (len : Nat) : Prop :=
  (cond → s.IsTarget (s.pc.toNat + off.toInt) → Moves i s (BitVec.ofInt 32 (s.pc.toNat + off.toInt))) ∧
  (cond → ¬ s.IsTarget (s.pc.toNat + off.toInt) → FailsInvalid i s .unresolvedJump) ∧
  (¬ cond → Moves i s (s.pc + BitVec.ofNat 32 len))

/-- What serving the request `req` from `s` leaves in `t`: the request sent, the host's answer used up, the host's context
moved and its flag write made; `stopped` and `terminated`, the other registers and the program as before (46_external
R200). -/
structure Served (s t : State) (req : ExtRequest) : Prop where
  sent : t.ext.sent = req :: s.ext.sent
  answers : t.ext.answers = s.ext.answers.tail
  context : t.ext.context = (s.extAnswer req).context
  noWrite : (s.extAnswer req).flagWrite = none → t.flags = s.flags
  write : ∀ w, (s.extAnswer req).flagWrite = some w →
    t.isPaused = w.paused ∧ flagAt t.flags aZeroBit = w.aZero ∧ flagAt t.flags bZeroBit = w.bZero
  stopped : t.isStopped = s.isStopped
  terminated : t.isTerminated = s.isTerminated
  registers : t.pcs = s.pcs ∧ t.cs = s.cs ∧ t.us = s.us ∧ t.steps = s.steps ∧ t.sleepUntil = s.sleepUntil
  program : SameProgram s t

/-- `i` completes from `s` as a call with no return value: `req` is served and accepted, no byte of memory changes, and
`pc` moves `len` bytes on. -/
def Calls (i : Instr) (s : State) (req : ExtRequest) (len : Nat) : Prop :=
  ∃ t, exec i s = .next t ∧ Served s t req ∧ t.data = s.data ∧ t.pc = s.pc + BitVec.ofNat 32 len

/-- `i` completes from `s` as a call with a return value: `req` is served and accepted, the value is stored in slot `a`
and in no other byte, and `pc` moves `len` bytes on. -/
def CallsInto (i : Instr) (s : State) (req : ExtRequest) (a : DataAddr) (len : Nat) : Prop :=
  ∃ t, exec i s = .next t ∧ Served s t req ∧ t.slot a.toInt = (s.extAnswer req).value ∧
    SameOutside s t (slotOff a.toInt) ∧ t.pc = s.pc + BitVec.ofNat 32 len

/-- `i` ends the step from `s` with INVALID(ExtCallRejected): `req` is served and refused, and neither `pc` nor a byte of
memory changes. -/
def CallRejected (i : Instr) (s : State) (req : ExtRequest) : Prop :=
  ∃ t, exec i s = .fault (.invalid .extCallRejected t) ∧ Served s t req ∧ t.data = s.data ∧ t.pc = s.pc

end Sys2Proof.Machine

namespace Sys2Proof

open Machine (State)

/-- The data slot an instruction stores its result in (30_encoding R96): the destination `A1`, for those that have one. -/
def Instr.storesTo : Instr → Option DataAddr
  | .setVal a _ | .setDat a _ | .clrDat a | .incDat a | .decDat a | .addDat a _ | .subDat a _ | .mulDat a _
  | .divDat a _ | .borDat a _ | .andDat a _ | .xorDat a _ | .notDat a | .setInd a _ | .setIdx a _ _ | .popDat a
  | .extFunRet _ a | .extFunRetDat _ a _ | .extFunRetDat2 _ a _ _ => some a
  | .nop _ | .pshDat _ | .jmpSub _ | .retSub | .jmpAdr _ | .bzrDat _ _ | .bnzDat _ _ | .bgtDat _ _ _ | .bltDat _ _ _
  | .bgeDat _ _ _ | .bleDat _ _ _ | .beqDat _ _ _ | .bneDat _ _ _ | .slpDat _ | .fizDat _ | .stzDat _ | .finImd
  | .stpImd | .setPcs | .extFun _ | .extFunDat _ _ | .extFunDat2 _ _ _ => none

/-- Is it one of the six external calls (46_external)? -/
def Instr.isExternal (i : Instr) : Bool :=
  i.opcode ∈ [.extFun, .extFunDat, .extFunDat2, .extFunRet, .extFunRetDat, .extFunRetDat2]

/-- The condition and the offset of a conditional branch, on signed 64-bit values (44_control R180 to R187); none for any
other instruction. -/
def Instr.branch (i : Instr) (s : State) : Option (Bool × Offset) :=
  match i with
  | .bzrDat a off => some (decide ((s.slot a.toInt).toInt = 0), off)
  | .bnzDat a off => some (decide ((s.slot a.toInt).toInt ≠ 0), off)
  | .bgtDat a b off => some (decide ((s.slot a.toInt).toInt > (s.slot b.toInt).toInt), off)
  | .bltDat a b off => some (decide ((s.slot a.toInt).toInt < (s.slot b.toInt).toInt), off)
  | .bgeDat a b off => some (decide ((s.slot a.toInt).toInt ≥ (s.slot b.toInt).toInt), off)
  | .bleDat a b off => some (decide ((s.slot a.toInt).toInt ≤ (s.slot b.toInt).toInt), off)
  | .beqDat a b off => some (decide ((s.slot a.toInt).toInt = (s.slot b.toInt).toInt), off)
  | .bneDat a b off => some (decide ((s.slot a.toInt).toInt ≠ (s.slot b.toInt).toInt), off)
  | .nop _ | .setVal _ _ | .setDat _ _ | .clrDat _ | .incDat _ | .decDat _ | .addDat _ _ | .subDat _ _ | .mulDat _ _
  | .divDat _ _ | .borDat _ _ | .andDat _ _ | .xorDat _ _ | .notDat _ | .setInd _ _ | .setIdx _ _ _ | .pshDat _
  | .popDat _ | .jmpSub _ | .retSub | .jmpAdr _ | .slpDat _ | .fizDat _ | .stzDat _ | .finImd | .stpImd | .setPcs
  | .extFun _ | .extFunDat _ _ | .extFunDat2 _ _ _ | .extFunRet _ _ | .extFunRetDat _ _ _
  | .extFunRetDat2 _ _ _ _ => none

/-- The condition of a conditional branch; none for any other instruction. -/
def Instr.condition (i : Instr) (s : State) : Option Bool :=
  (i.branch s).map Prod.fst

/-- The destination of an unconditional transfer: a jump, a call or a return (44_control R175, R176, R178). -/
def Instr.jumpsTo (i : Instr) (s : State) : Option Int :=
  match i with
  | .jmpSub c => some c.toInt
  | .jmpAdr c => some c.toInt
  | .retSub => some s.topCall.toInt
  | _ => none

/-- The destination of the control transfer an instruction makes from `s` (40_engine R121): none for a branch that is not
taken, and for an instruction that makes no transfer (terminate is none, R122). -/
def Instr.transferTo (i : Instr) (s : State) : Option Int :=
  match i.branch s with
  | some (true, off) => some (s.pc.toNat + off.toInt)
  | some (false, _) => none
  | none => i.jumpsTo s

/-- The `pc` after success (40_engine R117), in exact arithmetic. -/
def Instr.pcAfter (i : Instr) (len : Nat) (s : State) : Int :=
  match i.transferTo s with
  | some t => t
  | none =>
    match i with
    | .finImd => s.pcs.toNat
    | .fizDat a => if (s.slot a.toInt).toInt = 0 then s.pcs.toNat else s.pc.toNat + len
    | _ => s.pc.toNat + len

end Sys2Proof

namespace Sys2Proof.Machine

/-- The byte values that stand for no instruction at the default opcode map (30_encoding R99). -/
def unassignedByte (n : Nat) : Bool :=
  n == 0x00 || (0x14 ≤ n && n ≤ 0x19) || n == 0x1c || n == 0x1d || (0x2a ≤ n && n ≤ 0x2f) || n == 0x31 ||
  (0x38 ≤ n && n ≤ 0x7e) || (0x80 ≤ n && n ≤ 0xff)

/-- What the decoder reads at offset 0 of a code region that holds the given bytes and no other, under the sizes and
parameters of `State.reset`. -/
def decodeBytes (bytes : List Byte) : Decoded :=
  decode { resetConfiguration with codeSize := bytes.length } (codeOf bytes) 0

/-- Two answers agree up to `norm`: the same outcome, with the same cause, and states that `norm` makes equal. -/
def AgreeUpTo (norm : State → State) : Result → Result → Prop
  | .next t, .next t' => norm t = norm t'
  | .fault (.overflow c t), .fault (.overflow c' t') => c = c' ∧ norm t = norm t'
  | .fault (.invalid c t), .fault (.invalid c' t') => c = c' ∧ norm t = norm t'
  | .refused r, .refused r' => r = r'
  | _, _ => False

/-- Forget the flags. -/
def State.forgetFlags (s : State) : State :=
  { s with flags := 0#5 }

/-- Forget the sleep threshold. -/
def State.forgetSleep (s : State) : State :=
  { s with sleepUntil := 0#64 }

/-- Does a flag that ends a run become set between two states (60_exceptions R238)? -/
def haltsBetween (s t : State) : Bool :=
  (t.isStopped && !s.isStopped) || (t.isTerminated && !s.isTerminated) || (t.isPaused && !s.isPaused)

/-- Does the step from `s` end the run (60_exceptions R238)? -/
def endsRun (s : State) : Bool :=
  match executeStep s with
  | .ok (.noInstr, _) => true
  | .ok (.overflow _, _) => true
  | .ok (.invalid _, _) => true
  | .ok (.ok _, t) => haltsBetween s t
  | .error _ => true

/-- A run of at most `n` execute steps, as 60_exceptions R238 defines it: the results, oldest first, and the state at its
end. -/
def run : Nat → State → Except Refusal (List StepResult × State)
  | 0, s => .ok ([], s)
  | n + 1, s =>
    match executeStep s with
    | .error r => .error r
    | .ok (res, t) =>
      if endsRun s then .ok ([res], t)
      else
        match run n t with
        | .error r => .error r
        | .ok (rs, u) => .ok (res :: rs, u)

end Sys2Proof.Machine
end

