-- ==== Sys2Proof/Certificates/Slice0/Obligations.lean ====
section
/-!
DEFINITION. The statements for the provers, from the numbered rules of the spec.
-/

open Sys2Proof Sys2Proof.Machine

/-- O1. The bytes of fifteen of the spec's examples, among them one for each family and each operand format, decode to
the instruction they stand for, with its length. The byte values other than 0x01 and 0x28 are the spec's own default
map (D3), and the byte order is its decision D2. -/
def Obligations.SpecWordsDecode : Prop :=
  decodeBytes [0x01, 0, 0, 0, 0, 5, 0, 0, 0, 0, 0, 0, 0] = .ok (.setVal 0 5) 13 ∧
  decodeBytes [0x02, 1, 0, 0, 0, 2, 0, 0, 0] = .ok (.setDat 1 2) 9 ∧
  decodeBytes [0x0f, 0, 0, 0, 0, 1, 0, 0, 0, 2, 0, 0, 0] = .ok (.setIdx 0 1 2) 13 ∧
  decodeBytes [0x07, 0, 0, 0, 0, 1, 0, 0, 0] = .ok (.subDat 0 1) 9 ∧
  decodeBytes [0x11, 1, 0, 0, 0] = .ok (.popDat 1) 5 ∧
  decodeBytes [0x12, 6, 0, 0, 0, 0x28, 0x13] = .ok (.jmpSub 6) 5 ∧
  decodeBytes [0x1b, 0, 0, 0, 0, 7, 0x28, 0x28] = .ok (.bzrDat 0 7) 6 ∧
  decodeBytes [0x1f, 0, 0, 0, 0, 1, 0, 0, 0, 0x14, 0x7f, 0x7f, 0x7f, 0x7f, 0x7f, 0x7f, 0x7f, 0x7f, 0x7f, 0x7f, 0x28] =
    .ok (.bgtDat 0 1 20) 10 ∧
  decodeBytes [0x25, 0, 0, 0, 0] = .ok (.slpDat 0) 5 ∧
  decodeBytes [0x28] = .ok .finImd 1 ∧
  decodeBytes [0x32, 1, 1] = .ok (.extFun 0x0101) 3 ∧
  decodeBytes [0x33, 7, 0, 2, 0, 0, 0] = .ok (.extFunDat 7 2) 7 ∧
  decodeBytes [0x37, 9, 0, 0, 0, 0, 0, 1, 0, 0, 0, 2, 0, 0, 0] = .ok (.extFunRetDat2 9 0 1 2) 15 ∧
  decodeBytes [0x36, 2, 1, 3, 0, 0, 0, 4, 0, 0, 0] = .ok (.extFunRetDat 0x0102 3 4) 11 ∧
  decodeBytes [0x7f, 0x7f, 0x7f, 0x28] = .ok (.nop 3) 3

/-- O2. For every well-formed opcode map, every instruction well formed at a code offset, with every operand at every
value the encoding admits: where the code region holds its encoding there (and, for a no-op run, the run ends
there), the decoder answers that instruction and its length. The map, the byte order, the field widths and the field
order are the spec's own decisions (D2 to D5). -/
def Obligations.DecodeOfEncodedInstr : Prop :=
  ∀ (cfg : Configuration) (code : Memory) (cursor : Nat) (i : Instr),
    cfg.opcodeMap.wf → i.WellFormed cfg cursor →
    code.readBytes cursor i.length = encode cfg.opcodeMap i →
    (i.opcode = .nop → cursor + i.length = cfg.codeSize ∨
      code.read (cursor + i.length) ≠ cfg.opcodeMap.byteOf .nop) →
    decode cfg code cursor = .ok i i.length

/-- O3. For every well-formed opcode map: when the decoder answers an instruction and a length, the length is the
instruction's, the instruction is well formed at that offset (it ends inside the code region and its data addresses,
code address and branch target pass their checks), and its encoding is exactly the bytes at that offset. That the
target of a branch is checked, taken or not, is the spec's own decision (D6, at R106; log entry 17), as are the byte
order and the fields (D2 to D5). -/
def Obligations.EncodeOfDecodedInstr : Prop :=
  ∀ (cfg : Configuration) (code : Memory) (cursor : Nat) (i : Instr) (len : Nat),
    cfg.opcodeMap.wf → decode cfg code cursor = .ok i len →
    len = i.length ∧ i.WellFormed cfg cursor ∧ code.readBytes cursor len = encode cfg.opcodeMap i

/-- O4. Under the default opcode map, decoding at an offset answers UnknownOpcode exactly when the offset is inside the
code region and the byte there is one of the 215 values the spec lists as unassigned. The list is the spec's own
decision (D3, D21). -/
def Obligations.UnassignedBytesRejected : Prop :=
  ∀ (cfg : Configuration) (code : Memory) (cursor : Nat), cfg.opcodeMap = opcodeTable →
    (decode cfg code cursor = .err .unknownOpcode ↔
      cursor < cfg.codeSize ∧ unassignedByte (code.read cursor).toNat = true)

/-- O5. At an offset inside the code region that holds the byte of a fixed-length opcode, the decoder answers
OperandBounds exactly when the offset plus the length is above CODE_SIZE; a step that meets OperandBounds ends in
INVALID with that cause and the state unchanged. -/
def Obligations.OperandBoundsRejected : Prop :=
  (∀ (cfg : Configuration) (code : Memory) (cursor : Nat) (op : Opcode), cursor < cfg.codeSize →
    cfg.opcodeMap.opcodeOf (code.read cursor) = some op → op ≠ .nop →
    (decode cfg code cursor = .err .operandBounds ↔ cursor + op.format.length > cfg.codeSize)) ∧
  ∀ s : State, fetch s = .err .operandBounds → step s = .fault (.invalid .operandBounds s)

/-- O6. Where the code region holds the encoding of a fixed-length instruction that ends inside it: if a data address
fails ValidData the decoder answers DataAddress; if all pass and the code address or the branch target (taken or
not) fails ValidCode it answers CodeAddress. That the target of a branch not taken is checked is a decision of the
spec (D6). So is the order of the two causes when both apply: R102 leaves it free, D33 fixes it (log entry 14). -/
def Obligations.OperandAddressesChecked : Prop :=
  ∀ (cfg : Configuration) (code : Memory) (cursor : Nat) (i : Instr),
    cfg.opcodeMap.wf → i.opcode ≠ .nop → cursor + i.length ≤ cfg.codeSize →
    code.readBytes cursor i.length = encode cfg.opcodeMap i →
    ((∃ a ∈ i.dataAddrs, ¬ cfg.ValidData a.toInt) → decode cfg code cursor = .err .dataAddress) ∧
    ((∀ a ∈ i.dataAddrs, cfg.ValidData a.toInt) → (∃ t ∈ i.codeTargets cursor, ¬ cfg.ValidCode t) →
      decode cfg code cursor = .err .codeAddress)

/-- O7. At an offset inside the code region whose byte stands for NOP, the decoder answers a run of k >= 1 bytes: all k
bytes equal that byte, the run ends inside the code region, and it stops only at CODE_SIZE or before another byte. -/
def Obligations.NopRunIsMaximal : Prop :=
  ∀ (cfg : Configuration) (code : Memory) (cursor : Nat), cursor < cfg.codeSize →
    cfg.opcodeMap.opcodeOf (code.read cursor) = some .nop →
    ∃ k, decode cfg code cursor = .ok (.nop k) k ∧ 1 ≤ k ∧ cursor + k ≤ cfg.codeSize ∧
      (∀ j, j < k → code.read (cursor + j) = code.read cursor) ∧
      (cursor + k = cfg.codeSize ∨ code.read (cursor + k) ≠ code.read cursor)

/-- O8. With no instruction at pc a step answers the same state; with a decode error it ends in INVALID with that cause
and the same state; with an instruction it answers exec of it, steps increased by 1 modulo 2^64 on a next state and
nothing else changed, and a fault or a refusal as exec gives it. The step result on the command port is NONE,
INVALID(cause), OK(len), OVERFLOW(cause) or INVALID(cause) in the same cases. The form of the step result is the
spec's own decision (D9), as is that NONE and a failure leave steps alone (D19); that steps has 64 bits is the
model's choice of W_STEPS, the spec's default (log entry 8; D16). -/
def Obligations.StepRunsDecodedInstr : Prop :=
  ∀ s : State,
    (fetch s = .noInstr → step s = .next s ∧ executeStep s = .ok (.noInstr, s)) ∧
    (∀ c, fetch s = .err c → step s = .fault (.invalid c s) ∧ executeStep s = .ok (.invalid c, s)) ∧
    ∀ i len, fetch s = .ok i len →
      (∀ t, exec i s = .next t →
        step s = .next { t with steps := t.steps + 1 } ∧
        executeStep s = .ok (.ok len, { t with steps := t.steps + 1 })) ∧
      (∀ c t, exec i s = .fault (.overflow c t) →
        step s = .fault (.overflow c t) ∧ executeStep s = .ok (.overflow c, t)) ∧
      (∀ c t, exec i s = .fault (.invalid c t) →
        step s = .fault (.invalid c t) ∧ executeStep s = .ok (.invalid c, t)) ∧
      ∀ r, exec i s = .refused r → step s = .refused r ∧ executeStep s = .error r

/-- O9. Every fault of a step is OVERFLOW or INVALID with a cause and the state reached; that state has the same pc,
pcs, us, steps, sleepUntil, legalTargets, configuration, code and data buffer, and the same stopped and terminated
flags. cs is the same, save that a RET_SUB rejected with UnresolvedJump leaves it decremented. The host's own flags
and port differ only after ExtCallRejected. -/
def Obligations.FailedStepLeavesState : Prop :=
  ∀ (s : State) (f : Fault), step s = .fault f →
    ∃ c t, (f = .overflow c t ∨ f = .invalid c t) ∧
      SameProgram s t ∧ t.pc = s.pc ∧ t.pcs = s.pcs ∧ t.us = s.us ∧ t.steps = s.steps ∧
      t.sleepUntil = s.sleepUntil ∧ t.data = s.data ∧ t.isStopped = s.isStopped ∧ t.isTerminated = s.isTerminated ∧
      (c ≠ .extCallRejected → t.flags = s.flags ∧ t.ext = s.ext) ∧
      (((∃ len, fetch s = .ok .retSub len) ∧ c = .unresolvedJump) → t.cs = s.cs - 1#32) ∧
      (¬ ((∃ len, fetch s = .ok .retSub len) ∧ c = .unresolvedJump) → t.cs = s.cs)

/-- O10. When a step answers a next state, either pc was at or beyond CODE_SIZE and the state is unchanged, or pc was
below CODE_SIZE and steps has grown by exactly 1 modulo 2^64; a fault leaves steps as it was in the state reached.
That NONE and a failure leave steps alone is a decision of the spec (D19). That steps has 64 bits is the model's
choice of W_STEPS, the spec's default (log entry 8; D16). -/
def Obligations.StepCountsSuccesses : Prop :=
  ∀ s : State,
    (∀ t, step s = .next t →
      (s.cfg.codeSize ≤ s.pc.toNat ∧ t = s) ∨ (s.pc.toNat < s.cfg.codeSize ∧ t.steps = s.steps + 1)) ∧
    (∀ c t, step s = .fault (.overflow c t) ∨ step s = .fault (.invalid c t) → t.steps = s.steps)

/-- O11. From a state that meets the invariants, when the instruction at pc answers a next state, pc is, as an exact
number: the validated target of a taken jump, call, branch or return; pcs for FIN_IMD and for FIZ_DAT on a zero
slot; pc plus the length otherwise; and it is at most CODE_SIZE. That FIZ_DAT is the one that terminates and STZ_DAT
the one that stops is the spec's general knowledge (G7), and that a stop advances pc and a terminate copies pcs
untested its decision (D27); log entry 17. -/
def Obligations.PcAfterSuccess : Prop :=
  ∀ (s t : State) (i : Instr) (len : Nat), s.Inv → fetch s = .ok i len → exec i s = .next t →
    (t.pc.toNat : Int) = i.pcAfter len s ∧ t.pc.toNat ≤ s.cfg.codeSize

/-- O12. From every state that meets them (pc and pcs at most CODE_SIZE, the depths at most the capacities, legalTargets
the sweep of the code region, both memories in canonical form and inside their regions, the sizes within their
bounds), a step that answers a next state answers one that meets them. -/
def Obligations.StepKeepsInvariants : Prop :=
  ∀ s t : State, s.Inv → step s = .next t → t.Inv

/-- O13. From every state that meets the invariants, the state a failed step reaches (RET_SUB with its kept decrement
included) meets them, and the step is never refused. That the decrement is kept is the spec's choice C2. -/
def Obligations.FailedStepKeepsInvariants : Prop :=
  ∀ s : State, s.Inv →
    (∀ c t, step s = .fault (.overflow c t) ∨ step s = .fault (.invalid c t) → t.Inv) ∧ ∀ r, step s ≠ .refused r

/-- O14. State.reset meets the invariants, and its pc and pcs are at boundaries of the sweep. Its sizes and its empty
code region are the model's choice (log entry 1). -/
def Obligations.ResetStateMeetsInvariants : Prop :=
  State.reset.Inv ∧ State.reset.Placed

/-- O15. For every session, every configuration within its bounds, every code of CODE_SIZE bytes and every unspecified
state, the construct move and then the reset move are allowed and leave an instance that meets the invariants, is
placed, has the given configuration, gives the code bytes back on dumpBytes, and may be stepped. -/
def Obligations.BootReachesInvariants : Prop :=
  ∀ (h : Session) (unspecified : State) (bytes : List Byte) (cfg : Configuration),
    cfg.wf → bytes.length = cfg.codeSize →
    ∃ h₁ h₂, hostMove h (.construct unspecified bytes cfg) = .ok (h₁, .nothing) ∧
      hostMove h₁ .reset = .ok (h₂, .nothing) ∧
      h₂.core.Inv ∧ h₂.core.Placed ∧ h₂.core.cfg = cfg ∧ h₂.core.dumpCode = bytes ∧ h₂.phase.mayStep = .ok ()

/-- O16. For every state, the reset command leaves pc, pcs, cs, us, steps, flags and sleepUntil at 0, every byte of the
data buffer at 0 and legalTargets the sweep of the code region; it changes neither the configuration nor the code
region nor the host context, and its result does not depend on any other state before it. That the result does not
depend on the state before is what the spec itself infers from the pseudocode of R241 and from R130, and that the
host context holds the queue of answers and the transcript of requests, kept with it, is the model's choice (log
entries 2 and 3). -/
def Obligations.ResetLeavesStatedValues : Prop :=
  ∀ s : State,
    (s.resetCommand.pc = 0#32 ∧ s.resetCommand.pcs = 0#32 ∧ s.resetCommand.cs = 0#32 ∧ s.resetCommand.us = 0#32 ∧
      s.resetCommand.steps = 0 ∧ s.resetCommand.flags = 0b00000#5 ∧ s.resetCommand.sleepUntil = 0#64 ∧
      (∀ a, s.resetCommand.data.read a = 0x00#8) ∧
      s.resetCommand.legalTargets = sweep s.resetCommand.cfg s.resetCommand.code) ∧
    (s.resetCommand.cfg = s.cfg ∧ s.resetCommand.code = s.code ∧ s.resetCommand.ext = s.ext) ∧
    ∀ t : State, t.cfg = s.cfg → t.code = s.code → t.ext = s.ext → t.resetCommand = s.resetCommand

/-- O17. From every state whose legalTargets is the sweep of its code region and whose pc and pcs are each a legal
target or the offset where the sweep stopped, a step that answers a next state answers one of which the same holds,
under both settings of NOP_RUN_TARGETS. What a no-op run gives is the spec's own decision (D7). -/
def Obligations.StepKeepsPlacement : Prop :=
  ∀ s t : State, s.Placed → step s = .next t → t.Placed

/-- O18. Under NOP_RUN_TARGETS = RUN_START: if an instruction decodes at 0 then 0 is a legal target; every legal target
is inside the code region and decodes; when the instruction after it decodes, its start is a legal target too; no
offset strictly inside it is one (a jump into the middle of an instruction is illegal); and every legal target but 0
is the end of another one. That RUN_START marks a no-op run by its first byte alone is the spec's own decision (D7);
SweepMarksEveryRunByte says what EVERY_BYTE adds. -/
def Obligations.SweepMarksInstructionStarts : Prop :=
  ∀ (cfg : Configuration) (code : Memory), cfg.nopRunTargets = .runStart →
    (∀ i len, decode cfg code 0 = .ok i len → 0 ∈ sweep cfg code) ∧
    (∀ c ∈ sweep cfg code, c < cfg.codeSize ∧ ∃ i len, decode cfg code c = .ok i len ∧
      (∀ j m, decode cfg code (c + len) = .ok j m → c + len ∈ sweep cfg code) ∧
      ∀ d, c < d → d < c + len → d ∉ sweep cfg code) ∧
    (∀ c ∈ sweep cfg code, c ≠ 0 → ∃ b ∈ sweep cfg code, ∃ i len, decode cfg code b = .ok i len ∧ c = b + len)

/-- O19. A step that answers a next state leaves the configuration, the code region and legalTargets as they were. -/
def Obligations.StepKeepsProgram : Prop :=
  ∀ s t : State, step s = .next t → SameProgram s t

/-- O20. From every state that meets the invariants: when an instruction answers a next state, a byte of the data buffer
that changed lies in the call-stack zone if the instruction is JMP_SUB, in the user-stack zone if it is PSH_DAT, and
in the data zone otherwise. Where the slot of a depth lies is the spec's choice C4. -/
def Obligations.StackZonesProtected : Prop :=
  ∀ (s t : State) (i : Instr), s.Inv → exec i s = .next t → ∀ b, t.data.read b ≠ s.data.read b →
    (i.opcode = .jmpSub → s.cfg.dataSize ≤ b ∧ b < s.cfg.dataSize + s.cfg.csSize) ∧
    (i.opcode = .pshDat → s.cfg.dataSize + s.cfg.csSize ≤ b ∧ b < s.cfg.totalSize) ∧
    (i.opcode ≠ .jmpSub → i.opcode ≠ .pshDat → b < s.cfg.dataSize)

/-- O21. For every depth from 1 to the capacity, the 8 bytes at CallOff and at UserOff lie inside the zone of their
stack, and a deeper slot of the same stack ends at or below a shallower one. Where the slot of a depth lies is the
spec's choice C4. -/
def Obligations.StackSlotsStayInZone : Prop :=
  ∀ (cfg : Configuration) (n m : Nat), 1 ≤ n →
    (n ≤ cfg.csCap → cfg.dataSize ≤ cfg.callOff n ∧ cfg.callOff n + 8 ≤ cfg.dataSize + cfg.csSize ∧
      (n < m → m ≤ cfg.csCap → cfg.callOff m + 8 ≤ cfg.callOff n)) ∧
    (n ≤ cfg.usCap → cfg.dataSize + cfg.csSize ≤ cfg.userOff n ∧ cfg.userOff n + 8 ≤ cfg.totalSize ∧
      (n < m → m ≤ cfg.usCap → cfg.userOff m + 8 ≤ cfg.userOff n))

/-- O22. When an instruction answers a next state: stopped differs only after STZ_DAT or STP_IMD and is then set;
terminated differs only after FIZ_DAT or FIN_IMD and is then set; paused, aZero and bZero differ only after an
external call. The layout is a decision of the spec (D17). Which of the two zero tests stops and which terminates is
the spec's general knowledge (G7); log entry 17. -/
def Obligations.OnlyHaltInstrsSetHaltFlags : Prop :=
  ∀ (s t : State) (i : Instr), exec i s = .next t →
    (t.isStopped ≠ s.isStopped → (i.opcode = .stzDat ∨ i.opcode = .stpImd) ∧ t.isStopped = true) ∧
    (t.isTerminated ≠ s.isTerminated → (i.opcode = .fizDat ∨ i.opcode = .finImd) ∧ t.isTerminated = true) ∧
    ∀ b, b = pausedBit ∨ b = aZeroBit ∨ b = bZeroBit → flagAt t.flags b ≠ flagAt s.flags b → i.isExternal = true

/-- O23. Two states that differ in sleepUntil alone step alike: the same outcome, with the same cause, and states that
again differ in sleepUntil alone. -/
def Obligations.SleepThresholdNeverGates : Prop :=
  ∀ s s' : State, s.forgetSleep = s'.forgetSleep → AgreeUpTo State.forgetSleep (step s) (step s')

/-- O24. Two states that differ in flags alone step alike: the same outcome, with the same cause, and states that again
differ in flags alone. That a step ignores the halt flags is a decision of the spec (D8). -/
def Obligations.FlagsAreNeverRead : Prop :=
  ∀ s s' : State, s.forgetFlags = s'.forgetFlags → AgreeUpTo State.forgetFlags (step s) (step s')

/-- O25. For an instruction whose data addresses are valid and whose stack check passes: when it makes a control
transfer, it answers a next state with pc at the target if the target is in legalTargets, and otherwise ends in
INVALID(UnresolvedJump) with pc unchanged; a branch that is not taken moves on by its length, whatever legalTargets
holds. -/
def Obligations.TransfersTestLegalTargets : Prop :=
  ∀ (s : State) (i : Instr), i.dataOk s.cfg = true →
    (i.opcode = .jmpSub → s.cs.toNat < s.cfg.csCap) →
    (i.opcode = .retSub → 0 < s.cs.toNat ∧ s.cs.toNat ≤ s.cfg.csCap) →
    (∀ t, i.transferTo s = some t →
      (s.IsTarget t → ∃ u, exec i s = .next u ∧ u.pc = BitVec.ofInt 32 t) ∧
      (¬ s.IsTarget t → ∃ u, exec i s = .fault (.invalid .unresolvedJump u) ∧ u.pc = s.pc)) ∧
    (i.condition s = some false → exec i s = .next (s.advance i.length))

/-- O26. With valid data addresses (and memory in canonical form), SET_VAL stores its literal, SET_DAT the value of the
second slot and CLR_DAT zero in the first slot; pc moves by 13, 9 and 5; no other byte, register or flag changes. -/
def Obligations.AssignmentCompletes : Prop :=
  ∀ (s : State) (a b : DataAddr) (v : Slot), s.data.wf → s.cfg.ValidData a.toInt →
    Stores (.setVal a v) s a v 13 ∧
    (s.cfg.ValidData b.toInt → Stores (.setDat a b) s a (s.slot b.toInt) 9) ∧
    Stores (.clrDat a) s a 0#64 5

/-- O27. Under the default opcode map, when the code region holds the byte 0x01, a 4-byte address and an 8-byte literal
at pc: if pc + 13 is above CODE_SIZE the step ends in INVALID(OperandBounds); otherwise if the address is not valid
it ends in INVALID(DataAddress), both with the state unchanged; otherwise it stores the literal unchanged in the
slot, every other byte, register and flag as before, moves pc by 13 and adds 1 to steps. That the address and the
literal are little-endian is the spec's own decision (D2, at R92; log entry 17), the opcode map its default (D3),
and the 64 bits of steps the model's choice (log entry 8). -/
def Obligations.SetValStep : Prop :=
  ∀ (s : State) (a : DataAddr) (v : Slot), s.cfg.opcodeMap = opcodeTable → s.data.wf →
    s.pc.toNat < s.cfg.codeSize → s.code.readBytes s.pc.toNat 13 = 0x01#8 :: (bytesLE 4 a.toNat ++ bytesLE 8 v.toNat) →
    (s.cfg.codeSize < s.pc.toNat + 13 → step s = .fault (.invalid .operandBounds s)) ∧
    (s.pc.toNat + 13 ≤ s.cfg.codeSize → ¬ s.cfg.ValidData a.toInt → step s = .fault (.invalid .dataAddress s)) ∧
    (s.pc.toNat + 13 ≤ s.cfg.codeSize → s.cfg.ValidData a.toInt →
      ∃ t, Stored s t a v 13 ∧ step s = .next { t with steps := s.steps + 1 })

/-- O28. With a valid data address, INC_DAT stores the slot plus 1 and DEC_DAT the slot minus 1, wrapped to 64 bits, and
NOT_DAT stores the inverted pattern, which is minus the value minus 1; pc moves by 5; no other byte, register or
flag changes. The wrap is a decision of the spec (D10). -/
def Obligations.SingleSlotOpsComplete : Prop :=
  ∀ (s : State) (a : DataAddr), s.data.wf → s.cfg.ValidData a.toInt →
    Stores (.incDat a) s a (s.slot a.toInt + 1#64) 5 ∧
    Stores (.decDat a) s a (s.slot a.toInt - 1#64) 5 ∧
    Stores (.notDat a) s a (~~~(s.slot a.toInt)) 5 ∧
    (~~~(s.slot a.toInt)).toInt = - (s.slot a.toInt).toInt - 1

/-- O29. With valid data addresses: when the value of the second slot (for SET_IND), or the exact sum of the second and
third (for SET_IDX), is a valid data address, the slot it names is stored in the first; pc moves by 9 and 13; no
other byte, register or flag changes. Reading through the address and the exact sum are choices of the spec (C7,
D12). -/
def Obligations.IndirectReadsComplete : Prop :=
  ∀ (s : State) (a b c : DataAddr), s.data.wf → s.cfg.ValidData a.toInt → s.cfg.ValidData b.toInt →
    (s.cfg.ValidData (s.slot b.toInt).toInt →
      Stores (.setInd a b) s a (s.slot (s.slot b.toInt).toInt) 9) ∧
    (s.cfg.ValidData c.toInt → s.cfg.ValidData ((s.slot b.toInt).toInt + (s.slot c.toInt).toInt) →
      Stores (.setIdx a b c) s a (s.slot ((s.slot b.toInt).toInt + (s.slot c.toInt).toInt)) 13)

/-- O30. With valid data addresses: when the computed address of SET_IND or SET_IDX is not a valid data address, the
step ends with cause IndirectAddress, in INVALID or OVERFLOW as INDIRECT_FAULT_CLASS says, and the state is
unchanged. The class and the exact width are choices of the spec (C1, D12). -/
def Obligations.IndirectAddressFaults : Prop :=
  ∀ (s : State) (a b c : DataAddr), s.cfg.ValidData b.toInt →
    (¬ s.cfg.ValidData (s.slot b.toInt).toInt →
      (s.cfg.indirectFaultClass = .invalid → FailsInvalid (.setInd a b) s .indirectAddress) ∧
      (s.cfg.indirectFaultClass = .overflow → FailsOverflow (.setInd a b) s .indirectAddress)) ∧
    (s.cfg.ValidData c.toInt → ¬ s.cfg.ValidData ((s.slot b.toInt).toInt + (s.slot c.toInt).toInt) →
      (s.cfg.indirectFaultClass = .invalid → FailsInvalid (.setIdx a b c) s .indirectAddress) ∧
      (s.cfg.indirectFaultClass = .overflow → FailsOverflow (.setIdx a b c) s .indirectAddress))

/-- O31. With valid data addresses, equal or not, ADD_DAT, SUB_DAT and MUL_DAT store the 64-bit sum, difference and
product (modulo 2^64) of the two old values in the first slot; pc moves by 9; no other byte, register or flag
changes. The wrap is a decision of the spec (D10). -/
def Obligations.ArithmeticCompletes : Prop :=
  ∀ (s : State) (a b : DataAddr), s.data.wf → s.cfg.ValidData a.toInt → s.cfg.ValidData b.toInt →
    Stores (.addDat a b) s a (s.slot a.toInt + s.slot b.toInt) 9 ∧
    Stores (.subDat a b) s a (s.slot a.toInt - s.slot b.toInt) 9 ∧
    Stores (.mulDat a b) s a (s.slot a.toInt * s.slot b.toInt) 9

/-- O32. With valid data addresses, equal or not, each bit of the first slot becomes the or, the and, the exclusive or
of the two old bits there; pc moves by 9; no other byte, register or flag changes. -/
def Obligations.BitwiseOpsComplete : Prop :=
  ∀ (s : State) (a b : DataAddr), s.data.wf → s.cfg.ValidData a.toInt → s.cfg.ValidData b.toInt →
    ∃ o n x, Stores (.borDat a b) s a o 9 ∧ Stores (.andDat a b) s a n 9 ∧ Stores (.xorDat a b) s a x 9 ∧
      ∀ k, o.getLsbD k = ((s.slot a.toInt).getLsbD k || (s.slot b.toInt).getLsbD k) ∧
        n.getLsbD k = ((s.slot a.toInt).getLsbD k && (s.slot b.toInt).getLsbD k) ∧
        x.getLsbD k = ((s.slot a.toInt).getLsbD k ^^ (s.slot b.toInt).getLsbD k)

/-- O33. With valid data addresses and a divisor that is not 0: unless the operands are INT64_MIN and -1, DIV_DAT stores
a value whose signed reading is the exact quotient rounded toward zero; for INT64_MIN and -1 under DIV_MIN_NEG1 =
WRAP it stores INT64_MIN; pc moves by 9; no other byte, register or flag changes. Rounding and the corner are
decisions of the spec (D11). -/
def Obligations.DivisionCompletes : Prop :=
  ∀ (s : State) (a b : DataAddr), s.data.wf → s.cfg.ValidData a.toInt → s.cfg.ValidData b.toInt → (s.slot b.toInt).toInt ≠ 0 →
    (¬ ((s.slot a.toInt).toInt = -2 ^ 63 ∧ (s.slot b.toInt).toInt = -1) →
      ∃ q : Slot, Stores (.divDat a b) s a q 9 ∧
        q.toInt = (s.slot a.toInt).toInt.tdiv (s.slot b.toInt).toInt) ∧
    ((s.slot a.toInt).toInt = -2 ^ 63 → (s.slot b.toInt).toInt = -1 → s.cfg.divMinNeg1 = .wrap →
      Stores (.divDat a b) s a (BitVec.ofInt 64 (-2 ^ 63)) 9)

/-- O34. With valid data addresses, DIV_DAT ends in INVALID(DivisionByZero) when the divisor slot is 0, and in
INVALID(DivisionOverflow) for INT64_MIN by -1 under DIV_MIN_NEG1 = INVALID, with the state unchanged. The second
case is a decision of the spec (D11). -/
def Obligations.DivisionFaults : Prop :=
  ∀ (s : State) (a b : DataAddr), s.cfg.ValidData a.toInt → s.cfg.ValidData b.toInt →
    ((s.slot b.toInt).toInt = 0 → FailsInvalid (.divDat a b) s .divisionByZero) ∧
    ((s.slot a.toInt).toInt = -2 ^ 63 → (s.slot b.toInt).toInt = -1 → s.cfg.divMinNeg1 = .invalid →
      FailsInvalid (.divDat a b) s .divisionOverflow)

/-- O35. With a valid data address and the user stack below its capacity, PSH_DAT raises us by 1, stores the value of
the slot at UserOff of the new depth and in no other byte, and moves pc by 5; no other register or flag changes.
Where the slot of a depth lies is the spec's choice C4. -/
def Obligations.PushCompletes : Prop :=
  ∀ (s : State) (a : DataAddr), s.data.wf → s.cfg.ValidData a.toInt → s.us.toNat < s.cfg.usCap →
    ∃ t, exec (.pshDat a) s = .next t ∧ t.us = s.us + 1#32 ∧
      t.data.readSlot (s.cfg.userOff (s.us.toNat + 1)) = s.slot a.toInt ∧
      SameOutside s t (s.cfg.userOff (s.us.toNat + 1)) ∧ t.pc = s.pc + 5#32 ∧
      SameRegisters s { t with us := s.us } ∧ SameProgram s t

/-- O36. With a valid data address and a user stack that is not empty, POP_DAT stores the value at UserOff of the old
depth in the slot and in no other byte (so the stack entry keeps its bytes, a decision of the spec, D13), lowers us
by 1 and moves pc by 5; no other register or flag changes. Where the slot of a depth lies is the spec's choice C4. -/
def Obligations.PopCompletes : Prop :=
  ∀ (s : State) (a : DataAddr), s.data.wf → s.cfg.ValidData a.toInt → 0 < s.us.toNat → s.us.toNat ≤ s.cfg.usCap →
    ∃ t, exec (.popDat a) s = .next t ∧ t.slot a.toInt = s.data.readSlot (s.cfg.userOff s.us.toNat) ∧
      SameOutside s t (slotOff a.toInt) ∧ t.us.toNat = s.us.toNat - 1 ∧ t.pc = s.pc + 5#32 ∧
      SameRegisters s { t with us := s.us } ∧ SameProgram s t

/-- O37. PSH_DAT at capacity ends in OVERFLOW(UserStackFull), POP_DAT at depth 0 in OVERFLOW(UserStackEmpty), with the
state unchanged, for every data address. -/
def Obligations.UserStackFaults : Prop :=
  ∀ (s : State) (a : DataAddr),
    (s.us.toNat = s.cfg.usCap → FailsOverflow (.pshDat a) s .userStackFull) ∧
    (s.us.toNat = 0 → FailsOverflow (.popDat a) s .userStackEmpty)

/-- O38. From a state that meets the invariants, with valid data addresses and the user stack below its capacity,
PSH_DAT of one slot and then POP_DAT into another both complete, the second slot then holds what the first held, and
us is as before. -/
def Obligations.PopReturnsLastPush : Prop :=
  ∀ (s : State) (a b : DataAddr), s.Inv → s.cfg.ValidData a.toInt → s.cfg.ValidData b.toInt → s.us.toNat < s.cfg.usCap →
    ∃ t u, exec (.pshDat a) s = .next t ∧ exec (.popDat b) t = .next u ∧
      u.slot b.toInt = s.slot a.toInt ∧ u.us = s.us

/-- O39. With the call stack below its capacity and a legal target, JMP_SUB raises cs by 1, stores pc + 5 as a 64-bit
value at CallOff of the new depth and in no other byte, and sets pc to the target; no other register or flag
changes. That the return address is stored as a 64-bit value is the spec's own decision (D15; log entry 17), and
where the slot of a depth lies its choice C4. -/
def Obligations.CallCompletes : Prop :=
  ∀ (s : State) (c : CodeAddr), s.data.wf → s.cs.toNat < s.cfg.csCap → s.IsTarget c.toInt →
    ∃ t, exec (.jmpSub c) s = .next t ∧ t.cs = s.cs + 1#32 ∧
      t.data.readSlot (s.cfg.callOff (s.cs.toNat + 1)) = BitVec.ofNat 64 (s.pc.toNat + 5) ∧
      SameOutside s t (s.cfg.callOff (s.cs.toNat + 1)) ∧ t.pc = BitVec.ofInt 32 c.toInt ∧
      SameRegisters s { t with cs := s.cs } ∧ SameProgram s t

/-- O40. With a call stack that is not empty and whose top entry, as a full 64-bit value, is a legal target, RET_SUB
sets pc to that entry and lowers cs by 1; no byte of memory and no other register or flag changes. That the popped
entry keeps its bytes and that the full 64-bit value is compared are the spec's own decisions (D13, D15; log entry
17), and where the slot of a depth lies its choice C4. -/
def Obligations.ReturnCompletes : Prop :=
  ∀ s : State, 0 < s.cs.toNat → s.cs.toNat ≤ s.cfg.csCap →
    s.IsTarget (s.data.readSlot (s.cfg.callOff s.cs.toNat)).toInt →
    ∃ t, exec .retSub s = .next t ∧
      t.pc = BitVec.ofInt 32 (s.data.readSlot (s.cfg.callOff s.cs.toNat)).toInt ∧
      t.cs.toNat = s.cs.toNat - 1 ∧ t.data = s.data ∧ SameRegisters s { t with cs := s.cs } ∧ SameProgram s t

/-- O41. JMP_SUB at capacity ends in OVERFLOW(CallStackFull), legal target or not, and below capacity to an illegal
target in INVALID(UnresolvedJump), with the state unchanged; RET_SUB at depth 0 ends in OVERFLOW(CallStackEmpty)
with the state unchanged; RET_SUB whose popped entry is not a legal target ends in INVALID(UnresolvedJump) and
leaves the state with cs lowered by 1 and nothing else changed. The order of the two checks of JMP_SUB is a decision
of the spec (D14). The kept decrement is its choice C2, and the comparison of the full 64-bit value its decision
D15. -/
def Obligations.CallAndReturnFaults : Prop :=
  ∀ (s : State) (c : CodeAddr),
    (s.cs.toNat = s.cfg.csCap → FailsOverflow (.jmpSub c) s .callStackFull) ∧
    (s.cs.toNat < s.cfg.csCap → ¬ s.IsTarget c.toInt → FailsInvalid (.jmpSub c) s .unresolvedJump) ∧
    (s.cs.toNat = 0 → FailsOverflow .retSub s .callStackEmpty) ∧
    (0 < s.cs.toNat → s.cs.toNat ≤ s.cfg.csCap →
      ¬ s.IsTarget (s.data.readSlot (s.cfg.callOff s.cs.toNat)).toInt →
      exec .retSub s = .fault (.invalid .unresolvedJump { s with cs := s.cs - 1#32 }))

/-- O42. From a state that meets the invariants, with the call stack below its capacity and both the target and pc + 5
legal targets, JMP_SUB and then RET_SUB both complete, pc is exactly the old pc plus 5, and cs is as before. The
stored return address is a 64-bit value by the spec's own decision (D15; log entry 17). -/
def Obligations.CallThenReturnComesBack : Prop :=
  ∀ (s : State) (c : CodeAddr), s.Inv → s.cs.toNat < s.cfg.csCap → s.IsTarget c.toInt → s.IsTarget (s.pc.toNat + 5) →
    ∃ t u, exec (.jmpSub c) s = .next t ∧ exec .retSub t = .next u ∧
      u.pc.toNat = s.pc.toNat + 5 ∧ u.cs = s.cs

/-- O43. When the code address is in legalTargets, JMP_ADR sets pc to it and changes nothing else; when it is not, the
step ends in INVALID(UnresolvedJump) with the state unchanged. -/
def Obligations.JumpCompletes : Prop :=
  ∀ (s : State) (c : CodeAddr),
    (s.IsTarget c.toInt → Moves (.jmpAdr c) s (BitVec.ofInt 32 c.toInt)) ∧
    (¬ s.IsTarget c.toInt → FailsInvalid (.jmpAdr c) s .unresolvedJump)

/-- O44. With a valid data address, BZR_DAT follows the branch rule with the condition that the slot is 0, BNZ_DAT with
the condition that it is not, length 6: taken to a legal target pc moves there, taken to an illegal one the step
ends in INVALID(UnresolvedJump) with the state unchanged, not taken pc moves by the length whatever the target;
nothing else changes. -/
def Obligations.ZeroBranchesComplete : Prop :=
  ∀ (s : State) (a : DataAddr) (off : Offset), s.cfg.ValidData a.toInt →
    Branches (.bzrDat a off) s (s.slot a.toInt = 0#64) off 6 ∧
    Branches (.bnzDat a off) s (s.slot a.toInt ≠ 0#64) off 6

/-- O45. With valid data addresses, BGT_DAT, BLT_DAT, BGE_DAT, BLE_DAT, BEQ_DAT and BNE_DAT follow the branch rule,
length 10, with the condition that the signed value of the first slot is above, below, at least, at most, equal to,
different from that of the second. The signed reading is a decision of the spec (D32). -/
def Obligations.RelationalBranchesComplete : Prop :=
  ∀ (s : State) (a b : DataAddr) (off : Offset), s.cfg.ValidData a.toInt → s.cfg.ValidData b.toInt →
    Branches (.bgtDat a b off) s ((s.slot b.toInt).slt (s.slot a.toInt) = true) off 10 ∧
    Branches (.bltDat a b off) s ((s.slot a.toInt).slt (s.slot b.toInt) = true) off 10 ∧
    Branches (.bgeDat a b off) s ((s.slot b.toInt).sle (s.slot a.toInt) = true) off 10 ∧
    Branches (.bleDat a b off) s ((s.slot a.toInt).sle (s.slot b.toInt) = true) off 10 ∧
    Branches (.beqDat a b off) s (s.slot a.toInt = s.slot b.toInt) off 10 ∧
    Branches (.bneDat a b off) s (s.slot a.toInt ≠ s.slot b.toInt) off 10

/-- O46. With a valid data address, SLP_DAT stores the whole slot in sleepUntil and moves pc by 5; no byte of memory, no
flag and no other register changes. That it sets no flag is a decision of the spec (D24). -/
def Obligations.SleepCompletes : Prop :=
  ∀ (s : State) (a : DataAddr), s.cfg.ValidData a.toInt →
    ∃ t, exec (.slpDat a) s = .next t ∧ t.sleepUntil = s.slot a.toInt ∧
      Moved s { t with sleepUntil := s.sleepUntil } (s.pc + 5#32)

/-- O47. With a valid data address: on a zero slot FIZ_DAT sets terminated and pc becomes pcs, with no test of
legalTargets, and STZ_DAT sets stopped and pc moves by 5; on any other slot both only move pc by 5. No other flag,
register or byte changes. Which opcode stops, the advance of a stop and the missing test are choices of the spec
(G7, D27). -/
def Obligations.ConditionalHaltsComplete : Prop :=
  ∀ (s : State) (a : DataAddr), s.cfg.ValidData a.toInt →
    (s.slot a.toInt = 0#64 →
      (∃ t, exec (.fizDat a) s = .next t ∧ Moved s { t with flags := s.flags } s.pcs ∧
        ∀ b, flagAt t.flags b = (flagAt s.flags b || decide (b = terminatedBit))) ∧
      (∃ t, exec (.stzDat a) s = .next t ∧ Moved s { t with flags := s.flags } (s.pc + 5#32) ∧
        ∀ b, flagAt t.flags b = (flagAt s.flags b || decide (b = stoppedBit)))) ∧
    (s.slot a.toInt ≠ 0#64 →
      Moves (.fizDat a) s (s.pc + 5#32) ∧ Moves (.stzDat a) s (s.pc + 5#32))

/-- O48. From every state FIN_IMD sets terminated and pc becomes pcs, with no test of legalTargets, and STP_IMD sets
stopped and pc moves by 1; no other flag, register or byte changes. The advance of a stop and the missing test are
decisions of the spec (D27). -/
def Obligations.UnconditionalHaltsComplete : Prop :=
  ∀ s : State,
    (∃ t, exec .finImd s = .next t ∧ Moved s { t with flags := s.flags } s.pcs ∧
      ∀ b, flagAt t.flags b = (flagAt s.flags b || decide (b = terminatedBit))) ∧
    (∃ t, exec .stpImd s = .next t ∧ Moved s { t with flags := s.flags } (s.pc + 1#32) ∧
      ∀ b, flagAt t.flags b = (flagAt s.flags b || decide (b = stoppedBit)))

/-- O49. From every state SET_PCS sets pcs and pc to the offset behind it and changes nothing else, and a no-op run of k
bytes moves pc by k and changes nothing else. -/
def Obligations.RestartPointAndNopComplete : Prop :=
  ∀ (s : State) (k : Nat),
    (∃ t, exec .setPcs s = .next t ∧ t.pcs = s.pc + 1#32 ∧ Moved s { t with pcs := s.pcs } (s.pc + 1#32)) ∧
    Moves (.nop k) s (s.pc + BitVec.ofNat 32 k)

/-- O50. With valid data addresses, when the host accepts the request (the function id, the values of the argument slots
in order, no return wanted), each completes: the request is sent, memory is unchanged, pc moves by 3, 7 and 11, and
only the host flags may change, as the host wrote them. The port protocol is the decision of the spec (D18, D28,
D31). That the host's side of the port is a transcript of the requests sent (log entry 3), a queue of answers of
which the call uses up the first (log entry 2) and at most one flag write in an answer (log entry 13) is the form
the model gives it. -/
def Obligations.ExternalCallsComplete : Prop :=
  ∀ (s : State) (fn : FunId) (a b : DataAddr),
    ((s.extAnswer ⟨fn, [], false⟩).ok = true → Calls (.extFun fn) s ⟨fn, [], false⟩ 3) ∧
    (s.cfg.ValidData a.toInt → (s.extAnswer ⟨fn, [s.slot a.toInt], false⟩).ok = true →
      Calls (.extFunDat fn a) s ⟨fn, [s.slot a.toInt], false⟩ 7) ∧
    (s.cfg.ValidData a.toInt → s.cfg.ValidData b.toInt →
      (s.extAnswer ⟨fn, [s.slot a.toInt, s.slot b.toInt], false⟩).ok = true →
      Calls (.extFunDat2 fn a b) s ⟨fn, [s.slot a.toInt, s.slot b.toInt], false⟩ 11)

/-- O51. With valid data addresses, when the host accepts the request (the function id, the old values of the argument
slots in order, a return wanted), EXT_FUN_RET, EXT_FUN_RET_DAT and EXT_FUN_RET_DAT_2 complete: the request is sent,
the returned value is stored in the output slot and in no other byte, pc moves by 7, 11 and 15, and only the host
flags may change. The port protocol is the decision of the spec (D18, D25, D28, D31). That the host's side of the
port is a transcript of the requests sent (log entry 3), a queue of answers of which the call uses up the first (log
entry 2) and at most one flag write in an answer (log entry 13) is the form the model gives it. -/
def Obligations.ReturningCallsComplete : Prop :=
  ∀ (s : State) (fn : FunId) (a b c : DataAddr), s.data.wf → s.cfg.ValidData a.toInt →
    ((s.extAnswer ⟨fn, [], true⟩).ok = true → CallsInto (.extFunRet fn a) s ⟨fn, [], true⟩ a 7) ∧
    (s.cfg.ValidData b.toInt → (s.extAnswer ⟨fn, [s.slot b.toInt], true⟩).ok = true →
      CallsInto (.extFunRetDat fn a b) s ⟨fn, [s.slot b.toInt], true⟩ a 11) ∧
    (s.cfg.ValidData b.toInt → s.cfg.ValidData c.toInt →
      (s.extAnswer ⟨fn, [s.slot b.toInt, s.slot c.toInt], true⟩).ok = true →
      CallsInto (.extFunRetDat2 fn a b c) s ⟨fn, [s.slot b.toInt, s.slot c.toInt], true⟩ a 15)

/-- O52. When the data addresses a form names are valid and the host rejects its request, each of the six forms
(EXT_FUN, which names none, in every state) ends in INVALID(ExtCallRejected): the request was sent, memory, pc and
every register are as before, and only what the host wrote itself has changed. The failure path is the decision of
the spec (D18). That the host's side of the port is a transcript of the requests sent (log entry 3), a queue of
answers of which the call uses up the first (log entry 2) and at most one flag write in an answer (log entry 13) is
the form the model gives it. -/
def Obligations.RejectedCallsFail : Prop :=
  ∀ (s : State) (fn : FunId) (a b c : DataAddr),
    ((s.extAnswer ⟨fn, [], false⟩).ok = false → CallRejected (.extFun fn) s ⟨fn, [], false⟩) ∧
    (s.cfg.ValidData a.toInt → (s.extAnswer ⟨fn, [s.slot a.toInt], false⟩).ok = false →
      CallRejected (.extFunDat fn a) s ⟨fn, [s.slot a.toInt], false⟩) ∧
    (s.cfg.ValidData a.toInt → s.cfg.ValidData b.toInt →
      (s.extAnswer ⟨fn, [s.slot a.toInt, s.slot b.toInt], false⟩).ok = false →
      CallRejected (.extFunDat2 fn a b) s ⟨fn, [s.slot a.toInt, s.slot b.toInt], false⟩) ∧
    (s.cfg.ValidData a.toInt → (s.extAnswer ⟨fn, [], true⟩).ok = false → CallRejected (.extFunRet fn a) s ⟨fn, [], true⟩) ∧
    (s.cfg.ValidData a.toInt → s.cfg.ValidData b.toInt → (s.extAnswer ⟨fn, [s.slot b.toInt], true⟩).ok = false →
      CallRejected (.extFunRetDat fn a b) s ⟨fn, [s.slot b.toInt], true⟩) ∧
    (s.cfg.ValidData a.toInt → s.cfg.ValidData b.toInt → s.cfg.ValidData c.toInt →
      (s.extAnswer ⟨fn, [s.slot b.toInt, s.slot c.toInt], true⟩).ok = false →
      CallRejected (.extFunRetDat2 fn a b c) s ⟨fn, [s.slot b.toInt, s.slot c.toInt], true⟩)

/-- O53. When an instruction with a destination slot (SET_*, CLR, INC, DEC, NOT, the seven binary operations, POP_DAT
and the three EXT_FUN_RET forms) answers a next state: every byte outside the 8 bytes of that slot reads as before;
pcs, cs, steps, sleepUntil, the configuration, the code region and legalTargets are unchanged; us too unless it is
POP_DAT; every flag and the external-call port too unless it is an external call, and then stopped and terminated.
That the entry POP_DAT pops keeps its bytes is the spec's own decision (D13), as is that the host, in a call that
returns a value, writes nothing of the core but its three flags (D17, D28); log entry 17. -/
def Obligations.FrameOfStoringInstrs : Prop :=
  ∀ (s t : State) (i : Instr) (a : DataAddr), s.data.wf → i.storesTo = some a → exec i s = .next t →
    SameOutside s t (slotOff a.toInt) ∧ SameProgram s t ∧
    t.pcs = s.pcs ∧ t.cs = s.cs ∧ t.steps = s.steps ∧ t.sleepUntil = s.sleepUntil ∧
    t.isStopped = s.isStopped ∧ t.isTerminated = s.isTerminated ∧
    (i.opcode ≠ .popDat → t.us = s.us) ∧ (i.isExternal = false → t.flags = s.flags ∧ t.ext = s.ext)

/-- O54. When NOP, RET_SUB, JMP_ADR, a branch, SLP, FIZ, STZ, FIN, STP, SET_PCS or an EXT_FUN form without return
answers a next state: every byte reads as before; us, steps, the configuration, the code region and legalTargets are
unchanged; cs too unless it is RET_SUB, pcs too unless SET_PCS, sleepUntil too unless SLP_DAT, every flag too unless
it is one of the four halt instructions or an external call, the external-call port too unless it is an external
call. That the entry RET_SUB pops keeps its bytes is the spec's own decision (D13), as are that SLP_DAT sets no flag
(D24) and that the host, in a call, writes nothing of the core but its three flags (D17, D28); log entry 17. -/
def Obligations.FrameOfNonStoringInstrs : Prop :=
  ∀ (s t : State) (i : Instr), i.storesTo = none → i.opcode ≠ .jmpSub → i.opcode ≠ .pshDat → exec i s = .next t →
    (∀ b, t.data.read b = s.data.read b) ∧ SameProgram s t ∧ t.us = s.us ∧ t.steps = s.steps ∧
    (i.opcode ≠ .retSub → t.cs = s.cs) ∧ (i.opcode ≠ .setPcs → t.pcs = s.pcs) ∧
    (i.opcode ≠ .slpDat → t.sleepUntil = s.sleepUntil) ∧
    (i.opcode ∉ [.fizDat, .stzDat, .finImd, .stpImd] → i.isExternal = false → t.flags = s.flags) ∧
    (i.isExternal = false → t.ext = s.ext)

/-- O55. When JMP_SUB answers a next state, every byte outside the 8 bytes at CallOff of the new depth reads as before
and every register but pc and cs, every flag, the port and the program are unchanged; when PSH_DAT does, the same
with UserOff, and us in place of cs. Where the slot of a depth lies is the spec's choice C4 (at R67; log entry 17). -/
def Obligations.FrameOfPushes : Prop :=
  ∀ s t : State, s.data.wf →
    (∀ c, exec (.jmpSub c) s = .next t → SameOutside s t (s.cfg.callOff (s.cs.toNat + 1)) ∧
      SameRegisters s { t with cs := s.cs } ∧ SameProgram s t) ∧
    (∀ a, exec (.pshDat a) s = .next t → SameOutside s t (s.cfg.userOff (s.us.toNat + 1)) ∧
      SameRegisters s { t with us := s.us } ∧ SameProgram s t)

/-- O56. decodeAt at a cursor, and step(true) as decodeAt at pc, with no execute step since the reset: the instance
stays as it was and the reply is NONE, INVALID(cause), or OK(len) with the instruction, as the decoder answers
there. After an execute step neither is allowed, after either no execute step is, and before the first reset after a
construct none of the three. That the host holds the cursor and step(true) decodes at pc is the spec's own decision
(D20), as is that no step comes before the first reset (D26); that a move the host may not make is refused by name
is the model's reading (log entry 12). -/
def Obligations.DecodeOnlyChangesNothing : Prop :=
  ∀ (h : Session) (cursor : Nat),
    (∀ m : Command, m = .decodeAt cursor ∨ (m = .step true ∧ cursor = h.core.pc.toNat) →
      (h.phase = .fresh ∨ h.phase = .decoding →
        (decode h.core.cfg h.core.code cursor = .noInstr →
          hostMove h m = .ok (⟨h.core, .decoding⟩, .decoded .noInstr none)) ∧
        (∀ cause, decode h.core.cfg h.core.code cursor = .err cause →
          hostMove h m = .ok (⟨h.core, .decoding⟩, .decoded (.invalid cause) none)) ∧
        ∀ i len, decode h.core.cfg h.core.code cursor = .ok i len →
          hostMove h m = .ok (⟨h.core, .decoding⟩, .decoded (.ok len) (some i))) ∧
      (h.phase = .executing → hostMove h m = .error .modesInterleaved) ∧
      (h.phase = .constructed → hostMove h m = .error .stepBeforeReset)) ∧
    (h.phase = .decoding → hostMove h (.step false) = .error .modesInterleaved) ∧
    (h.phase = .constructed → hostMove h (.step false) = .error .stepBeforeReset)

/-- O57. For every state that meets the invariants, saving it and restoring it (legalTargets derived again by the sweep,
the external-call port passed by the host) gives the state back. That the port stands in State, so that the host has
to pass it, is the model's choice (log entries 2 and 3). -/
def Obligations.SnapshotRestoresInstance : Prop :=
  ∀ s : State, s.Inv → s.save.restore s.ext = s

/-- O58. Under NOP_RUN_TARGETS = EVERY_BYTE the legal targets are exactly those of RUN_START and, for every one of those
where a no-op run of k bytes decodes, each of the k bytes of that run. Both settings are the decision of the spec
(D7). -/
def Obligations.SweepMarksEveryRunByte : Prop :=
  ∀ (cfg : Configuration) (code : Memory), cfg.nopRunTargets = .everyByte → ∀ c,
    c ∈ sweep cfg code ↔
      c ∈ sweep { cfg with nopRunTargets := .runStart } code ∨
      ∃ b k, b ∈ sweep { cfg with nopRunTargets := .runStart } code ∧ decode cfg code b = .ok (.nop k) k ∧
        b ≤ c ∧ c < b + k

/-- O59. From every session a write of the host flag port is allowed: paused, aZero and bZero take the written values,
stopped and terminated keep theirs, and no other register, no byte, no legal target and not the phase of the host
changes. That the port writes these three flags, and their places, is the decision of the spec (D17). -/
def Obligations.HostFlagWriteSetsThreeFlags : Prop :=
  ∀ (h : Session) (w : HostFlags),
    ∃ h', hostMove h (.writeFlags w) = .ok (h', .nothing) ∧ h'.phase = h.phase ∧
      h'.core.isPaused = w.paused ∧ flagAt h'.core.flags aZeroBit = w.aZero ∧ flagAt h'.core.flags bZeroBit = w.bZero ∧
      h'.core.isStopped = h.core.isStopped ∧ h'.core.isTerminated = h.core.isTerminated ∧
      { h'.core with flags := h.core.flags } = h.core
end

