-- ==== Sys2Proof/Laws/State.lean ====
section
/-!
SUPPORT. One lemma per field per update of the state, so that no later proof unfolds a record update; and the flags.
-/

namespace Sys2Proof.Machine

/-! ### `State.setSlot` -/

@[simp] theorem State.setSlot_pc (s : State) (a : Int) (v : Slot) : (s.setSlot a v).pc = s.pc := rfl
@[simp] theorem State.setSlot_pcs (s : State) (a : Int) (v : Slot) : (s.setSlot a v).pcs = s.pcs := rfl
@[simp] theorem State.setSlot_cs (s : State) (a : Int) (v : Slot) : (s.setSlot a v).cs = s.cs := rfl
@[simp] theorem State.setSlot_us (s : State) (a : Int) (v : Slot) : (s.setSlot a v).us = s.us := rfl
@[simp] theorem State.setSlot_steps (s : State) (a : Int) (v : Slot) : (s.setSlot a v).steps = s.steps := rfl
@[simp] theorem State.setSlot_flags (s : State) (a : Int) (v : Slot) : (s.setSlot a v).flags = s.flags := rfl
@[simp] theorem State.setSlot_sleepUntil (s : State) (a : Int) (v : Slot) : (s.setSlot a v).sleepUntil = s.sleepUntil :=
  rfl
@[simp] theorem State.setSlot_legalTargets (s : State) (a : Int) (v : Slot) : (s.setSlot a v).legalTargets = s.legalTargets :=
  rfl
@[simp] theorem State.setSlot_cfg (s : State) (a : Int) (v : Slot) : (s.setSlot a v).cfg = s.cfg := rfl
@[simp] theorem State.setSlot_code (s : State) (a : Int) (v : Slot) : (s.setSlot a v).code = s.code := rfl
@[simp] theorem State.setSlot_data (s : State) (a : Int) (v : Slot) : (s.setSlot a v).data = s.data.writeSlot (slotOff a) v :=
  rfl
@[simp] theorem State.setSlot_ext (s : State) (a : Int) (v : Slot) : (s.setSlot a v).ext = s.ext := rfl

/-! ### `State.advance` -/

@[simp] theorem State.advance_pc (s : State) (len : Nat) : (s.advance len).pc = s.pc + BitVec.ofNat 32 len := rfl
@[simp] theorem State.advance_pcs (s : State) (len : Nat) : (s.advance len).pcs = s.pcs := rfl
@[simp] theorem State.advance_cs (s : State) (len : Nat) : (s.advance len).cs = s.cs := rfl
@[simp] theorem State.advance_us (s : State) (len : Nat) : (s.advance len).us = s.us := rfl
@[simp] theorem State.advance_steps (s : State) (len : Nat) : (s.advance len).steps = s.steps := rfl
@[simp] theorem State.advance_flags (s : State) (len : Nat) : (s.advance len).flags = s.flags := rfl
@[simp] theorem State.advance_sleepUntil (s : State) (len : Nat) : (s.advance len).sleepUntil = s.sleepUntil := rfl
@[simp] theorem State.advance_legalTargets (s : State) (len : Nat) : (s.advance len).legalTargets = s.legalTargets :=
  rfl
@[simp] theorem State.advance_cfg (s : State) (len : Nat) : (s.advance len).cfg = s.cfg := rfl
@[simp] theorem State.advance_code (s : State) (len : Nat) : (s.advance len).code = s.code := rfl
@[simp] theorem State.advance_data (s : State) (len : Nat) : (s.advance len).data = s.data := rfl
@[simp] theorem State.advance_ext (s : State) (len : Nat) : (s.advance len).ext = s.ext := rfl

/-! ### `State.jumpTo` -/

@[simp] theorem State.jumpTo_pc (s : State) (t : Int) : (s.jumpTo t).pc = BitVec.ofInt 32 t := rfl
@[simp] theorem State.jumpTo_pcs (s : State) (t : Int) : (s.jumpTo t).pcs = s.pcs := rfl
@[simp] theorem State.jumpTo_cs (s : State) (t : Int) : (s.jumpTo t).cs = s.cs := rfl
@[simp] theorem State.jumpTo_us (s : State) (t : Int) : (s.jumpTo t).us = s.us := rfl
@[simp] theorem State.jumpTo_steps (s : State) (t : Int) : (s.jumpTo t).steps = s.steps := rfl
@[simp] theorem State.jumpTo_flags (s : State) (t : Int) : (s.jumpTo t).flags = s.flags := rfl
@[simp] theorem State.jumpTo_sleepUntil (s : State) (t : Int) : (s.jumpTo t).sleepUntil = s.sleepUntil := rfl
@[simp] theorem State.jumpTo_legalTargets (s : State) (t : Int) : (s.jumpTo t).legalTargets = s.legalTargets := rfl
@[simp] theorem State.jumpTo_cfg (s : State) (t : Int) : (s.jumpTo t).cfg = s.cfg := rfl
@[simp] theorem State.jumpTo_code (s : State) (t : Int) : (s.jumpTo t).code = s.code := rfl
@[simp] theorem State.jumpTo_data (s : State) (t : Int) : (s.jumpTo t).data = s.data := rfl
@[simp] theorem State.jumpTo_ext (s : State) (t : Int) : (s.jumpTo t).ext = s.ext := rfl

/-! ### `State.pushCall` -/

@[simp] theorem State.pushCall_pc (s : State) (v : Slot) : (s.pushCall v).pc = s.pc := rfl
@[simp] theorem State.pushCall_pcs (s : State) (v : Slot) : (s.pushCall v).pcs = s.pcs := rfl
@[simp] theorem State.pushCall_cs (s : State) (v : Slot) : (s.pushCall v).cs = s.cs + 1#32 := rfl
@[simp] theorem State.pushCall_us (s : State) (v : Slot) : (s.pushCall v).us = s.us := rfl
@[simp] theorem State.pushCall_steps (s : State) (v : Slot) : (s.pushCall v).steps = s.steps := rfl
@[simp] theorem State.pushCall_flags (s : State) (v : Slot) : (s.pushCall v).flags = s.flags := rfl
@[simp] theorem State.pushCall_sleepUntil (s : State) (v : Slot) : (s.pushCall v).sleepUntil = s.sleepUntil := rfl
@[simp] theorem State.pushCall_legalTargets (s : State) (v : Slot) : (s.pushCall v).legalTargets = s.legalTargets :=
  rfl
@[simp] theorem State.pushCall_cfg (s : State) (v : Slot) : (s.pushCall v).cfg = s.cfg := rfl
@[simp] theorem State.pushCall_code (s : State) (v : Slot) : (s.pushCall v).code = s.code := rfl
@[simp] theorem State.pushCall_data (s : State) (v : Slot) : (s.pushCall v).data = s.data.writeSlot (s.cfg.callOff (s.cs.toNat + 1)) v :=
  rfl
@[simp] theorem State.pushCall_ext (s : State) (v : Slot) : (s.pushCall v).ext = s.ext := rfl

/-! ### `State.dropCall` -/

@[simp] theorem State.dropCall_pc (s : State) : (s.dropCall).pc = s.pc := rfl
@[simp] theorem State.dropCall_pcs (s : State) : (s.dropCall).pcs = s.pcs := rfl
@[simp] theorem State.dropCall_cs (s : State) : (s.dropCall).cs = s.cs - 1#32 := rfl
@[simp] theorem State.dropCall_us (s : State) : (s.dropCall).us = s.us := rfl
@[simp] theorem State.dropCall_steps (s : State) : (s.dropCall).steps = s.steps := rfl
@[simp] theorem State.dropCall_flags (s : State) : (s.dropCall).flags = s.flags := rfl
@[simp] theorem State.dropCall_sleepUntil (s : State) : (s.dropCall).sleepUntil = s.sleepUntil := rfl
@[simp] theorem State.dropCall_legalTargets (s : State) : (s.dropCall).legalTargets = s.legalTargets := rfl
@[simp] theorem State.dropCall_cfg (s : State) : (s.dropCall).cfg = s.cfg := rfl
@[simp] theorem State.dropCall_code (s : State) : (s.dropCall).code = s.code := rfl
@[simp] theorem State.dropCall_data (s : State) : (s.dropCall).data = s.data := rfl
@[simp] theorem State.dropCall_ext (s : State) : (s.dropCall).ext = s.ext := rfl

/-! ### `State.pushUser` -/

@[simp] theorem State.pushUser_pc (s : State) (v : Slot) : (s.pushUser v).pc = s.pc := rfl
@[simp] theorem State.pushUser_pcs (s : State) (v : Slot) : (s.pushUser v).pcs = s.pcs := rfl
@[simp] theorem State.pushUser_cs (s : State) (v : Slot) : (s.pushUser v).cs = s.cs := rfl
@[simp] theorem State.pushUser_us (s : State) (v : Slot) : (s.pushUser v).us = s.us + 1#32 := rfl
@[simp] theorem State.pushUser_steps (s : State) (v : Slot) : (s.pushUser v).steps = s.steps := rfl
@[simp] theorem State.pushUser_flags (s : State) (v : Slot) : (s.pushUser v).flags = s.flags := rfl
@[simp] theorem State.pushUser_sleepUntil (s : State) (v : Slot) : (s.pushUser v).sleepUntil = s.sleepUntil := rfl
@[simp] theorem State.pushUser_legalTargets (s : State) (v : Slot) : (s.pushUser v).legalTargets = s.legalTargets :=
  rfl
@[simp] theorem State.pushUser_cfg (s : State) (v : Slot) : (s.pushUser v).cfg = s.cfg := rfl
@[simp] theorem State.pushUser_code (s : State) (v : Slot) : (s.pushUser v).code = s.code := rfl
@[simp] theorem State.pushUser_data (s : State) (v : Slot) : (s.pushUser v).data = s.data.writeSlot (s.cfg.userOff (s.us.toNat + 1)) v :=
  rfl
@[simp] theorem State.pushUser_ext (s : State) (v : Slot) : (s.pushUser v).ext = s.ext := rfl

/-! ### `State.dropUser` -/

@[simp] theorem State.dropUser_pc (s : State) : (s.dropUser).pc = s.pc := rfl
@[simp] theorem State.dropUser_pcs (s : State) : (s.dropUser).pcs = s.pcs := rfl
@[simp] theorem State.dropUser_cs (s : State) : (s.dropUser).cs = s.cs := rfl
@[simp] theorem State.dropUser_us (s : State) : (s.dropUser).us = s.us - 1#32 := rfl
@[simp] theorem State.dropUser_steps (s : State) : (s.dropUser).steps = s.steps := rfl
@[simp] theorem State.dropUser_flags (s : State) : (s.dropUser).flags = s.flags := rfl
@[simp] theorem State.dropUser_sleepUntil (s : State) : (s.dropUser).sleepUntil = s.sleepUntil := rfl
@[simp] theorem State.dropUser_legalTargets (s : State) : (s.dropUser).legalTargets = s.legalTargets := rfl
@[simp] theorem State.dropUser_cfg (s : State) : (s.dropUser).cfg = s.cfg := rfl
@[simp] theorem State.dropUser_code (s : State) : (s.dropUser).code = s.code := rfl
@[simp] theorem State.dropUser_data (s : State) : (s.dropUser).data = s.data := rfl
@[simp] theorem State.dropUser_ext (s : State) : (s.dropUser).ext = s.ext := rfl

/-! ### `State.stop` -/

@[simp] theorem State.stop_pc (s : State) (len : Nat) : (s.stop len).pc = s.pc + BitVec.ofNat 32 len := rfl
@[simp] theorem State.stop_pcs (s : State) (len : Nat) : (s.stop len).pcs = s.pcs := rfl
@[simp] theorem State.stop_cs (s : State) (len : Nat) : (s.stop len).cs = s.cs := rfl
@[simp] theorem State.stop_us (s : State) (len : Nat) : (s.stop len).us = s.us := rfl
@[simp] theorem State.stop_steps (s : State) (len : Nat) : (s.stop len).steps = s.steps := rfl
@[simp] theorem State.stop_flags (s : State) (len : Nat) : (s.stop len).flags = setFlag s.flags stoppedBit := rfl
@[simp] theorem State.stop_sleepUntil (s : State) (len : Nat) : (s.stop len).sleepUntil = s.sleepUntil := rfl
@[simp] theorem State.stop_legalTargets (s : State) (len : Nat) : (s.stop len).legalTargets = s.legalTargets := rfl
@[simp] theorem State.stop_cfg (s : State) (len : Nat) : (s.stop len).cfg = s.cfg := rfl
@[simp] theorem State.stop_code (s : State) (len : Nat) : (s.stop len).code = s.code := rfl
@[simp] theorem State.stop_data (s : State) (len : Nat) : (s.stop len).data = s.data := rfl
@[simp] theorem State.stop_ext (s : State) (len : Nat) : (s.stop len).ext = s.ext := rfl

/-! ### `State.terminate` -/

@[simp] theorem State.terminate_pc (s : State) : (s.terminate).pc = s.pcs := rfl
@[simp] theorem State.terminate_pcs (s : State) : (s.terminate).pcs = s.pcs := rfl
@[simp] theorem State.terminate_cs (s : State) : (s.terminate).cs = s.cs := rfl
@[simp] theorem State.terminate_us (s : State) : (s.terminate).us = s.us := rfl
@[simp] theorem State.terminate_steps (s : State) : (s.terminate).steps = s.steps := rfl
@[simp] theorem State.terminate_flags (s : State) : (s.terminate).flags = setFlag s.flags terminatedBit := rfl
@[simp] theorem State.terminate_sleepUntil (s : State) : (s.terminate).sleepUntil = s.sleepUntil := rfl
@[simp] theorem State.terminate_legalTargets (s : State) : (s.terminate).legalTargets = s.legalTargets := rfl
@[simp] theorem State.terminate_cfg (s : State) : (s.terminate).cfg = s.cfg := rfl
@[simp] theorem State.terminate_code (s : State) : (s.terminate).code = s.code := rfl
@[simp] theorem State.terminate_data (s : State) : (s.terminate).data = s.data := rfl
@[simp] theorem State.terminate_ext (s : State) : (s.terminate).ext = s.ext := rfl

/-! ### `State.retire` -/

@[simp] theorem State.retire_pc (s : State) : (s.retire).pc = s.pc := rfl
@[simp] theorem State.retire_pcs (s : State) : (s.retire).pcs = s.pcs := rfl
@[simp] theorem State.retire_cs (s : State) : (s.retire).cs = s.cs := rfl
@[simp] theorem State.retire_us (s : State) : (s.retire).us = s.us := rfl
@[simp] theorem State.retire_steps (s : State) : (s.retire).steps = s.steps + 1 := rfl
@[simp] theorem State.retire_flags (s : State) : (s.retire).flags = s.flags := rfl
@[simp] theorem State.retire_sleepUntil (s : State) : (s.retire).sleepUntil = s.sleepUntil := rfl
@[simp] theorem State.retire_legalTargets (s : State) : (s.retire).legalTargets = s.legalTargets := rfl
@[simp] theorem State.retire_cfg (s : State) : (s.retire).cfg = s.cfg := rfl
@[simp] theorem State.retire_code (s : State) : (s.retire).code = s.code := rfl
@[simp] theorem State.retire_data (s : State) : (s.retire).data = s.data := rfl
@[simp] theorem State.retire_ext (s : State) : (s.retire).ext = s.ext := rfl

/-! ### `State.served` -/

@[simp] theorem State.served_pc (s : State) (req : ExtRequest) (r : ExtResponse) : (s.served req r).pc = s.pc := rfl
@[simp] theorem State.served_pcs (s : State) (req : ExtRequest) (r : ExtResponse) : (s.served req r).pcs = s.pcs := rfl
@[simp] theorem State.served_cs (s : State) (req : ExtRequest) (r : ExtResponse) : (s.served req r).cs = s.cs := rfl
@[simp] theorem State.served_us (s : State) (req : ExtRequest) (r : ExtResponse) : (s.served req r).us = s.us := rfl
@[simp] theorem State.served_steps (s : State) (req : ExtRequest) (r : ExtResponse) : (s.served req r).steps = s.steps :=
  rfl
@[simp] theorem State.served_sleepUntil (s : State) (req : ExtRequest) (r : ExtResponse) : (s.served req r).sleepUntil = s.sleepUntil :=
  rfl
@[simp] theorem State.served_legalTargets (s : State) (req : ExtRequest) (r : ExtResponse) : (s.served req r).legalTargets = s.legalTargets :=
  rfl
@[simp] theorem State.served_cfg (s : State) (req : ExtRequest) (r : ExtResponse) : (s.served req r).cfg = s.cfg := rfl
@[simp] theorem State.served_code (s : State) (req : ExtRequest) (r : ExtResponse) : (s.served req r).code = s.code :=
  rfl
@[simp] theorem State.served_data (s : State) (req : ExtRequest) (r : ExtResponse) : (s.served req r).data = s.data :=
  rfl
@[simp] theorem State.served_ext (s : State) (req : ExtRequest) (r : ExtResponse) : (s.served req r).ext = { context := r.context, answers := s.ext.answers.tail, sent := req :: s.ext.sent } :=
  rfl

/-! ### `State.writeHostFlags` -/

@[simp] theorem State.writeHostFlags_pc (s : State) (w : HostFlags) : (s.writeHostFlags w).pc = s.pc := rfl
@[simp] theorem State.writeHostFlags_pcs (s : State) (w : HostFlags) : (s.writeHostFlags w).pcs = s.pcs := rfl
@[simp] theorem State.writeHostFlags_cs (s : State) (w : HostFlags) : (s.writeHostFlags w).cs = s.cs := rfl
@[simp] theorem State.writeHostFlags_us (s : State) (w : HostFlags) : (s.writeHostFlags w).us = s.us := rfl
@[simp] theorem State.writeHostFlags_steps (s : State) (w : HostFlags) : (s.writeHostFlags w).steps = s.steps := rfl
@[simp] theorem State.writeHostFlags_flags (s : State) (w : HostFlags) : (s.writeHostFlags w).flags = putHostFlags s.flags w :=
  rfl
@[simp] theorem State.writeHostFlags_sleepUntil (s : State) (w : HostFlags) : (s.writeHostFlags w).sleepUntil = s.sleepUntil :=
  rfl
@[simp] theorem State.writeHostFlags_legalTargets (s : State) (w : HostFlags) : (s.writeHostFlags w).legalTargets = s.legalTargets :=
  rfl
@[simp] theorem State.writeHostFlags_cfg (s : State) (w : HostFlags) : (s.writeHostFlags w).cfg = s.cfg := rfl
@[simp] theorem State.writeHostFlags_code (s : State) (w : HostFlags) : (s.writeHostFlags w).code = s.code := rfl
@[simp] theorem State.writeHostFlags_data (s : State) (w : HostFlags) : (s.writeHostFlags w).data = s.data := rfl
@[simp] theorem State.writeHostFlags_ext (s : State) (w : HostFlags) : (s.writeHostFlags w).ext = s.ext := rfl

/-! ### `State.resetCommand` -/

@[simp] theorem State.resetCommand_pc (s : State) : (s.resetCommand).pc = 0#32 := rfl
@[simp] theorem State.resetCommand_pcs (s : State) : (s.resetCommand).pcs = 0#32 := rfl
@[simp] theorem State.resetCommand_cs (s : State) : (s.resetCommand).cs = 0#32 := rfl
@[simp] theorem State.resetCommand_us (s : State) : (s.resetCommand).us = 0#32 := rfl
@[simp] theorem State.resetCommand_steps (s : State) : (s.resetCommand).steps = 0 := rfl
@[simp] theorem State.resetCommand_flags (s : State) : (s.resetCommand).flags = 0#5 := rfl
@[simp] theorem State.resetCommand_sleepUntil (s : State) : (s.resetCommand).sleepUntil = 0#64 := rfl
@[simp] theorem State.resetCommand_legalTargets (s : State) : (s.resetCommand).legalTargets = sweep s.cfg s.code := rfl
@[simp] theorem State.resetCommand_cfg (s : State) : (s.resetCommand).cfg = s.cfg := rfl
@[simp] theorem State.resetCommand_code (s : State) : (s.resetCommand).code = s.code := rfl
@[simp] theorem State.resetCommand_data (s : State) : (s.resetCommand).data = [] := rfl
@[simp] theorem State.resetCommand_ext (s : State) : (s.resetCommand).ext = s.ext := rfl

/-! ### `State.construct` -/

@[simp] theorem State.construct_pc (s : State) (bs : List Byte) (cfg : Configuration) : (s.construct bs cfg).pc = s.pc :=
  rfl
@[simp] theorem State.construct_pcs (s : State) (bs : List Byte) (cfg : Configuration) : (s.construct bs cfg).pcs = s.pcs :=
  rfl
@[simp] theorem State.construct_cs (s : State) (bs : List Byte) (cfg : Configuration) : (s.construct bs cfg).cs = s.cs :=
  rfl
@[simp] theorem State.construct_us (s : State) (bs : List Byte) (cfg : Configuration) : (s.construct bs cfg).us = s.us :=
  rfl
@[simp] theorem State.construct_steps (s : State) (bs : List Byte) (cfg : Configuration) : (s.construct bs cfg).steps = s.steps :=
  rfl
@[simp] theorem State.construct_flags (s : State) (bs : List Byte) (cfg : Configuration) : (s.construct bs cfg).flags = s.flags :=
  rfl
@[simp] theorem State.construct_sleepUntil (s : State) (bs : List Byte) (cfg : Configuration) : (s.construct bs cfg).sleepUntil = s.sleepUntil :=
  rfl
@[simp] theorem State.construct_legalTargets (s : State) (bs : List Byte) (cfg : Configuration) : (s.construct bs cfg).legalTargets = s.legalTargets :=
  rfl
@[simp] theorem State.construct_cfg (s : State) (bs : List Byte) (cfg : Configuration) : (s.construct bs cfg).cfg = cfg :=
  rfl
@[simp] theorem State.construct_code (s : State) (bs : List Byte) (cfg : Configuration) : (s.construct bs cfg).code = codeOf bs :=
  rfl
@[simp] theorem State.construct_data (s : State) (bs : List Byte) (cfg : Configuration) : (s.construct bs cfg).data = s.data :=
  rfl
@[simp] theorem State.construct_ext (s : State) (bs : List Byte) (cfg : Configuration) : (s.construct bs cfg).ext = s.ext :=
  rfl

/-! ### Flags -/

theorem State.served_flags (s : State) (req : ExtRequest) (r : ExtResponse) :
    (s.served req r).flags = (match r.flagWrite with | some w => putHostFlags s.flags w | none => s.flags) := rfl

/-- Setting a flag sets it and leaves every other one (45_system R191). -/
theorem flagAt_setFlag (f : FlagBits) (b c : Nat) (hb : b < 5) :
    flagAt (setFlag f b) c = (flagAt f c || decide (c = b)) := by
  have h : ∀ (f : FlagBits) (b c : Fin 5), (f ||| (1#5 <<< b.val)).getLsbD c.val = (f.getLsbD c.val || decide (c = b)) := by
    decide
  by_cases hc : c < 5
  · have := h f ⟨b, hb⟩ ⟨c, hc⟩
    simpa [flagAt, setFlag, Fin.ext_iff] using this
  · have : c ≠ b := by omega
    simp [flagAt, setFlag, BitVec.getLsbD_of_ge _ _ (Nat.le_of_not_lt hc), this]

/-- The host flag port leaves `stopped` and `terminated` (10_state R45). -/
theorem flagAt_putHostFlags_core (f : FlagBits) (w : HostFlags) (b : Nat) (hb : b = stoppedBit ∨ b = terminatedBit) :
    flagAt (putHostFlags f w) b = flagAt f b := by
  obtain ⟨p, x, y⟩ := w
  have h : ∀ (f : FlagBits) (p x y : Bool),
      flagAt (putHostFlags f ⟨p, x, y⟩) stoppedBit = flagAt f stoppedBit ∧
      flagAt (putHostFlags f ⟨p, x, y⟩) terminatedBit = flagAt f terminatedBit := by
    decide
  rcases hb with rfl | rfl
  · exact (h f p x y).1
  · exact (h f p x y).2

/-- The host flag port writes its own three flags (10_state R45). -/
theorem flagAt_putHostFlags_host (f : FlagBits) (w : HostFlags) :
    flagAt (putHostFlags f w) pausedBit = w.paused ∧ flagAt (putHostFlags f w) aZeroBit = w.aZero ∧
    flagAt (putHostFlags f w) bZeroBit = w.bZero := by
  obtain ⟨p, x, y⟩ := w
  have h : ∀ (f : FlagBits) (p x y : Bool),
      flagAt (putHostFlags f ⟨p, x, y⟩) pausedBit = p ∧ flagAt (putHostFlags f ⟨p, x, y⟩) aZeroBit = x ∧
      flagAt (putHostFlags f ⟨p, x, y⟩) bZeroBit = y := by
    decide
  exact h f p x y

/-- Serving an external call leaves `stopped` and `terminated` (46_external R200). -/
@[simp] theorem State.served_isStopped (s : State) (req : ExtRequest) (r : ExtResponse) :
    (s.served req r).isStopped = s.isStopped := by
  simp only [State.isStopped, State.served_flags]
  split
  · exact flagAt_putHostFlags_core _ _ _ (.inl rfl)
  · rfl

@[simp] theorem State.served_isTerminated (s : State) (req : ExtRequest) (r : ExtResponse) :
    (s.served req r).isTerminated = s.isTerminated := by
  simp only [State.isTerminated, State.served_flags]
  split
  · exact flagAt_putHostFlags_core _ _ _ (.inr rfl)
  · rfl

end Sys2Proof.Machine
end

