-- ==== Sys2Proof/Laws/Operands.lean ====
section
/-!
SUPPORT. For each operand form, one lemma per outcome that says once everything it can do: when it answers a next state,
when it ends in a fault, when it is refused; and what it is when its check passes.
-/

namespace Sys2Proof.Machine

@[simp] theorem raiseInvalid_eq (c : Cause) (s : State) : raiseInvalid c s = .fault (.invalid c s) := rfl

@[simp] theorem raiseOverflow_eq (c : Cause) (s : State) : raiseOverflow c s = .fault (.overflow c s) := rfl

@[simp] theorem raise_ne_next (cls : ErrClass) (c : Cause) (s t : State) : raise cls c s ≠ .next t := by
  cases cls <;> simp [raise]

@[simp] theorem raise_ne_refused (cls : ErrClass) (c : Cause) (s : State) (r : Refusal) : raise cls c s ≠ .refused r := by
  cases cls <;> simp [raise]


/-! ### A guard: one check, then the rest of the instruction -/

theorem guard_next {p : Prop} [Decidable p] {good : Result} {f₀ : Fault} {t : State} :
    (if p then good else .fault f₀) = .next t ↔ p ∧ good = .next t := by
  by_cases h : p <;> simp [h]

theorem guard_fault {p : Prop} [Decidable p] {good : Result} {f₀ f : Fault} :
    (if p then good else .fault f₀) = .fault f ↔ (¬ p ∧ f = f₀) ∨ (p ∧ good = .fault f) := by
  by_cases h : p <;> simp [h, eq_comm]

theorem guard_refused {p : Prop} [Decidable p] {good : Result} {f₀ : Fault} {r : Refusal} :
    (if p then good else .fault f₀) = .refused r ↔ p ∧ good = .refused r := by
  by_cases h : p <;> simp [h]

/-- The fault that `raise` ends in. -/
def faultOf (cls : ErrClass) (c : Cause) (s : State) : Fault :=
  match cls with
  | .overflow => .overflow c s
  | .invalid => .invalid c s

theorem raise_eq (cls : ErrClass) (c : Cause) (s : State) : raise cls c s = .fault (faultOf cls c s) := by
  cases cls <;> rfl

/-! ### A data slot read -/

theorem withSlot_pos (a : DataAddr) (s : State) (k : Slot → Result) (h : s.cfg.ValidData a.toInt) :
    withSlot a s k = k (s.slot a.toInt) := by
  simp [withSlot, h]

theorem withSlot_next (a : DataAddr) (s : State) (k : Slot → Result) (t : State) :
    withSlot a s k = .next t ↔ s.cfg.ValidData a.toInt ∧ k (s.slot a.toInt) = .next t := by
  rw [withSlot, raiseInvalid_eq, guard_next]

theorem withSlot_fault (a : DataAddr) (s : State) (k : Slot → Result) (f : Fault) :
    withSlot a s k = .fault f ↔
      (¬ s.cfg.ValidData a.toInt ∧ f = .invalid .dataAddress s) ∨ (s.cfg.ValidData a.toInt ∧ k (s.slot a.toInt) = .fault f) := by
  rw [withSlot, raiseInvalid_eq, guard_fault]

theorem withSlot_refused (a : DataAddr) (s : State) (k : Slot → Result) (r : Refusal) :
    withSlot a s k = .refused r ↔ s.cfg.ValidData a.toInt ∧ k (s.slot a.toInt) = .refused r := by
  rw [withSlot, raiseInvalid_eq, guard_refused]

/-! ### The indirect slot -/

theorem withIndirect_pos (a : Int) (s : State) (k : Slot → Result) (h : s.cfg.ValidData a) :
    withIndirect a s k = k (s.slot a) := by
  simp [withIndirect, h]

theorem withIndirect_next (a : Int) (s : State) (k : Slot → Result) (t : State) :
    withIndirect a s k = .next t ↔ s.cfg.ValidData a ∧ k (s.slot a) = .next t := by
  rw [withIndirect, raise_eq, guard_next]

theorem withIndirect_fault (a : Int) (s : State) (k : Slot → Result) (f : Fault) :
    withIndirect a s k = .fault f ↔
      (¬ s.cfg.ValidData a ∧ f = faultOf s.cfg.indirectFaultClass .indirectAddress s) ∨ (s.cfg.ValidData a ∧ k (s.slot a) = .fault f) := by
  rw [withIndirect, raise_eq, guard_fault]

theorem withIndirect_refused (a : Int) (s : State) (k : Slot → Result) (r : Refusal) :
    withIndirect a s k = .refused r ↔ s.cfg.ValidData a ∧ k (s.slot a) = .refused r := by
  rw [withIndirect, raise_eq, guard_refused]

/-! ### The legal-target test -/

theorem withTarget_pos (a : Int) (s : State) (k : Result) (h : s.IsTarget a) :
    withTarget a s k = k := by
  simp [withTarget, h]

theorem withTarget_next (a : Int) (s : State) (k : Result) (t : State) :
    withTarget a s k = .next t ↔ s.IsTarget a ∧ k = .next t := by
  rw [withTarget, raiseInvalid_eq, guard_next]

theorem withTarget_fault (a : Int) (s : State) (k : Result) (f : Fault) :
    withTarget a s k = .fault f ↔
      (¬ s.IsTarget a ∧ f = .invalid .unresolvedJump s) ∨ (s.IsTarget a ∧ k = .fault f) := by
  rw [withTarget, raiseInvalid_eq, guard_fault]

theorem withTarget_refused (a : Int) (s : State) (k : Result) (r : Refusal) :
    withTarget a s k = .refused r ↔ s.IsTarget a ∧ k = .refused r := by
  rw [withTarget, raiseInvalid_eq, guard_refused]

/-! ### A slot written -/

theorem store_pos (a : DataAddr) (v : Slot) (len : Nat) (s : State) (h : s.cfg.ValidData a.toInt) :
    store a v len s = .next ((s.setSlot a.toInt v).advance len) := by
  simp [store, h]

theorem store_next (a : DataAddr) (v : Slot) (len : Nat) (s t : State) :
    store a v len s = .next t ↔ s.cfg.ValidData a.toInt ∧ t = (s.setSlot a.toInt v).advance len := by
  rw [store, raiseInvalid_eq, guard_next]
  simp only [Host.Outcome.next.injEq, eq_comm]

theorem store_fault (a : DataAddr) (v : Slot) (len : Nat) (s : State) (f : Fault) :
    store a v len s = .fault f ↔ ¬ s.cfg.ValidData a.toInt ∧ f = .invalid .dataAddress s := by
  rw [store, raiseInvalid_eq, guard_fault]
  simp

theorem store_refused (a : DataAddr) (v : Slot) (len : Nat) (s : State) (r : Refusal) : store a v len s ≠ .refused r := by
  unfold store
  split <;> simp

/-! ### The stack checks -/

theorem withCallRoom_pos (s : State) (k : Result) (h : s.cs.toNat ≤ s.cfg.csCap) (h' : s.cs.toNat ≠ s.cfg.csCap) :
    withCallRoom s k = k := by
  simp [withCallRoom, Nat.not_lt.2 h, h']

theorem withCallRoom_next (s : State) (k : Result) (t : State) :
    withCallRoom s k = .next t ↔ s.cs.toNat ≤ s.cfg.csCap ∧ s.cs.toNat ≠ s.cfg.csCap ∧ k = .next t := by
  unfold withCallRoom
  split
  · simp only [reduceCtorEq, false_iff]
    omega
  · split <;> simp_all

theorem withCallRoom_fault (s : State) (k : Result) (f : Fault) :
    withCallRoom s k = .fault f ↔
      (s.cs.toNat ≤ s.cfg.csCap ∧ s.cs.toNat = s.cfg.csCap ∧ f = .overflow .callStackFull s) ∨
      (s.cs.toNat ≤ s.cfg.csCap ∧ s.cs.toNat ≠ s.cfg.csCap ∧ k = .fault f) := by
  unfold withCallRoom
  split
  · simp only [reduceCtorEq, false_iff]
    omega
  · split <;> simp_all [eq_comm]

theorem withCallRoom_refused (s : State) (k : Result) (r : Refusal) :
    withCallRoom s k = .refused r ↔
      (s.cfg.csCap < s.cs.toNat ∧ r = .callDepthIllegal) ∨
      (s.cs.toNat ≤ s.cfg.csCap ∧ s.cs.toNat ≠ s.cfg.csCap ∧ k = .refused r) := by
  unfold withCallRoom
  split
  · next h => simp [h, Nat.not_le.2 h, eq_comm]
  · next h =>
    have := Nat.not_lt.1 h
    split <;> simp_all

theorem withCallEntry_pos (s : State) (k : Result) (h : s.cs.toNat ≤ s.cfg.csCap) (h' : s.cs.toNat ≠ 0) :
    withCallEntry s k = k := by
  simp [withCallEntry, Nat.not_lt.2 h, h']

theorem withCallEntry_next (s : State) (k : Result) (t : State) :
    withCallEntry s k = .next t ↔ s.cs.toNat ≤ s.cfg.csCap ∧ s.cs.toNat ≠ 0 ∧ k = .next t := by
  unfold withCallEntry
  split
  · simp only [reduceCtorEq, false_iff]
    omega
  · split <;> simp_all

theorem withCallEntry_fault (s : State) (k : Result) (f : Fault) :
    withCallEntry s k = .fault f ↔
      (s.cs.toNat ≤ s.cfg.csCap ∧ s.cs.toNat = 0 ∧ f = .overflow .callStackEmpty s) ∨
      (s.cs.toNat ≤ s.cfg.csCap ∧ s.cs.toNat ≠ 0 ∧ k = .fault f) := by
  unfold withCallEntry
  by_cases h1 : s.cfg.csCap < s.cs.toNat
  · simp [h1, Nat.not_le.2 h1]
  · by_cases h2 : s.cs.toNat = 0
    · simp [h2, eq_comm]
    · simp [h1, h2, Nat.not_lt.1 h1]

theorem withCallEntry_refused (s : State) (k : Result) (r : Refusal) :
    withCallEntry s k = .refused r ↔
      (s.cfg.csCap < s.cs.toNat ∧ r = .callDepthIllegal) ∨
      (s.cs.toNat ≤ s.cfg.csCap ∧ s.cs.toNat ≠ 0 ∧ k = .refused r) := by
  unfold withCallEntry
  split
  · next h => simp [h, Nat.not_le.2 h, eq_comm]
  · next h =>
    have := Nat.not_lt.1 h
    split <;> simp_all

theorem withUserRoom_pos (s : State) (k : Result) (h : s.us.toNat ≤ s.cfg.usCap) (h' : s.us.toNat ≠ s.cfg.usCap) :
    withUserRoom s k = k := by
  simp [withUserRoom, Nat.not_lt.2 h, h']

theorem withUserRoom_next (s : State) (k : Result) (t : State) :
    withUserRoom s k = .next t ↔ s.us.toNat ≤ s.cfg.usCap ∧ s.us.toNat ≠ s.cfg.usCap ∧ k = .next t := by
  unfold withUserRoom
  split
  · simp only [reduceCtorEq, false_iff]
    omega
  · split <;> simp_all

theorem withUserRoom_fault (s : State) (k : Result) (f : Fault) :
    withUserRoom s k = .fault f ↔
      (s.us.toNat ≤ s.cfg.usCap ∧ s.us.toNat = s.cfg.usCap ∧ f = .overflow .userStackFull s) ∨
      (s.us.toNat ≤ s.cfg.usCap ∧ s.us.toNat ≠ s.cfg.usCap ∧ k = .fault f) := by
  unfold withUserRoom
  split
  · simp only [reduceCtorEq, false_iff]
    omega
  · split <;> simp_all [eq_comm]

theorem withUserRoom_refused (s : State) (k : Result) (r : Refusal) :
    withUserRoom s k = .refused r ↔
      (s.cfg.usCap < s.us.toNat ∧ r = .userDepthIllegal) ∨
      (s.us.toNat ≤ s.cfg.usCap ∧ s.us.toNat ≠ s.cfg.usCap ∧ k = .refused r) := by
  unfold withUserRoom
  split
  · next h => simp [h, Nat.not_le.2 h, eq_comm]
  · next h =>
    have := Nat.not_lt.1 h
    split <;> simp_all

theorem withUserEntry_pos (s : State) (k : Result) (h : s.us.toNat ≤ s.cfg.usCap) (h' : s.us.toNat ≠ 0) :
    withUserEntry s k = k := by
  simp [withUserEntry, Nat.not_lt.2 h, h']

theorem withUserEntry_next (s : State) (k : Result) (t : State) :
    withUserEntry s k = .next t ↔ s.us.toNat ≤ s.cfg.usCap ∧ s.us.toNat ≠ 0 ∧ k = .next t := by
  unfold withUserEntry
  split
  · simp only [reduceCtorEq, false_iff]
    omega
  · split <;> simp_all

theorem withUserEntry_fault (s : State) (k : Result) (f : Fault) :
    withUserEntry s k = .fault f ↔
      (s.us.toNat ≤ s.cfg.usCap ∧ s.us.toNat = 0 ∧ f = .overflow .userStackEmpty s) ∨
      (s.us.toNat ≤ s.cfg.usCap ∧ s.us.toNat ≠ 0 ∧ k = .fault f) := by
  unfold withUserEntry
  by_cases h1 : s.cfg.usCap < s.us.toNat
  · simp [h1, Nat.not_le.2 h1]
  · by_cases h2 : s.us.toNat = 0
    · simp [h2, eq_comm]
    · simp [h1, h2, Nat.not_lt.1 h1]

theorem withUserEntry_refused (s : State) (k : Result) (r : Refusal) :
    withUserEntry s k = .refused r ↔
      (s.cfg.usCap < s.us.toNat ∧ r = .userDepthIllegal) ∨
      (s.us.toNat ≤ s.cfg.usCap ∧ s.us.toNat ≠ 0 ∧ k = .refused r) := by
  unfold withUserEntry
  split
  · next h => simp [h, Nat.not_le.2 h, eq_comm]
  · next h =>
    have := Nat.not_lt.1 h
    split <;> simp_all

/-! ### The branch rule -/

theorem branch_next (c : Bool) (off : Offset) (len : Nat) (s t : State) :
    branch c off len s = .next t ↔
      (c = true ∧ s.IsTarget (s.pc.toNat + off.toInt) ∧ t = s.jumpTo (s.pc.toNat + off.toInt)) ∨
      (c = false ∧ t = s.advance len) := by
  cases c
  · simp [branch, eq_comm]
  · simp only [branch, if_true, withTarget_next, Host.Outcome.next.injEq]
    simp [eq_comm]

theorem branch_fault (c : Bool) (off : Offset) (len : Nat) (s : State) (f : Fault) :
    branch c off len s = .fault f ↔
      c = true ∧ ¬ s.IsTarget (s.pc.toNat + off.toInt) ∧ f = .invalid .unresolvedJump s := by
  unfold branch
  cases c
  · simp
  · simp [withTarget_fault]

theorem branch_refused (c : Bool) (off : Offset) (len : Nat) (s : State) (r : Refusal) :
    branch c off len s ≠ .refused r := by
  unfold branch
  cases c
  · simp
  · simp [withTarget_refused]

/-! ### The external call -/

theorem extCall_pos (req : ExtRequest) (s : State) (k : Slot → State → Result) (h : (s.extAnswer req).ok = true) :
    extCall req s k = k (s.extAnswer req).value (s.served req (s.extAnswer req)) := by
  simp [extCall, h]

theorem extCall_next (req : ExtRequest) (s : State) (k : Slot → State → Result) (t : State) :
    extCall req s k = .next t ↔
      (s.extAnswer req).ok = true ∧ k (s.extAnswer req).value (s.served req (s.extAnswer req)) = .next t := by
  simp only [extCall]
  split <;> simp_all

theorem extCall_fault (req : ExtRequest) (s : State) (k : Slot → State → Result) (f : Fault) :
    extCall req s k = .fault f ↔
      ((s.extAnswer req).ok = false ∧ f = .invalid .extCallRejected (s.served req (s.extAnswer req))) ∨
      ((s.extAnswer req).ok = true ∧ k (s.extAnswer req).value (s.served req (s.extAnswer req)) = .fault f) := by
  simp only [extCall, raiseInvalid_eq, guard_fault, Bool.not_eq_true]

theorem extCall_refused (req : ExtRequest) (s : State) (k : Slot → State → Result) (r : Refusal) :
    extCall req s k = .refused r ↔
      (s.extAnswer req).ok = true ∧ k (s.extAnswer req).value (s.served req (s.extAnswer req)) = .refused r := by
  simp only [extCall]
  split <;> simp_all

/-! ### The quotient -/

theorem withQuotient_next (x y : Slot) (s : State) (k : Slot → Result) (t : State) :
    withQuotient x y s k = .next t ↔
      y.toInt ≠ 0 ∧
      ((x.toInt = int64Min ∧ y.toInt = -1 ∧ s.cfg.divMinNeg1 = .wrap ∧ k (wrap64 int64Min) = .next t) ∨
       (¬ (x.toInt = int64Min ∧ y.toInt = -1) ∧ k (aluQuot x y) = .next t)) := by
  unfold withQuotient
  by_cases hy : y.toInt = 0
  · simp [hy]
  · by_cases hc : x.toInt = int64Min ∧ y.toInt = -1
    · cases hd : s.cfg.divMinNeg1 <;> simp [hc.1, hc.2]
    · simp only [ne_eq, hy, not_false_eq_true, hc, true_and]
      exact ⟨.inr, fun h => h.elim (fun h => absurd ⟨h.1, h.2.1⟩ hc) id⟩

theorem withQuotient_fault (x y : Slot) (s : State) (k : Slot → Result) (f : Fault) :
    withQuotient x y s k = .fault f ↔
      (y.toInt = 0 ∧ f = .invalid .divisionByZero s) ∨
      (y.toInt ≠ 0 ∧ x.toInt = int64Min ∧ y.toInt = -1 ∧ s.cfg.divMinNeg1 = .invalid ∧
        f = .invalid .divisionOverflow s) ∨
      (y.toInt ≠ 0 ∧ x.toInt = int64Min ∧ y.toInt = -1 ∧ s.cfg.divMinNeg1 = .wrap ∧ k (wrap64 int64Min) = .fault f) ∨
      (y.toInt ≠ 0 ∧ ¬ (x.toInt = int64Min ∧ y.toInt = -1) ∧ k (aluQuot x y) = .fault f) := by
  unfold withQuotient
  by_cases hy : y.toInt = 0
  · simp [hy, eq_comm]
  · by_cases hc : x.toInt = int64Min ∧ y.toInt = -1
    · cases hd : s.cfg.divMinNeg1 <;> simp [hc.1, hc.2, eq_comm]
    · simp only [ne_eq, hy, not_false_eq_true, hc, true_and, false_and, false_or]
      refine ⟨fun h => .inr (.inr h), ?_⟩
      rintro (h | h | h)
      · exact absurd ⟨h.1, h.2.1⟩ hc
      · exact absurd ⟨h.1, h.2.1⟩ hc
      · exact h

theorem withQuotient_refused (x y : Slot) (s : State) (k : Slot → Result) (r : Refusal) :
    withQuotient x y s k = .refused r ↔
      y.toInt ≠ 0 ∧
      ((x.toInt = int64Min ∧ y.toInt = -1 ∧ s.cfg.divMinNeg1 = .wrap ∧ k (wrap64 int64Min) = .refused r) ∨
       (¬ (x.toInt = int64Min ∧ y.toInt = -1) ∧ k (aluQuot x y) = .refused r)) := by
  unfold withQuotient
  by_cases hy : y.toInt = 0
  · simp [hy]
  · by_cases hc : x.toInt = int64Min ∧ y.toInt = -1
    · cases hd : s.cfg.divMinNeg1 <;> simp [hc.1, hc.2]
    · simp only [ne_eq, hy, not_false_eq_true, hc, true_and]
      exact ⟨.inr, fun h => h.elim (fun h => absurd ⟨h.1, h.2.1⟩ hc) id⟩

end Sys2Proof.Machine
end

