-- ==== Sys2Proof/Laws/Exec.lean ====
section
/-!
SUPPORT. Each instruction as its operand forms, one lemma per constructor, so that no later proof unfolds a meaning; and
the arithmetic of a slot as the 64-bit operations it equals (42_arithmetic R160).
-/

namespace Sys2Proof.Machine

/-! ### Arithmetic -/

theorem aluAdd_eq (x y : Slot) : aluAdd x y = x + y := by
  simp [aluAdd, wrap64, BitVec.ofInt_add]

theorem aluSub_eq (x y : Slot) : aluSub x y = x - y := by
  apply BitVec.eq_of_toInt_eq
  simp [aluSub, wrap64, BitVec.toInt_sub, BitVec.toInt_ofInt]

theorem aluMul_eq (x y : Slot) : aluMul x y = x * y := by
  simp [aluMul, wrap64, BitVec.ofInt_mul]

/-- The quotient is exact but for `INT64_MIN / -1` (42_arithmetic R160). -/
theorem aluQuot_toInt (x y : Slot) (hy : y.toInt ≠ 0) (hc : ¬ (x.toInt = int64Min ∧ y.toInt = -1)) :
    (aluQuot x y).toInt = x.toInt.tdiv y.toInt := by
  rw [aluQuot, wrap64, BitVec.toInt_ofInt]
  have hx1 := BitVec.le_toInt x
  have hx2 := BitVec.toInt_lt (x := x)
  have hab : (x.toInt.tdiv y.toInt).natAbs ≤ x.toInt.natAbs := by
    rw [Int.natAbs_tdiv]
    exact Nat.div_le_self _ _
  simp only [int64Min] at hc
  apply Int.bmod_eq_of_le
  · omega
  · by_cases hx : x.toInt = -9223372036854775808
    · by_cases h1 : y.toInt = 1
      · rw [h1, hx]
        decide
      · have : (x.toInt.tdiv y.toInt).natAbs ≤ x.toInt.natAbs / 2 := by
          rw [Int.natAbs_tdiv]
          exact Nat.div_le_div_left (by omega) (by omega)
        omega
    · omega

/-! ### Data movement -/

theorem exec_nop (k : Nat) (s : State) : exec (.nop k) s = .next (s.advance k) := rfl

theorem exec_setVal (a : DataAddr) (v : Slot) (s : State) : exec (.setVal a v) s = store a v 13 s := rfl

theorem exec_setDat (a b : DataAddr) (s : State) : exec (.setDat a b) s = withSlot b s fun y => store a y 9 s := rfl

theorem exec_setInd (a b : DataAddr) (s : State) :
    exec (.setInd a b) s = withSlot b s fun p => withIndirect p.toInt s fun v => store a v 9 s := rfl

theorem exec_setIdx (a b c : DataAddr) (s : State) :
    exec (.setIdx a b c) s = withSlot b s fun base => withSlot c s fun index =>
      withIndirect (base.toInt + index.toInt) s fun v => store a v 13 s := rfl

theorem exec_clrDat (a : DataAddr) (s : State) : exec (.clrDat a) s = store a 0#64 5 s := rfl

theorem exec_incDat (a : DataAddr) (s : State) : exec (.incDat a) s = withSlot a s fun x => store a (x + 1#64) 5 s := by
  simp only [← aluAdd_eq]
  rfl

theorem exec_decDat (a : DataAddr) (s : State) : exec (.decDat a) s = withSlot a s fun x => store a (x - 1#64) 5 s := by
  simp only [← aluSub_eq]
  rfl

theorem exec_notDat (a : DataAddr) (s : State) : exec (.notDat a) s = withSlot a s fun x => store a (~~~x) 5 s := rfl

/-! ### Binary arithmetic and bitwise operations -/

theorem exec_addDat (a b : DataAddr) (s : State) :
    exec (.addDat a b) s = withSlot a s fun x => withSlot b s fun y => store a (x + y) 9 s := by
  simp only [← aluAdd_eq]
  rfl

theorem exec_subDat (a b : DataAddr) (s : State) :
    exec (.subDat a b) s = withSlot a s fun x => withSlot b s fun y => store a (x - y) 9 s := by
  simp only [← aluSub_eq]
  rfl

theorem exec_mulDat (a b : DataAddr) (s : State) :
    exec (.mulDat a b) s = withSlot a s fun x => withSlot b s fun y => store a (x * y) 9 s := by
  simp only [← aluMul_eq]
  rfl

theorem exec_divDat (a b : DataAddr) (s : State) :
    exec (.divDat a b) s = withSlot b s fun y => withSlot a s fun x => withQuotient x y s fun q => store a q 9 s := rfl

theorem exec_borDat (a b : DataAddr) (s : State) :
    exec (.borDat a b) s = withSlot a s fun x => withSlot b s fun y => store a (x ||| y) 9 s := rfl

theorem exec_andDat (a b : DataAddr) (s : State) :
    exec (.andDat a b) s = withSlot a s fun x => withSlot b s fun y => store a (x &&& y) 9 s := rfl

theorem exec_xorDat (a b : DataAddr) (s : State) :
    exec (.xorDat a b) s = withSlot a s fun x => withSlot b s fun y => store a (x ^^^ y) 9 s := rfl

/-! ### Stack -/

theorem exec_pshDat (a : DataAddr) (s : State) :
    exec (.pshDat a) s = withUserRoom s (withSlot a s fun v => .next ((s.pushUser v).advance 5)) := rfl

theorem exec_popDat (a : DataAddr) (s : State) :
    exec (.popDat a) s = withUserEntry s (withSlot a s fun _ => store a s.topUser 5 s.dropUser) := rfl

/-! ### Control -/

theorem exec_jmpSub (c : CodeAddr) (s : State) :
    exec (.jmpSub c) s = withCallRoom s (withTarget c.toInt s
      (.next ((s.pushCall (BitVec.ofNat 64 (s.pc.toNat + 5))).jumpTo c.toInt))) := rfl

theorem exec_retSub (s : State) :
    exec .retSub s = withCallEntry s (withTarget s.topCall.toInt s.dropCall
      (.next (s.dropCall.jumpTo s.topCall.toInt))) := rfl

theorem exec_jmpAdr (c : CodeAddr) (s : State) :
    exec (.jmpAdr c) s = withTarget c.toInt s (.next (s.jumpTo c.toInt)) := rfl

theorem exec_bzrDat (a : DataAddr) (off : Offset) (s : State) :
    exec (.bzrDat a off) s = withSlot a s fun x => branch (decide (x.toInt = 0)) off 6 s := rfl

theorem exec_bnzDat (a : DataAddr) (off : Offset) (s : State) :
    exec (.bnzDat a off) s = withSlot a s fun x => branch (decide (x.toInt ≠ 0)) off 6 s := rfl

theorem exec_bgtDat (a b : DataAddr) (off : Offset) (s : State) :
    exec (.bgtDat a b off) s =
      withSlot a s fun x => withSlot b s fun y => branch (decide (x.toInt > y.toInt)) off 10 s := rfl

theorem exec_bltDat (a b : DataAddr) (off : Offset) (s : State) :
    exec (.bltDat a b off) s =
      withSlot a s fun x => withSlot b s fun y => branch (decide (x.toInt < y.toInt)) off 10 s := rfl

theorem exec_bgeDat (a b : DataAddr) (off : Offset) (s : State) :
    exec (.bgeDat a b off) s =
      withSlot a s fun x => withSlot b s fun y => branch (decide (x.toInt ≥ y.toInt)) off 10 s := rfl

theorem exec_bleDat (a b : DataAddr) (off : Offset) (s : State) :
    exec (.bleDat a b off) s =
      withSlot a s fun x => withSlot b s fun y => branch (decide (x.toInt ≤ y.toInt)) off 10 s := rfl

theorem exec_beqDat (a b : DataAddr) (off : Offset) (s : State) :
    exec (.beqDat a b off) s =
      withSlot a s fun x => withSlot b s fun y => branch (decide (x.toInt = y.toInt)) off 10 s := rfl

theorem exec_bneDat (a b : DataAddr) (off : Offset) (s : State) :
    exec (.bneDat a b off) s =
      withSlot a s fun x => withSlot b s fun y => branch (decide (x.toInt ≠ y.toInt)) off 10 s := rfl

/-! ### System -/

theorem exec_slpDat (a : DataAddr) (s : State) :
    exec (.slpDat a) s = withSlot a s fun v => .next ({ s with sleepUntil := v }.advance 5) := rfl

theorem exec_fizDat (a : DataAddr) (s : State) :
    exec (.fizDat a) s = withSlot a s fun x => if x.toInt = 0 then .next s.terminate else .next (s.advance 5) := rfl

theorem exec_stzDat (a : DataAddr) (s : State) :
    exec (.stzDat a) s = withSlot a s fun x => if x.toInt = 0 then .next (s.stop 5) else .next (s.advance 5) := rfl

theorem exec_finImd (s : State) : exec .finImd s = .next s.terminate := rfl

theorem exec_stpImd (s : State) : exec .stpImd s = .next (s.stop 1) := rfl

theorem exec_setPcs (s : State) : exec .setPcs s = .next ({ s with pcs := s.pc + 1#32 }.advance 1) := rfl

/-! ### External calls -/

theorem exec_extFun (fn : FunId) (s : State) :
    exec (.extFun fn) s = extCall ⟨fn, [], false⟩ s fun _ t => .next (t.advance 3) := rfl

theorem exec_extFunDat (fn : FunId) (a : DataAddr) (s : State) :
    exec (.extFunDat fn a) s = withSlot a s fun x => extCall ⟨fn, [x], false⟩ s fun _ t => .next (t.advance 7) := rfl

theorem exec_extFunDat2 (fn : FunId) (a b : DataAddr) (s : State) :
    exec (.extFunDat2 fn a b) s = withSlot a s fun x => withSlot b s fun y =>
      extCall ⟨fn, [x, y], false⟩ s fun _ t => .next (t.advance 11) := rfl

theorem exec_extFunRet (fn : FunId) (a : DataAddr) (s : State) :
    exec (.extFunRet fn a) s = withSlot a s fun _ => extCall ⟨fn, [], true⟩ s fun v t => store a v 7 t := rfl

theorem exec_extFunRetDat (fn : FunId) (a b : DataAddr) (s : State) :
    exec (.extFunRetDat fn a b) s = withSlot a s fun _ => withSlot b s fun x =>
      extCall ⟨fn, [x], true⟩ s fun v t => store a v 11 t := rfl

theorem exec_extFunRetDat2 (fn : FunId) (a b c : DataAddr) (s : State) :
    exec (.extFunRetDat2 fn a b c) s = withSlot a s fun _ => withSlot b s fun x => withSlot c s fun y =>
      extCall ⟨fn, [x, y], true⟩ s fun v t => store a v 15 t := rfl

end Sys2Proof.Machine
end

