-- ==== Sys2Proof/Laws/Effect.lean ====
section
/-!
SUPPORT. Once and for all instructions, everything exec can do: the next states it can answer (`Effect`), the errors it
can end in (`Failure`) and when it is refused; and the same for a step. Later proofs split on these few cases and unfold
no meaning.
-/

namespace Sys2Proof.Machine

/-! ### Next states -/

/-- The next states an instruction can answer, by what it changes. -/
inductive Effect (i : Instr) (s : State) : State → Prop
  /-- It stores a value in its destination slot. -/
  | stored (a : DataAddr) (v : Slot) (hi : i.storesTo = some a) (hn : i.opcode ≠ .popDat) (he : i.isExternal = false)
      (hp : i.pcAfter i.length s = s.pc.toNat + i.length) (ha : s.cfg.ValidData a.toInt) :
      Effect i s ((s.setSlot a.toInt v).advance i.length)
  /-- It pops the user stack into its destination slot. -/
  | popped (a : DataAddr) (hi : i = .popDat a) (h0 : s.us.toNat ≠ 0) (hu : s.us.toNat ≤ s.cfg.usCap)
      (ha : s.cfg.ValidData a.toInt) : Effect i s ((s.dropUser.setSlot a.toInt s.topUser).advance 5)
  /-- It pushes a slot on the user stack. -/
  | pushed (a : DataAddr) (hi : i = .pshDat a) (hu : s.us.toNat < s.cfg.usCap) (ha : s.cfg.ValidData a.toInt) :
      Effect i s ((s.pushUser (s.slot a.toInt)).advance 5)
  /-- It calls a subroutine. -/
  | called (c : CodeAddr) (hi : i = .jmpSub c) (hu : s.cs.toNat < s.cfg.csCap) (ht : s.IsTarget c.toInt) :
      Effect i s ((s.pushCall (BitVec.ofNat 64 (s.pc.toNat + 5))).jumpTo c.toInt)
  /-- It returns from a subroutine. -/
  | returned (hi : i = .retSub) (h0 : s.cs.toNat ≠ 0) (hu : s.cs.toNat ≤ s.cfg.csCap) (ht : s.IsTarget s.topCall.toInt) :
      Effect i s (s.dropCall.jumpTo s.topCall.toInt)
  /-- It jumps, or branches. -/
  | jumped (d : Int) (hd : i.transferTo s = some d) (hs : i.opcode ∉ [.jmpSub, .retSub]) (hn : i.storesTo = none)
      (he : i.isExternal = false) (ht : s.IsTarget d) : Effect i s (s.jumpTo d)
  /-- It moves on. -/
  | moved (hd : i.transferTo s = none) (hp : i.pcAfter i.length s = s.pc.toNat + i.length) (hn : i.storesTo = none)
      (he : i.isExternal = false) (ho : i.opcode ∉ [.pshDat, .slpDat, .finImd, .stpImd, .setPcs]) :
      Effect i s (s.advance i.length)
  /-- It sets the sleep threshold. -/
  | slept (a : DataAddr) (hi : i = .slpDat a) : Effect i s (State.advance { s with sleepUntil := s.slot a.toInt } 5)
  /-- It terminates. -/
  | terminated (hi : i = .finImd ∨ ∃ a, i = .fizDat a ∧ (s.slot a.toInt).toInt = 0) : Effect i s s.terminate
  /-- It stops. -/
  | stopped (hi : i = .stpImd ∨ ∃ a, i = .stzDat a ∧ (s.slot a.toInt).toInt = 0) : Effect i s (s.stop i.length)
  /-- It moves the restart point. -/
  | restarted (hi : i = .setPcs) : Effect i s (State.advance { s with pcs := s.pc + 1#32 } 1)
  /-- It calls the host and wants nothing back. -/
  | sent (req : ExtRequest) (he : i.isExternal = true) (hn : i.storesTo = none)
      (hp : i.pcAfter i.length s = s.pc.toNat + i.length)
      (hok : (s.extAnswer req).ok = true) : Effect i s ((s.served req (s.extAnswer req)).advance i.length)
  /-- It calls the host and stores the returned value in its destination slot. -/
  | answered (req : ExtRequest) (a : DataAddr) (he : i.isExternal = true) (hn : i.storesTo = some a)
      (hp : i.pcAfter i.length s = s.pc.toNat + i.length)
      (hok : (s.extAnswer req).ok = true) (ha : s.cfg.ValidData a.toInt) :
      Effect i s (((s.served req (s.extAnswer req)).setSlot a.toInt (s.extAnswer req).value).advance i.length)

theorem effect_store {i : Instr} {s t : State} {a : DataAddr} {v : Slot} (hi : i.storesTo = some a)
    (hn : i.opcode ≠ .popDat) (he : i.isExternal = false) (hp : i.pcAfter i.length s = s.pc.toNat + i.length)
    (h : store a v i.length s = .next t) : Effect i s t := by
  obtain ⟨ha, rfl⟩ := (store_next _ _ _ _ _).1 h
  exact .stored a v hi hn he hp ha

/-- An instruction that makes no transfer and does not terminate moves on by its length (40_engine R117). -/
theorem pcAfter_of_none {i : Instr} {s : State} (h : i.transferTo s = none) (h1 : i ≠ .finImd) (h2 : i.opcode ≠ .fizDat) :
    i.pcAfter i.length s = s.pc.toNat + i.length := by
  simp only [Instr.pcAfter, h]
  split
  · exact absurd rfl h1
  · exact absurd rfl h2
  · rfl

theorem pcAfter_fizDat (a : DataAddr) (len : Nat) (s : State) :
    (Instr.fizDat a).pcAfter len s = if (s.slot a.toInt).toInt = 0 then (s.pcs.toNat : Int) else s.pc.toNat + len := rfl

theorem transferTo_taken {i : Instr} {s : State} {off : Offset} (h : i.branch s = some (true, off)) :
    i.transferTo s = some (s.pc.toNat + off.toInt) := by
  rw [Instr.transferTo, h]

theorem transferTo_untaken {i : Instr} {s : State} {off : Offset} (h : i.branch s = some (false, off)) :
    i.transferTo s = none := by
  rw [Instr.transferTo, h]

theorem effect_branch {i : Instr} {s t : State} {c : Bool} {off : Offset} (hb : i.branch s = some (c, off))
    (h1 : i ≠ .finImd) (h2 : i.opcode ≠ .fizDat) (hn : i.storesTo = none) (he : i.isExternal = false)
    (ho : i.opcode ∉ [.pshDat, .slpDat, .finImd, .stpImd, .setPcs, .jmpSub, .retSub])
    (h : branch c off i.length s = .next t) : Effect i s t := by
  simp only [List.mem_cons, not_or] at ho
  obtain ⟨rfl, ht, rfl⟩ | ⟨rfl, rfl⟩ := (branch_next _ _ _ _ _).1 h
  · exact .jumped _ (transferTo_taken hb) (by simp [ho]) hn he ht
  · have h0 := transferTo_untaken hb
    exact .moved h0 (pcAfter_of_none h0 h1 h2) hn he (by simp [ho])

/-- Every next state exec can answer. -/
theorem exec_effect {i : Instr} {s t : State} (h : exec i s = .next t) : Effect i s t := by
  cases i
  case nop k =>
    obtain rfl := Host.Outcome.next.inj h
    exact .moved rfl rfl rfl rfl (by simp [Instr.opcode])
  case setVal a v => exact effect_store rfl nofun rfl rfl h
  case clrDat a => exact effect_store rfl nofun rfl rfl h
  case setDat a b =>
    rw [exec_setDat, withSlot_next] at h
    exact effect_store rfl nofun rfl rfl h.2
  case incDat a =>
    rw [exec_incDat, withSlot_next] at h
    exact effect_store rfl nofun rfl rfl h.2
  case decDat a =>
    rw [exec_decDat, withSlot_next] at h
    exact effect_store rfl nofun rfl rfl h.2
  case notDat a =>
    rw [exec_notDat, withSlot_next] at h
    exact effect_store rfl nofun rfl rfl h.2
  case addDat a b =>
    rw [exec_addDat, withSlot_next, withSlot_next] at h
    exact effect_store rfl nofun rfl rfl h.2.2
  case subDat a b =>
    rw [exec_subDat, withSlot_next, withSlot_next] at h
    exact effect_store rfl nofun rfl rfl h.2.2
  case mulDat a b =>
    rw [exec_mulDat, withSlot_next, withSlot_next] at h
    exact effect_store rfl nofun rfl rfl h.2.2
  case borDat a b =>
    rw [exec_borDat, withSlot_next, withSlot_next] at h
    exact effect_store rfl nofun rfl rfl h.2.2
  case andDat a b =>
    rw [exec_andDat, withSlot_next, withSlot_next] at h
    exact effect_store rfl nofun rfl rfl h.2.2
  case xorDat a b =>
    rw [exec_xorDat, withSlot_next, withSlot_next] at h
    exact effect_store rfl nofun rfl rfl h.2.2
  case divDat a b =>
    rw [exec_divDat, withSlot_next, withSlot_next, withQuotient_next] at h
    obtain ⟨-, -, -, ⟨-, -, -, h⟩ | ⟨-, h⟩⟩ := h
    · exact effect_store rfl nofun rfl rfl h
    · exact effect_store rfl nofun rfl rfl h
  case setInd a b =>
    rw [exec_setInd, withSlot_next, withIndirect_next] at h
    exact effect_store rfl nofun rfl rfl h.2.2
  case setIdx a b c =>
    rw [exec_setIdx, withSlot_next, withSlot_next, withIndirect_next] at h
    exact effect_store rfl nofun rfl rfl h.2.2.2
  case pshDat a =>
    rw [exec_pshDat, withUserRoom_next, withSlot_next] at h
    obtain ⟨hu, hne, ha, h⟩ := h
    obtain rfl := Host.Outcome.next.inj h
    exact .pushed a rfl (by omega) ha
  case popDat a =>
    rw [exec_popDat, withUserEntry_next, withSlot_next, store_next] at h
    obtain ⟨hu, h0, ha, -, rfl⟩ := h
    exact .popped a rfl h0 hu ha
  case jmpSub c =>
    rw [exec_jmpSub, withCallRoom_next, withTarget_next] at h
    obtain ⟨hu, hne, ht, h⟩ := h
    obtain rfl := Host.Outcome.next.inj h
    exact .called c rfl (by omega) ht
  case retSub =>
    rw [exec_retSub, withCallEntry_next, withTarget_next] at h
    obtain ⟨hu, h0, ht, h⟩ := h
    obtain rfl := Host.Outcome.next.inj h
    exact .returned rfl h0 hu ht
  case jmpAdr c =>
    rw [exec_jmpAdr, withTarget_next] at h
    obtain ⟨ht, h⟩ := h
    obtain rfl := Host.Outcome.next.inj h
    exact .jumped _ rfl (by simp [Instr.opcode]) rfl rfl ht
  case bzrDat a off | bnzDat a off =>
    simp only [exec_bzrDat, exec_bnzDat, withSlot_next] at h
    exact effect_branch rfl nofun nofun rfl rfl (by simp [Instr.opcode]) h.2
  case bgtDat a b off | bltDat a b off | bgeDat a b off | bleDat a b off | beqDat a b off | bneDat a b off =>
    simp only [exec_bgtDat, exec_bltDat, exec_bgeDat, exec_bleDat, exec_beqDat, exec_bneDat, withSlot_next] at h
    exact effect_branch rfl nofun nofun rfl rfl (by simp [Instr.opcode]) h.2.2
  case slpDat a =>
    rw [exec_slpDat, withSlot_next] at h
    obtain ⟨-, h⟩ := h
    obtain rfl := Host.Outcome.next.inj h
    exact .slept a rfl
  case fizDat a =>
    rw [exec_fizDat, withSlot_next] at h
    obtain ⟨-, h⟩ := h
    split at h
    · next hz =>
      obtain rfl := Host.Outcome.next.inj h
      exact .terminated (.inr ⟨a, rfl, hz⟩)
    · next hz =>
      obtain rfl := Host.Outcome.next.inj h
      refine .moved rfl ?_ rfl rfl (by simp [Instr.opcode])
      rw [pcAfter_fizDat, if_neg hz]
  case stzDat a =>
    rw [exec_stzDat, withSlot_next] at h
    obtain ⟨-, h⟩ := h
    split at h
    · next hz =>
      obtain rfl := Host.Outcome.next.inj h
      exact .stopped (.inr ⟨a, rfl, hz⟩)
    · cases h
      exact .moved rfl rfl rfl rfl (by simp [Instr.opcode])
  case finImd =>
    obtain rfl := Host.Outcome.next.inj h
    exact .terminated (.inl rfl)
  case stpImd =>
    obtain rfl := Host.Outcome.next.inj h
    exact .stopped (.inl rfl)
  case setPcs =>
    obtain rfl := Host.Outcome.next.inj h
    exact .restarted rfl
  case extFun fn =>
    rw [exec_extFun, extCall_next] at h
    obtain ⟨hok, h⟩ := h
    obtain rfl := Host.Outcome.next.inj h
    exact .sent _ rfl rfl rfl hok
  case extFunDat fn a =>
    rw [exec_extFunDat, withSlot_next, extCall_next] at h
    obtain ⟨-, hok, h⟩ := h
    obtain rfl := Host.Outcome.next.inj h
    exact .sent _ rfl rfl rfl hok
  case extFunDat2 fn a b =>
    rw [exec_extFunDat2, withSlot_next, withSlot_next, extCall_next] at h
    obtain ⟨-, -, hok, h⟩ := h
    obtain rfl := Host.Outcome.next.inj h
    exact .sent _ rfl rfl rfl hok
  case extFunRet fn a =>
    rw [exec_extFunRet, withSlot_next, extCall_next, store_next] at h
    obtain ⟨ha, hok, -, rfl⟩ := h
    exact .answered _ a rfl rfl rfl hok ha
  case extFunRetDat fn a b =>
    rw [exec_extFunRetDat, withSlot_next, withSlot_next, extCall_next, store_next] at h
    obtain ⟨ha, -, hok, -, rfl⟩ := h
    exact .answered _ a rfl rfl rfl hok ha
  case extFunRetDat2 fn a b c =>
    rw [exec_extFunRetDat2, withSlot_next, withSlot_next, withSlot_next, extCall_next, store_next] at h
    obtain ⟨ha, -, -, hok, -, rfl⟩ := h
    exact .answered _ a rfl rfl rfl hok ha

/-! ### Errors -/

/-- The errors an instruction can end in, by the state it leaves (40_engine R116). -/
inductive Failure (i : Instr) (s : State) : Fault → Prop
  /-- Nothing is changed. -/
  | plain (cls : ErrClass) (c : Cause) (hc : c ≠ .extCallRejected) (hr : i = .retSub → c ≠ .unresolvedJump) :
      Failure i s (faultOf cls c s)
  /-- RET_SUB to an illegal target keeps the decrement of `cs`. -/
  | returned (hi : i = .retSub) (h0 : s.cs.toNat ≠ 0) (hu : s.cs.toNat ≤ s.cfg.csCap) :
      Failure i s (.invalid .unresolvedJump s.dropCall)
  /-- The host rejects a call. -/
  | rejected (req : ExtRequest) (he : i.isExternal = true) :
      Failure i s (.invalid .extCallRejected (s.served req (s.extAnswer req)))

theorem Failure.ofStore {i : Instr} {s : State} {f : Fault} {a : DataAddr} {v : Slot} {len : Nat}
    (h : store a v len s = .fault f) : Failure i s f := by
  obtain ⟨-, rfl⟩ := (store_fault _ _ _ _ _).1 h
  exact .plain .invalid .dataAddress nofun nofun

theorem Failure.ofSlot {i : Instr} {s : State} {f : Fault} {a : DataAddr} {k : Slot → Result}
    (h : withSlot a s k = .fault f) (hk : s.cfg.ValidData a.toInt → k (s.slot a.toInt) = .fault f → Failure i s f) :
    Failure i s f := by
  obtain ⟨-, rfl⟩ | ⟨ha, h⟩ := (withSlot_fault _ _ _ _).1 h
  · exact .plain .invalid .dataAddress nofun nofun
  · exact hk ha h

theorem Failure.ofIndirect {i : Instr} {s : State} {f : Fault} {a : Int} {k : Slot → Result}
    (h : withIndirect a s k = .fault f) (hk : k (s.slot a) = .fault f → Failure i s f) : Failure i s f := by
  obtain ⟨-, rfl⟩ | ⟨-, h⟩ := (withIndirect_fault _ _ _ _).1 h
  · exact .plain _ .indirectAddress nofun nofun
  · exact hk h

theorem Failure.ofBranch {i : Instr} {s : State} {f : Fault} {c : Bool} {off : Offset} {len : Nat} (hi : i ≠ .retSub)
    (h : branch c off len s = .fault f) : Failure i s f := by
  obtain ⟨-, -, rfl⟩ := (branch_fault _ _ _ _ _).1 h
  exact .plain .invalid .unresolvedJump nofun fun h => absurd h hi

theorem Failure.ofCall {i : Instr} {s : State} {f : Fault} {req : ExtRequest} {len : Nat} (he : i.isExternal = true)
    (h : extCall req s (fun _ t => .next (t.advance len)) = .fault f) : Failure i s f := by
  obtain ⟨-, rfl⟩ | ⟨-, h⟩ := (extCall_fault _ _ _ _).1 h
  · exact .rejected req he
  · cases h

theorem store_ne_fault {a : DataAddr} {v : Slot} {len : Nat} {s : State} {f : Fault} (ha : s.cfg.ValidData a.toInt) :
    store a v len s ≠ .fault f := by
  simp [store_pos _ _ _ _ ha]

theorem Failure.ofCallInto {i : Instr} {s : State} {f : Fault} {req : ExtRequest} {a : DataAddr} {len : Nat}
    (he : i.isExternal = true) (ha : s.cfg.ValidData a.toInt)
    (h : extCall req s (fun v t => store a v len t) = .fault f) : Failure i s f := by
  obtain ⟨-, rfl⟩ | ⟨-, h⟩ := (extCall_fault _ _ _ _).1 h
  · exact .rejected req he
  · exact absurd h (store_ne_fault ha)

/-- Every error exec can end in. -/
theorem exec_failure {i : Instr} {s : State} {f : Fault} (h : exec i s = .fault f) : Failure i s f := by
  cases i
  case nop | finImd | stpImd | setPcs => cases h
  case setVal a v => exact .ofStore h
  case clrDat a => exact .ofStore h
  case setDat a b => exact .ofSlot (exec_setDat a b s ▸ h) fun _ => .ofStore
  case incDat a => exact .ofSlot (exec_incDat a s ▸ h) fun _ => .ofStore
  case decDat a => exact .ofSlot (exec_decDat a s ▸ h) fun _ => .ofStore
  case notDat a => exact .ofSlot (exec_notDat a s ▸ h) fun _ => .ofStore
  case addDat a b => exact .ofSlot (exec_addDat a b s ▸ h) fun _ h => .ofSlot h fun _ => .ofStore
  case subDat a b => exact .ofSlot (exec_subDat a b s ▸ h) fun _ h => .ofSlot h fun _ => .ofStore
  case mulDat a b => exact .ofSlot (exec_mulDat a b s ▸ h) fun _ h => .ofSlot h fun _ => .ofStore
  case borDat a b => exact .ofSlot (exec_borDat a b s ▸ h) fun _ h => .ofSlot h fun _ => .ofStore
  case andDat a b => exact .ofSlot (exec_andDat a b s ▸ h) fun _ h => .ofSlot h fun _ => .ofStore
  case xorDat a b => exact .ofSlot (exec_xorDat a b s ▸ h) fun _ h => .ofSlot h fun _ => .ofStore
  case divDat a b =>
    refine .ofSlot (exec_divDat a b s ▸ h) fun _ h => .ofSlot h fun _ h => ?_
    obtain ⟨-, rfl⟩ | ⟨-, -, -, -, rfl⟩ | ⟨-, -, -, -, h⟩ | ⟨-, -, h⟩ := (withQuotient_fault _ _ _ _ _).1 h
    · exact .plain .invalid .divisionByZero nofun nofun
    · exact .plain .invalid .divisionOverflow nofun nofun
    · exact .ofStore h
    · exact .ofStore h
  case setInd a b => exact .ofSlot (exec_setInd a b s ▸ h) fun _ h => .ofIndirect h .ofStore
  case setIdx a b c =>
    exact .ofSlot (exec_setIdx a b c s ▸ h) fun _ h => .ofSlot h fun _ h => .ofIndirect h .ofStore
  case pshDat a =>
    rw [exec_pshDat, withUserRoom_fault] at h
    obtain ⟨-, -, rfl⟩ | ⟨-, -, h⟩ := h
    · exact .plain .overflow .userStackFull nofun nofun
    · exact .ofSlot h fun _ h => by cases h
  case popDat a =>
    rw [exec_popDat, withUserEntry_fault] at h
    obtain ⟨-, -, rfl⟩ | ⟨-, -, h⟩ := h
    · exact .plain .overflow .userStackEmpty nofun nofun
    · exact .ofSlot h fun ha h => absurd h (store_ne_fault (s := s.dropUser) ha)
  case jmpSub c =>
    rw [exec_jmpSub, withCallRoom_fault, withTarget_fault] at h
    obtain ⟨-, -, rfl⟩ | ⟨-, -, ⟨-, rfl⟩ | ⟨-, h⟩⟩ := h
    · exact .plain .overflow .callStackFull nofun nofun
    · exact .plain .invalid .unresolvedJump nofun nofun
    · cases h
  case retSub =>
    rw [exec_retSub, withCallEntry_fault, withTarget_fault] at h
    obtain ⟨-, -, rfl⟩ | ⟨hu, h0, ⟨-, rfl⟩ | ⟨-, h⟩⟩ := h
    · exact .plain .overflow .callStackEmpty nofun nofun
    · exact .returned rfl h0 hu
    · cases h
  case jmpAdr c =>
    rw [exec_jmpAdr, withTarget_fault] at h
    obtain ⟨-, rfl⟩ | ⟨-, h⟩ := h
    · exact .plain .invalid .unresolvedJump nofun nofun
    · cases h
  case bzrDat a off => exact .ofSlot (exec_bzrDat a off s ▸ h) fun _ => .ofBranch (by simp)
  case bnzDat a off => exact .ofSlot (exec_bnzDat a off s ▸ h) fun _ => .ofBranch (by simp)
  case bgtDat a b off => exact .ofSlot (exec_bgtDat a b off s ▸ h) fun _ h => .ofSlot h fun _ => .ofBranch (by simp)
  case bltDat a b off => exact .ofSlot (exec_bltDat a b off s ▸ h) fun _ h => .ofSlot h fun _ => .ofBranch (by simp)
  case bgeDat a b off => exact .ofSlot (exec_bgeDat a b off s ▸ h) fun _ h => .ofSlot h fun _ => .ofBranch (by simp)
  case bleDat a b off => exact .ofSlot (exec_bleDat a b off s ▸ h) fun _ h => .ofSlot h fun _ => .ofBranch (by simp)
  case beqDat a b off => exact .ofSlot (exec_beqDat a b off s ▸ h) fun _ h => .ofSlot h fun _ => .ofBranch (by simp)
  case bneDat a b off => exact .ofSlot (exec_bneDat a b off s ▸ h) fun _ h => .ofSlot h fun _ => .ofBranch (by simp)
  case slpDat a => exact .ofSlot (exec_slpDat a s ▸ h) fun _ h => by cases h
  case fizDat a =>
    refine .ofSlot (exec_fizDat a s ▸ h) fun _ h => ?_
    split at h <;> cases h
  case stzDat a =>
    refine .ofSlot (exec_stzDat a s ▸ h) fun _ h => ?_
    split at h <;> cases h
  case extFun fn => exact .ofCall rfl (exec_extFun fn s ▸ h)
  case extFunDat fn a => exact .ofSlot (exec_extFunDat fn a s ▸ h) fun _ h => .ofCall rfl h
  case extFunDat2 fn a b =>
    exact .ofSlot (exec_extFunDat2 fn a b s ▸ h) fun _ h => .ofSlot h fun _ h => .ofCall rfl h
  case extFunRet fn a => exact .ofSlot (exec_extFunRet fn a s ▸ h) fun ha h => .ofCallInto rfl ha h
  case extFunRetDat fn a b =>
    exact .ofSlot (exec_extFunRetDat fn a b s ▸ h) fun ha h => .ofSlot h fun _ h => .ofCallInto rfl ha h
  case extFunRetDat2 fn a b c =>
    exact .ofSlot (exec_extFunRetDat2 fn a b c s ▸ h) fun ha h => .ofSlot h fun _ h => .ofSlot h fun _ h =>
      .ofCallInto rfl ha h

/-! ### Refusals -/

/-- exec is refused only in a state whose stack depth is above the capacity (10_state R21). -/
theorem exec_refused {i : Instr} {s : State} {r : Refusal} (h : exec i s = .refused r) :
    s.cfg.csCap < s.cs.toNat ∨ s.cfg.usCap < s.us.toNat := by
  have hstore : ∀ a v len t, store a v len t ≠ .refused r := fun a v len t => store_refused a v len t r
  cases i
  case nop | finImd | stpImd | setPcs => cases h
  case setVal a v => exact absurd h (hstore _ _ _ _)
  case clrDat a => exact absurd h (hstore _ _ _ _)
  case setDat a b =>
    rw [exec_setDat, withSlot_refused] at h
    exact absurd h.2 (hstore _ _ _ _)
  case incDat a =>
    rw [exec_incDat, withSlot_refused] at h
    exact absurd h.2 (hstore _ _ _ _)
  case decDat a =>
    rw [exec_decDat, withSlot_refused] at h
    exact absurd h.2 (hstore _ _ _ _)
  case notDat a =>
    rw [exec_notDat, withSlot_refused] at h
    exact absurd h.2 (hstore _ _ _ _)
  case addDat a b | subDat a b | mulDat a b | borDat a b | andDat a b | xorDat a b =>
    simp only [exec_addDat, exec_subDat, exec_mulDat, exec_borDat, exec_andDat, exec_xorDat, withSlot_refused] at h
    exact absurd h.2.2 (hstore _ _ _ _)
  case divDat a b =>
    rw [exec_divDat, withSlot_refused, withSlot_refused, withQuotient_refused] at h
    obtain ⟨-, -, -, ⟨-, -, -, h⟩ | ⟨-, h⟩⟩ := h
    · exact absurd h (hstore _ _ _ _)
    · exact absurd h (hstore _ _ _ _)
  case setInd a b =>
    rw [exec_setInd, withSlot_refused, withIndirect_refused] at h
    exact absurd h.2.2 (hstore _ _ _ _)
  case setIdx a b c =>
    rw [exec_setIdx, withSlot_refused, withSlot_refused, withIndirect_refused] at h
    exact absurd h.2.2.2 (hstore _ _ _ _)
  case pshDat a =>
    rw [exec_pshDat, withUserRoom_refused, withSlot_refused] at h
    obtain ⟨h, -⟩ | ⟨-, -, -, h⟩ := h
    · exact .inr h
    · cases h
  case popDat a =>
    rw [exec_popDat, withUserEntry_refused, withSlot_refused] at h
    obtain ⟨h, -⟩ | ⟨-, -, -, h⟩ := h
    · exact .inr h
    · exact absurd h (hstore _ _ _ _)
  case jmpSub c =>
    rw [exec_jmpSub, withCallRoom_refused, withTarget_refused] at h
    obtain ⟨h, -⟩ | ⟨-, -, -, h⟩ := h
    · exact .inl h
    · cases h
  case retSub =>
    rw [exec_retSub, withCallEntry_refused, withTarget_refused] at h
    obtain ⟨h, -⟩ | ⟨-, -, -, h⟩ := h
    · exact .inl h
    · cases h
  case jmpAdr c =>
    rw [exec_jmpAdr, withTarget_refused] at h
    cases h.2
  case bzrDat a off | bnzDat a off =>
    simp only [exec_bzrDat, exec_bnzDat, withSlot_refused] at h
    exact absurd h.2 (branch_refused _ _ _ _ _)
  case bgtDat a b off | bltDat a b off | bgeDat a b off | bleDat a b off | beqDat a b off | bneDat a b off =>
    simp only [exec_bgtDat, exec_bltDat, exec_bgeDat, exec_bleDat, exec_beqDat, exec_bneDat, withSlot_refused] at h
    exact absurd h.2.2 (branch_refused _ _ _ _ _)
  case slpDat a =>
    rw [exec_slpDat, withSlot_refused] at h
    cases h.2
  case fizDat a =>
    rw [exec_fizDat, withSlot_refused] at h
    have h := h.2
    split at h <;> cases h
  case stzDat a =>
    rw [exec_stzDat, withSlot_refused] at h
    have h := h.2
    split at h <;> cases h
  case extFun fn =>
    rw [exec_extFun, extCall_refused] at h
    cases h.2
  case extFunDat fn a =>
    rw [exec_extFunDat, withSlot_refused, extCall_refused] at h
    cases h.2.2
  case extFunDat2 fn a b =>
    rw [exec_extFunDat2, withSlot_refused, withSlot_refused, extCall_refused] at h
    cases h.2.2.2
  case extFunRet fn a =>
    rw [exec_extFunRet, withSlot_refused, extCall_refused] at h
    exact absurd h.2.2 (hstore _ _ _ _)
  case extFunRetDat fn a b =>
    rw [exec_extFunRetDat, withSlot_refused, withSlot_refused, extCall_refused] at h
    exact absurd h.2.2.2 (hstore _ _ _ _)
  case extFunRetDat2 fn a b c =>
    rw [exec_extFunRetDat2, withSlot_refused, withSlot_refused, withSlot_refused, extCall_refused] at h
    exact absurd h.2.2.2.2 (hstore _ _ _ _)

/-! ### Steps -/

/-- Every next state a step can answer (40_engine R115). -/
theorem step_next {s t : State} (h : step s = .next t) :
    (fetch s = .noInstr ∧ t = s) ∨ ∃ i len u, fetch s = .ok i len ∧ exec i s = .next u ∧ t = u.retire := by
  unfold step at h
  split at h
  · next hf => exact .inl ⟨hf, (Host.Outcome.next.inj h).symm⟩
  · cases h
  · next i len hf =>
    split at h
    · next u hu => exact .inr ⟨i, len, u, hf, hu, (Host.Outcome.next.inj h).symm⟩
    · cases h
    · cases h

/-- Every error a step can end in: one of the decoder, or one of the decoded instruction. -/
theorem step_fault {s : State} {f : Fault} (h : step s = .fault f) :
    (∃ c, fetch s = .err c ∧ f = .invalid c s) ∨ ∃ i len, fetch s = .ok i len ∧ exec i s = .fault f := by
  unfold step at h
  split at h
  · cases h
  · next c hf => exact .inl ⟨c, hf, (Host.Outcome.fault.inj h).symm⟩
  · next i len hf =>
    split at h
    · cases h
    · next g hg => exact .inr ⟨i, len, hf, (Host.Outcome.fault.inj h) ▸ hg⟩
    · cases h

theorem step_refused {s : State} {r : Refusal} (h : step s = .refused r) :
    ∃ i len, fetch s = .ok i len ∧ exec i s = .refused r := by
  unfold step at h
  split at h
  · cases h
  · cases h
  · next i len hf =>
    split at h
    · cases h
    · cases h
    · next g hg => exact ⟨i, len, hf, (Host.Outcome.refused.inj h) ▸ hg⟩

end Sys2Proof.Machine
end

