-- ==== Sys2Proof/Laws/Memory.lean ====
section
/-!
SUPPORT. The laws of byte memories and of the little-endian byte order: read after write, the canonical form, and the
bounds of the addresses listed.
-/

namespace Sys2Proof.Machine

/-! ### Reading and writing one byte -/

@[simp] theorem Memory.read_nil (a : Nat) : Memory.read [] a = Memory.unlisted := rfl

theorem Memory.read_eq_unlisted (m : Memory) (a : Nat) (h : ∀ c ∈ m, c.1 ≠ a) : m.read a = Memory.unlisted := by
  induction m with
  | nil => rfl
  | cons c rest ih =>
    obtain ⟨k, b⟩ := c
    have hk : k ≠ a := h (k, b) (by simp)
    simp only [Memory.read, if_neg hk]
    exact ih fun d hd => h d (by simp [hd])

theorem Memory.read_cons_of (a b : Nat) (v : Byte) (rest : Memory) (h : ∀ c ∈ rest, a < c.1) :
    (Memory.cons a v rest).read b = if a = b then v else rest.read b := by
  unfold Memory.cons
  by_cases hv : v = Memory.unlisted
  · by_cases hab : a = b
    · subst hab
      have : rest.read a = Memory.unlisted := Memory.read_eq_unlisted rest a fun c hc => by
        have := h c hc
        omega
      simp [hv, this]
    · simp [hv, hab]
  · simp [hv, Memory.read]

theorem Memory.wf_tail {c : Host.Cell} {rest : Memory} (h : Memory.wf (c :: rest)) : Memory.wf rest :=
  ⟨h.1.of_cons, fun d hd => h.2 d (by simp [hd])⟩

theorem Memory.wf_head {c : Host.Cell} {rest : Memory} (h : Memory.wf (c :: rest)) : ∀ d ∈ rest, c.1 < d.1 :=
  (List.pairwise_cons.1 h.1).1

/-- One byte read after one byte written. -/
theorem Memory.read_write (m : Memory) (hm : m.wf) (a b : Nat) (v : Byte) :
    (m.write a v).read b = if a = b then v else m.read b := by
  induction m with
  | nil => exact Memory.read_cons_of a b v [] (by simp)
  | cons c rest ih =>
    obtain ⟨k, w⟩ := c
    have hhd := Memory.wf_head hm
    simp only [Memory.write]
    split
    · next hlt =>
      refine Memory.read_cons_of a b v _ ?_
      intro d hd
      rcases List.mem_cons.1 hd with rfl | hd
      · exact hlt
      · exact Nat.lt_trans hlt (hhd d hd)
    · split
      · next hlt heq =>
        subst heq
        rw [Memory.read_cons_of a b v rest hhd]
        by_cases hab : a = b <;> simp [Memory.read, hab]
      · next hlt hne =>
        simp only [Memory.read]
        by_cases hkb : k = b
        · have : a ≠ b := fun h => hne (h.trans hkb.symm)
          simp [hkb, this]
        · simp [hkb, ih (Memory.wf_tail hm)]

@[simp] theorem Memory.read_write_self (m : Memory) (hm : m.wf) (a : Nat) (v : Byte) : (m.write a v).read a = v := by
  simp [Memory.read_write m hm]

/-- What a write leaves listed: the address written, or an address listed before. -/
theorem Memory.mem_write {m : Memory} {a : Nat} {v : Byte} {c : Host.Cell} (h : c ∈ m.write a v) :
    c.1 = a ∨ c ∈ m := by
  induction m with
  | nil =>
    simp only [Memory.write, Memory.cons] at h
    split at h <;> simp_all
  | cons d rest ih =>
    obtain ⟨k, w⟩ := d
    simp only [Memory.write, Memory.cons] at h
    split at h
    · split at h
      · exact .inr h
      · rcases List.mem_cons.1 h with rfl | h
        · exact .inl rfl
        · exact .inr h
    · split at h
      · split at h
        · exact .inr (by simp [h])
        · rcases List.mem_cons.1 h with rfl | h
          · exact .inl rfl
          · exact .inr (by simp [h])
      · rcases List.mem_cons.1 h with rfl | h
        · exact .inr (by simp)
        · rcases ih h with h | h
          · exact .inl h
          · exact .inr (by simp [h])

theorem Memory.cons_wf {a : Nat} {v : Byte} {rest : Memory} (hr : Memory.wf rest) (h : ∀ c ∈ rest, a < c.1) :
    (Memory.cons a v rest).wf := by
  unfold Memory.cons
  split
  · exact hr
  · next hv =>
    refine ⟨List.pairwise_cons.2 ⟨h, hr.1⟩, fun c hc => ?_⟩
    rcases List.mem_cons.1 hc with rfl | hc
    · exact hv
    · exact hr.2 c hc

/-- A write keeps the canonical form. -/
theorem Memory.write_wf {m : Memory} (hm : m.wf) (a : Nat) (v : Byte) : (m.write a v).wf := by
  induction m with
  | nil => exact Memory.cons_wf hm (by simp)
  | cons c rest ih =>
    obtain ⟨k, w⟩ := c
    have hhd := Memory.wf_head hm
    simp only [Memory.write]
    split
    · next hlt =>
      refine Memory.cons_wf hm fun d hd => ?_
      rcases List.mem_cons.1 hd with rfl | hd
      · exact hlt
      · exact Nat.lt_trans hlt (hhd d hd)
    · split
      · next heq => exact Memory.cons_wf (Memory.wf_tail hm) (heq ▸ hhd)
      · next hlt hne =>
        have hr := ih (Memory.wf_tail hm)
        refine ⟨List.pairwise_cons.2 ⟨fun d hd => ?_, hr.1⟩, fun d hd => ?_⟩
        · rcases Memory.mem_write hd with h | h
          · simp only [h]
            omega
          · exact hhd d h
        · rcases List.mem_cons.1 hd with rfl | hd
          · exact hm.2 (k, w) (by simp)
          · exact hr.2 d hd

theorem Memory.nil_wf : Memory.wf [] :=
  ⟨List.Pairwise.nil, fun _ h => (List.not_mem_nil h).elim⟩

/-! ### Lists of bytes -/

@[simp] theorem Memory.length_readBytes (m : Memory) (off n : Nat) : (m.readBytes off n).length = n := by
  induction n generalizing off with
  | zero => rfl
  | succ n ih => simp [Memory.readBytes, ih]

@[simp] theorem length_bytesLE (n v : Nat) : (bytesLE n v).length = n := by
  induction n generalizing v with
  | zero => rfl
  | succ n ih => simp [bytesLE, ih]

theorem Memory.writeBytes_wf {m : Memory} (hm : m.wf) (off : Nat) (bs : List Byte) : (m.writeBytes off bs).wf := by
  induction bs generalizing m off with
  | nil => exact hm
  | cons b bs ih => exact ih (Memory.write_wf hm off b) (off + 1)

theorem Memory.mem_writeBytes {m : Memory} {off : Nat} {bs : List Byte} {c : Host.Cell} (h : c ∈ m.writeBytes off bs) :
    (off ≤ c.1 ∧ c.1 < off + bs.length) ∨ c ∈ m := by
  induction bs generalizing m off with
  | nil => exact .inr h
  | cons b bs ih =>
    rcases ih h with h | h
    · left
      simp only [List.length_cons]
      omega
    · rcases Memory.mem_write h with h | h
      · left
        simp only [List.length_cons]
        omega
      · exact .inr h

/-- A byte outside the bytes written reads as before. -/
theorem Memory.read_writeBytes_outside (m : Memory) (hm : m.wf) (off : Nat) (bs : List Byte) (a : Nat)
    (h : a < off ∨ off + bs.length ≤ a) : (m.writeBytes off bs).read a = m.read a := by
  induction bs generalizing m off with
  | nil => rfl
  | cons b bs ih =>
    simp only [List.length_cons] at h
    rw [Memory.writeBytes, ih _ (Memory.write_wf hm off b) (off + 1) (by omega), Memory.read_write m hm,
      if_neg (by omega)]

/-- The bytes written are the bytes read back. -/
theorem Memory.readBytes_writeBytes (m : Memory) (hm : m.wf) (off : Nat) (bs : List Byte) :
    (m.writeBytes off bs).readBytes off bs.length = bs := by
  induction bs generalizing m off with
  | nil => rfl
  | cons b bs ih =>
    have hw := Memory.write_wf hm off b
    simp only [List.length_cons, Memory.readBytes, Memory.writeBytes]
    rw [Memory.read_writeBytes_outside _ hw _ _ _ (.inl (by omega)), Memory.read_write_self m hm, ih _ hw]

/-- Bytes that two memories agree on are read alike. -/
theorem Memory.readBytes_congr {m m' : Memory} {off n : Nat} (h : ∀ a, off ≤ a → a < off + n → m'.read a = m.read a) :
    m'.readBytes off n = m.readBytes off n := by
  induction n generalizing off with
  | zero => rfl
  | succ n ih =>
    simp only [Memory.readBytes]
    rw [h off (by omega) (by omega), ih fun a h1 h2 => h a (by omega) (by omega)]

/-! ### Little-endian numbers -/

theorem leNat_lt (bs : List Byte) : leNat bs < 256 ^ bs.length := by
  induction bs with
  | nil => simp [leNat]
  | cons b bs ih =>
    have := b.isLt
    simp only [leNat, List.length_cons, Nat.pow_succ]
    omega

/-- The bytes of a number, read as a number. -/
theorem leNat_bytesLE (n v : Nat) : leNat (bytesLE n v) = v % 256 ^ n := by
  induction n generalizing v with
  | zero => simp [leNat, bytesLE, Nat.mod_one]
  | succ n ih =>
    have h : v % 256 ^ (n + 1) = v % 256 + 256 * (v / 256 % 256 ^ n) := by
      rw [Nat.pow_succ, Nat.mul_comm, Nat.mod_mul]
    rw [bytesLE, leNat, ih, BitVec.toNat_ofNat, h]

/-- Bytes, read as a number and written out again. -/
theorem bytesLE_leNat (bs : List Byte) : bytesLE bs.length (leNat bs) = bs := by
  induction bs with
  | nil => rfl
  | cons b bs ih =>
    have hb := b.isLt
    have h1 : (b.toNat + 256 * leNat bs) / 256 = leNat bs := by omega
    simp only [List.length_cons, bytesLE, leNat, h1, ih]
    congr 1
    apply BitVec.eq_of_toNat_eq
    simp only [BitVec.toNat_ofNat]
    omega

/-! ### Slots -/

theorem Memory.writeSlot_wf {m : Memory} (hm : m.wf) (off : Nat) (v : Slot) : (m.writeSlot off v).wf :=
  Memory.writeBytes_wf hm off _

theorem Memory.mem_writeSlot {m : Memory} {off : Nat} {v : Slot} {c : Host.Cell} (h : c ∈ m.writeSlot off v) :
    (off ≤ c.1 ∧ c.1 < off + 8) ∨ c ∈ m := by
  simpa using Memory.mem_writeBytes h

/-- The slot written is the slot read back (20_memory R71). -/
theorem Memory.readSlot_writeSlot (m : Memory) (hm : m.wf) (off : Nat) (v : Slot) :
    (m.writeSlot off v).readSlot off = v := by
  have h := Memory.readBytes_writeBytes m hm off (bytesLE 8 v.toNat)
  rw [length_bytesLE] at h
  rw [Memory.readSlot, Memory.writeSlot, h, leNat_bytesLE]
  apply BitVec.eq_of_toNat_eq
  have := v.isLt
  simp only [BitVec.toNat_ofNat]
  omega

/-- A byte outside the slot written reads as before. -/
theorem Memory.read_writeSlot_outside (m : Memory) (hm : m.wf) (off : Nat) (v : Slot) (a : Nat)
    (h : a < off ∨ off + 8 ≤ a) : (m.writeSlot off v).read a = m.read a :=
  Memory.read_writeBytes_outside m hm off _ a (by simpa using h)

/-- A slot that shares no byte with the slot written reads as before. -/
theorem Memory.readSlot_writeSlot_disjoint (m : Memory) (hm : m.wf) (off off' : Nat) (v : Slot)
    (h : off' + 8 ≤ off ∨ off + 8 ≤ off') : (m.writeSlot off v).readSlot off' = m.readSlot off' := by
  simp only [Memory.readSlot]
  rw [Memory.readBytes_congr fun a h1 h2 => Memory.read_writeSlot_outside m hm off v a (by omega)]

end Sys2Proof.Machine
end

