-- ==== Sys2Proof/Laws/Decode.lean ====
section
/-!
SUPPORT. The decoder and the encoder: the opcode map read both ways, the fields, the no-op run, and one lemma that says
all the decoder can answer (30_encoding R92 to R109).
-/

namespace Sys2Proof

open Machine (Memory leNat bytesLE leNat_bytesLE bytesLE_leNat length_bytesLE)

/-! ### The opcode map -/

theorem OpcodeMap.mem_of_opcodeOf {map : OpcodeMap} {b : Byte} {op : Opcode} (h : map.opcodeOf b = some op) :
    (b, op) ∈ map := by
  obtain ⟨row, hr, rfl⟩ := Option.map_eq_some_iff.1 h
  have := List.find?_some hr
  simp only [beq_iff_eq] at this
  exact this ▸ List.mem_of_find?_eq_some hr

theorem OpcodeMap.opcodeOf_of_mem {map : OpcodeMap} (hm : map.wf) {b : Byte} {op : Opcode} (h : (b, op) ∈ map) :
    map.opcodeOf b = some op := by
  cases hf : map.find? (fun row => row.1 == b) with
  | none => simpa using List.find?_eq_none.1 hf (b, op) h
  | some row =>
    have h1 : row.1 = b := by simpa using List.find?_some hf
    have h2 : row = (b, op) := List.inj_on_of_nodup_map hm.1 (List.mem_of_find?_eq_some hf) h h1
    simp [OpcodeMap.opcodeOf, hf, h2]

theorem OpcodeMap.mem_byteOf {map : OpcodeMap} {op : Opcode} (h : op ∈ map.map Prod.snd) :
    (map.byteOf op, op) ∈ map := by
  obtain ⟨row, hr, rfl⟩ := List.mem_map.1 h
  cases hf : map.find? (fun r => r.2 == row.2) with
  | none => simpa using List.find?_eq_none.1 hf row hr
  | some q =>
    have hq : q.2 = row.2 := by simpa using List.find?_some hf
    have : map.byteOf row.2 = q.1 := by simp [OpcodeMap.byteOf, hf]
    rw [this, ← hq]
    exact List.mem_of_find?_eq_some hf

theorem Opcode.mem_all (op : Opcode) : op ∈ Opcode.all := by
  cases op <;> decide

/-- Each opcode's byte is read as that opcode. -/
theorem OpcodeMap.opcodeOf_byteOf {map : OpcodeMap} (hm : map.wf) (op : Opcode) :
    map.opcodeOf (map.byteOf op) = some op :=
  OpcodeMap.opcodeOf_of_mem hm (OpcodeMap.mem_byteOf (hm.2.2 op op.mem_all))

/-- A byte read as an opcode is that opcode's byte. -/
theorem OpcodeMap.byteOf_of_opcodeOf {map : OpcodeMap} (hm : map.wf) {b : Byte} {op : Opcode}
    (h : map.opcodeOf b = some op) : map.byteOf op = b := by
  exact congrArg Prod.fst (List.inj_on_of_nodup_map hm.2.1 (OpcodeMap.mem_byteOf (hm.2.2 op op.mem_all))
    (OpcodeMap.mem_of_opcodeOf h) rfl)

theorem opcodeTable_wf : opcodeTable.wf := by
  refine ⟨?_, ?_, ?_⟩ <;> decide

/-! ### Fields and whole instructions -/

theorem addr_of_bytes (a : BitVec 32) : BitVec.ofNat 32 (leNat (addrBytes a)) = a := by
  rw [addrBytes, leNat_bytesLE, Nat.mod_eq_of_lt (by have := a.isLt; omega), BitVec.ofNat_toNat, BitVec.setWidth_eq]

theorem literal_of_bytes (v : Slot) : BitVec.ofNat 64 (leNat (literalBytes v)) = v := by
  rw [literalBytes, leNat_bytesLE, Nat.mod_eq_of_lt (by have := v.isLt; omega), BitVec.ofNat_toNat, BitVec.setWidth_eq]

theorem offset_of_bytes (o : Offset) : BitVec.ofNat 8 (leNat (offsetBytes o)) = o := by
  rw [offsetBytes, leNat_bytesLE, Nat.mod_eq_of_lt (by have := o.isLt; omega), BitVec.ofNat_toNat, BitVec.setWidth_eq]

theorem fun_of_bytes (f : FunId) : BitVec.ofNat 16 (leNat (funBytes f)) = f := by
  rw [funBytes, leNat_bytesLE, Nat.mod_eq_of_lt (by have := f.isLt; omega), BitVec.ofNat_toNat, BitVec.setWidth_eq]

@[simp] theorem length_addrBytes (a : BitVec 32) : (addrBytes a).length = 4 := length_bytesLE _ _

@[simp] theorem length_literalBytes (v : Slot) : (literalBytes v).length = 8 := length_bytesLE _ _

@[simp] theorem length_offsetBytes (o : Offset) : (offsetBytes o).length = 1 := length_bytesLE _ _

@[simp] theorem length_funBytes (f : FunId) : (funBytes f).length = 2 := length_bytesLE _ _

/-- The encoding has the instruction's length (30_encoding R109). -/
theorem encode_length (map : OpcodeMap) (i : Instr) : (encode map i).length = i.length := by
  cases i <;> simp [encode, Instr.length, Instr.opcode, Opcode.format, Format.length]

theorem length_of_not_nop {i : Instr} (h : i.opcode ≠ .nop) : i.length = i.opcode.format.length := by
  cases i <;> first | rfl | exact absurd rfl h

/-- Reading the fields of an encoding gives the instruction back, with every operand at every value. -/
theorem assemble_encode (map : OpcodeMap) (i : Instr) : assemble i.opcode (encode map i) = i := by
  cases i <;>
    simp [encode, assemble, Instr.opcode, dataField, codeField, literalField, offsetField, funField, fieldNat,
      List.drop_append, List.take_of_length_le, List.drop_eq_nil_of_le, addr_of_bytes,
      literal_of_bytes, offset_of_bytes, fun_of_bytes]

theorem bytes_of_field {w n : Nat} (bs : List Byte) (hn : bs.length = n) (hw : 256 ^ n ≤ 2 ^ w) :
    bytesLE n (BitVec.ofNat w (leNat bs)).toNat = bs := by
  have := Machine.leNat_lt bs
  rw [hn] at this
  subst hn
  rw [BitVec.toNat_ofNat, Nat.mod_eq_of_lt (by omega), bytesLE_leNat]

/-- Encoding the instruction read from bytes gives the bytes back. -/
theorem encode_assemble (map : OpcodeMap) (op : Opcode) (bs : List Byte) (hop : op ≠ .nop)
    (hl : bs.length = op.format.length) (hb : bs.head? = some (map.byteOf op)) : encode map (assemble op bs) = bs := by
  have go : ∀ (n : Nat) (xs : List Byte), xs.length = n + 1 → ∃ y ys, xs = y :: ys ∧ ys.length = n := by
    intro n xs h
    cases xs with
    | nil => simp at h
    | cons y ys => exact ⟨y, ys, rfl, by simpa using h⟩
  obtain ⟨b, xs, rfl, hx⟩ : ∃ b xs, bs = b :: xs ∧ xs.length = op.format.length - 1 := by
    cases bs with
    | nil => simp at hb
    | cons b xs => exact ⟨b, xs, rfl, by simp at hl; omega⟩
  obtain rfl : b = map.byteOf op := by simpa using hb
  have f4 : ∀ (ys : List Byte), 4 ≤ ys.length → addrBytes (BitVec.ofNat 32 (leNat (ys.take 4))) = ys.take 4 :=
    fun ys h => bytes_of_field _ (by simp [h]) (by decide)
  have f8 : ∀ (ys : List Byte), 8 ≤ ys.length → literalBytes (BitVec.ofNat 64 (leNat (ys.take 8))) = ys.take 8 :=
    fun ys h => bytes_of_field _ (by simp [h]) (by decide)
  have f1 : ∀ (ys : List Byte), 1 ≤ ys.length → offsetBytes (BitVec.ofNat 8 (leNat (ys.take 1))) = ys.take 1 :=
    fun ys h => bytes_of_field _ (by simp; omega) (by decide)
  have f2 : ∀ (ys : List Byte), 2 ≤ ys.length → funBytes (BitVec.ofNat 16 (leNat (ys.take 2))) = ys.take 2 :=
    fun ys h => bytes_of_field _ (by simp [h]) (by decide)
  have cut : ∀ (n m : Nat) (ys : List Byte), ys.length = n + m → ys.take n ++ (ys.drop n).take m = ys := by
    intro n m ys h
    rw [List.take_of_length_le (l := ys.drop n) (by simp; omega), List.take_append_drop]
  have cut3 : ∀ (n m k : Nat) (ys : List Byte), ys.length = n + m + k →
      ys.take n ++ ((ys.drop n).take m ++ (ys.drop (n + m)).take k) = ys := by
    intro n m k ys h
    rw [← List.drop_drop, cut m k (ys.drop n) (by simp; omega), List.take_append_drop]
  have cut4 : ∀ (n m k j : Nat) (ys : List Byte), ys.length = n + m + k + j →
      ys.take n ++ ((ys.drop n).take m ++ ((ys.drop (n + m)).take k ++ (ys.drop (n + m + k)).take j)) = ys := by
    intro n m k j ys h
    have := cut3 m k j (ys.drop n) (by simp; omega)
    simp only [List.drop_drop] at this
    rw [show n + (m + k) = n + m + k by omega] at this
    rw [this, List.take_append_drop]
  cases op <;> simp only [Opcode.format, Format.length, Nat.reduceSub] at hx
  case nop => exact absurd rfl hop
  case retSub | finImd | stpImd | setPcs =>
    obtain rfl : xs = [] := List.length_eq_zero_iff.1 hx
    rfl
  all_goals
    simp (disch := simp [hx]) only [assemble, encode, dataField, codeField, literalField, offsetField, funField, fieldNat,
      List.drop_succ_cons, List.drop_zero, f4, f8, f1, f2, List.append_assoc]
    congr 1
  case setVal => exact cut 4 8 xs hx
  case setDat | addDat | subDat | mulDat | divDat | borDat | andDat | xorDat | setInd => exact cut 4 4 xs hx
  case setIdx => exact cut3 4 4 4 xs hx
  case bzrDat | bnzDat => exact cut 4 1 xs hx
  case bgtDat | bltDat | bgeDat | bleDat | beqDat | bneDat => exact cut3 4 4 1 xs hx
  case extFunDat | extFunRet => exact cut 2 4 xs hx
  case extFunDat2 | extFunRetDat => exact cut3 2 4 4 xs hx
  case extFunRetDat2 => exact cut4 2 4 4 4 xs hx
  all_goals exact List.take_of_length_le (by omega)

theorem assemble_opcode (op : Opcode) (bs : List Byte) : (assemble op bs).opcode = op := by
  cases op <;> rfl

/-! ### The no-op run -/

theorem runLength_le (code : Memory) (b : Byte) (fuel c : Nat) : runLength code b fuel c ≤ fuel := by
  induction fuel generalizing c with
  | zero => exact Nat.le_refl 0
  | succ n ih =>
    rw [runLength]
    split
    · have := ih (c + 1)
      omega
    · exact Nat.zero_le _

theorem runLength_all (code : Memory) (b : Byte) (fuel c j : Nat) (h : j < runLength code b fuel c) :
    code.read (c + j) = b := by
  induction fuel generalizing c j with
  | zero => exact absurd h (Nat.not_lt_zero j)
  | succ n ih =>
    rw [runLength] at h
    split at h
    · next hb =>
      cases j with
      | zero => exact hb
      | succ j =>
        rw [show c + (j + 1) = c + 1 + j by omega]
        exact ih (c + 1) j (by omega)
    · exact absurd h (Nat.not_lt_zero j)

theorem runLength_stops (code : Memory) (b : Byte) (fuel c : Nat) :
    runLength code b fuel c = fuel ∨ code.read (c + runLength code b fuel c) ≠ b := by
  induction fuel generalizing c with
  | zero => exact .inl rfl
  | succ n ih =>
    rw [runLength]
    split
    · rcases ih (c + 1) with h | h
      · exact .inl (by omega)
      · refine .inr ?_
        rwa [show c + (1 + runLength code b n (c + 1)) = c + 1 + runLength code b n (c + 1) by omega]
    · next h => exact .inr h

/-- The length of a run is the one number with its three properties (30_encoding R100). -/
theorem runLength_eq (code : Memory) (b : Byte) (fuel c k : Nat) (hk : k ≤ fuel) (ha : ∀ j, j < k → code.read (c + j) = b)
    (hs : k = fuel ∨ code.read (c + k) ≠ b) : runLength code b fuel c = k := by
  rcases Nat.lt_trichotomy (runLength code b fuel c) k with h | h | h
  · rcases runLength_stops code b fuel c with h1 | h1
    · omega
    · exact absurd (ha _ h) h1
  · exact h
  · rcases hs with h1 | h1
    · have := runLength_le code b fuel c
      omega
    · exact absurd (runLength_all code b fuel c k h) h1

/-! ### The decoder -/

theorem Instr.dataOk_iff (cfg : Configuration) (i : Instr) :
    i.dataOk cfg = true ↔ ∀ a ∈ i.dataAddrs, cfg.ValidData a.toInt := by
  rw [Instr.dataOk, List.all_eq_true]
  exact forall₂_congr fun _ _ => decide_eq_true_iff

theorem Instr.codeOk_iff (cfg : Configuration) (cursor : Nat) (i : Instr) :
    i.codeOk cfg cursor = true ↔ ∀ t ∈ i.codeTargets cursor, cfg.ValidCode t := by
  rw [Instr.codeOk, List.all_eq_true]
  exact forall₂_congr fun _ _ => decide_eq_true_iff

theorem decode_of_opcode {cfg : Configuration} {code : Memory} {cursor : Nat} {op : Opcode} (hc : cursor < cfg.codeSize)
    (ho : cfg.opcodeMap.opcodeOf (code.read cursor) = some op) :
    decode cfg code cursor = decodeOpcode cfg code cursor op := by
  rw [decode, if_neg (by omega), ho]

theorem decode_fixed {cfg : Configuration} {code : Memory} {cursor : Nat} {op : Opcode}
    (ho : cfg.opcodeMap.opcodeOf (code.read cursor) = some op) (hn : op ≠ .nop)
    (hl : cursor + op.format.length ≤ cfg.codeSize) :
    decode cfg code cursor =
      checkOperands cfg cursor (assemble op (code.readBytes cursor op.format.length)) op.format.length := by
  have : 1 ≤ op.format.length := by cases op <;> decide
  rw [decode_of_opcode (by omega) ho, decodeOpcode, if_neg hn, if_neg (by omega)]

theorem checkOperands_ok {cfg : Configuration} {cursor len len' : Nat} {i j : Instr} :
    checkOperands cfg cursor j len = .ok i len' ↔
      j = i ∧ len = len' ∧ j.dataOk cfg = true ∧ j.codeOk cfg cursor = true := by
  unfold checkOperands
  split
  · split
    · simp_all
    · simp_all
  · simp_all

/-- Everything the decoder can answer when it answers an instruction: a no-op run, or a fixed-length instruction whose
operands pass the checks (30_encoding R101). -/
theorem decode_ok {cfg : Configuration} {code : Memory} {cursor : Nat} {i : Instr} {len : Nat} :
    decode cfg code cursor = .ok i len ↔
      cursor < cfg.codeSize ∧ ∃ op, cfg.opcodeMap.opcodeOf (code.read cursor) = some op ∧
        ((op = .nop ∧ len = runLength code (code.read cursor) (cfg.codeSize - cursor) cursor ∧ i = .nop len) ∨
         (op ≠ .nop ∧ len = op.format.length ∧ cursor + len ≤ cfg.codeSize ∧
          i = assemble op (code.readBytes cursor len) ∧ i.dataOk cfg = true ∧ i.codeOk cfg cursor = true)) := by
  by_cases hc : cursor < cfg.codeSize
  · cases ho : cfg.opcodeMap.opcodeOf (code.read cursor) with
    | none => simp [decode, Nat.not_le.2 hc, ho]
    | some op =>
      rw [decode_of_opcode hc ho, decodeOpcode]
      by_cases hn : op = .nop
      · rw [if_pos hn]
        simp only [hc, hn, Decoded.ok.injEq, Option.some.injEq, true_and, ne_eq]
        constructor
        · rintro ⟨rfl, rfl⟩
          exact ⟨_, rfl, .inl ⟨rfl, rfl, rfl⟩⟩
        · rintro ⟨_, rfl, ⟨-, rfl, rfl⟩ | ⟨h, -⟩⟩
          · exact ⟨rfl, rfl⟩
          · exact absurd rfl h
      · rw [if_neg hn]
        simp only [hc, Option.some.injEq, true_and]
        by_cases hl : cfg.codeSize < cursor + op.format.length
        · rw [if_pos hl]
          constructor
          · intro h
            cases h
          · rintro ⟨_, rfl, ⟨h, -⟩ | ⟨-, rfl, h, -⟩⟩
            · exact absurd h hn
            · omega
        · rw [if_neg hl, checkOperands_ok]
          constructor
          · rintro ⟨rfl, rfl, h1, h2⟩
            exact ⟨op, rfl, .inr ⟨hn, rfl, by omega, rfl, h1, h2⟩⟩
          · rintro ⟨_, rfl, ⟨h, -⟩ | ⟨-, rfl, -, rfl, h1, h2⟩⟩
            · exact absurd h hn
            · exact ⟨rfl, rfl, h1, h2⟩
  · simp [decode, Nat.not_lt.1 hc, hc]

theorem runLength_pos {code : Memory} {b : Byte} {fuel c : Nat} (hf : 0 < fuel) (hb : code.read c = b) :
    1 ≤ runLength code b fuel c := by
  cases fuel with
  | zero => omega
  | succ n =>
    rw [runLength, if_pos hb]
    omega

/-- A decoded instruction has its own length, is well formed where it was read, and its length is at least 1
(30_encoding R101, R109). -/
theorem decode_wellFormed {cfg : Configuration} {code : Memory} {cursor : Nat} {i : Instr} {len : Nat}
    (h : decode cfg code cursor = .ok i len) : len = i.length ∧ i.WellFormed cfg cursor := by
  obtain ⟨hc, op, -, ⟨-, hl, rfl⟩ | ⟨hn, hl, hend, rfl, hd, ht⟩⟩ := decode_ok.1 h
  · have h1 := runLength_le code (code.read cursor) (cfg.codeSize - cursor) cursor
    have h2 := runLength_pos (fuel := cfg.codeSize - cursor) (by omega) (rfl : code.read cursor = _)
    have hlen : (Instr.nop len).length = len := rfl
    exact ⟨rfl, by omega, by omega, rfl, rfl⟩
  · have hlen : (assemble op (code.readBytes cursor len)).length = len := by
      rw [length_of_not_nop (by rwa [assemble_opcode]), assemble_opcode, hl]
    have h1 : 1 ≤ len := by
      rw [hl]
      cases op <;> decide
    exact ⟨hlen.symm, by omega, by omega, hd, ht⟩

theorem decode_pos {cfg : Configuration} {code : Memory} {cursor : Nat} {i : Instr} {len : Nat}
    (h : decode cfg code cursor = .ok i len) : 1 ≤ len ∧ cursor + len ≤ cfg.codeSize := by
  obtain ⟨rfl, h1, h2, -⟩ := decode_wellFormed h
  exact ⟨h1, h2⟩

end Sys2Proof
end

