-- ==== Sys2Proof/Laws/Validator.lean ====
section
/-!
SUPPORT. The sweep of the code region: what a listed row is, which row comes next, where the listing stops, and that the
legal targets and the offset where it stops are closed under moving past an instruction (40_engine R128, R132).
-/

namespace Sys2Proof.Machine

variable {cfg : Configuration} {code : Memory}

/-! ### The listing -/

theorem listing_succ_ok {f c len : Nat} {i : Instr} (h : decode cfg code c = .ok i len) :
    listing cfg code (f + 1) c = (c, i, len) :: listing cfg code f (c + len) := by
  rw [listing, h]

theorem listing_succ_stop {f c : Nat} (h : ∀ i len, decode cfg code c ≠ .ok i len) :
    listing cfg code (f + 1) c = [] := by
  rw [listing]
  split
  · next h' => exact absurd h' (h _ _)
  · rfl
  · rfl

theorem listingEnd_succ_ok {f c len : Nat} {i : Instr} (h : decode cfg code c = .ok i len) :
    listingEnd cfg code (f + 1) c = listingEnd cfg code f (c + len) := by
  rw [listingEnd, h]

theorem listingEnd_succ_stop {f c : Nat} (h : ∀ i len, decode cfg code c ≠ .ok i len) :
    listingEnd cfg code (f + 1) c = c := by
  rw [listingEnd]
  split
  · next h' => exact absurd h' (h _ _)
  · rfl
  · rfl

/-- A listed row is the instruction the decoder reads there, at or behind the start. -/
theorem listing_row {f c : Nat} {row : Nat × Instr × Nat} (h : row ∈ listing cfg code f c) :
    decode cfg code row.1 = .ok row.2.1 row.2.2 ∧ c ≤ row.1 := by
  induction f generalizing c with
  | zero => simp [listing] at h
  | succ f ih =>
    by_cases hd : ∃ i len, decode cfg code c = .ok i len
    · obtain ⟨i, len, hd⟩ := hd
      rw [listing_succ_ok hd, List.mem_cons] at h
      rcases h with rfl | h
      · exact ⟨hd, Nat.le_refl c⟩
      · have := ih h
        exact ⟨this.1, by omega⟩
    · rw [listing_succ_stop (by simpa using hd)] at h
      simp at h

/-- Behind a listed row stands the next row, or the listing stops there. -/
theorem listing_next {f c : Nat} {row : Nat × Instr × Nat} (hf : cfg.codeSize ≤ c + f) (h : row ∈ listing cfg code f c) :
    (∃ j m, (row.1 + row.2.2, j, m) ∈ listing cfg code f c) ∨ row.1 + row.2.2 = listingEnd cfg code f c := by
  induction f generalizing c with
  | zero => simp [listing] at h
  | succ f ih =>
    by_cases hd : ∃ i len, decode cfg code c = .ok i len
    · obtain ⟨i, len, hd⟩ := hd
      have hp := decode_pos hd
      rw [listing_succ_ok hd, List.mem_cons] at h
      rw [listing_succ_ok hd, listingEnd_succ_ok hd]
      rcases h with rfl | h
      · dsimp only
        by_cases hn : ∃ j m, decode cfg code (c + len) = .ok j m
        · obtain ⟨j, m, hn⟩ := hn
          have hp' := decode_pos hn
          obtain ⟨g, rfl⟩ : ∃ g, f = g + 1 := ⟨f - 1, by omega⟩
          exact .inl ⟨j, m, by simp [listing_succ_ok hn]⟩
        · right
          cases f with
          | zero => rfl
          | succ g => exact (listingEnd_succ_stop (by simpa using hn)).symm
      · rcases ih (by omega) h with ⟨j, m, h'⟩ | h'
        · exact .inl ⟨j, m, List.mem_cons_of_mem _ h'⟩
        · exact .inr h'
    · rw [listing_succ_stop (by simpa using hd)] at h
      simp at h

/-- A listed row is the first one, or stands behind another listed row. -/
theorem listing_prev {f c : Nat} {row : Nat × Instr × Nat} (h : row ∈ listing cfg code f c) :
    row.1 = c ∨ ∃ p ∈ listing cfg code f c, row.1 = p.1 + p.2.2 := by
  induction f generalizing c with
  | zero => simp [listing] at h
  | succ f ih =>
    by_cases hd : ∃ i len, decode cfg code c = .ok i len
    · obtain ⟨i, len, hd⟩ := hd
      rw [listing_succ_ok hd, List.mem_cons] at h
      rw [listing_succ_ok hd]
      rcases h with rfl | h
      · exact .inl rfl
      · rcases ih h with h' | ⟨p, hp, h'⟩
        · exact .inr ⟨(c, i, len), by simp, h'⟩
        · exact .inr ⟨p, List.mem_cons_of_mem _ hp, h'⟩
    · rw [listing_succ_stop (by simpa using hd)] at h
      simp at h

/-- Two listed rows do not overlap. -/
theorem listing_apart {f c : Nat} {row row' : Nat × Instr × Nat} (h : row ∈ listing cfg code f c)
    (h' : row' ∈ listing cfg code f c) : row'.1 ≤ row.1 ∨ row.1 + row.2.2 ≤ row'.1 := by
  induction f generalizing c with
  | zero => simp [listing] at h
  | succ f ih =>
    by_cases hd : ∃ i len, decode cfg code c = .ok i len
    · obtain ⟨i, len, hd⟩ := hd
      rw [listing_succ_ok hd, List.mem_cons] at h h'
      rcases h with rfl | h <;> rcases h' with rfl | h'
      · exact .inl (Nat.le_refl _)
      · exact .inr (listing_row h').2
      · exact .inl (by have := (listing_row h).2; dsimp only; omega)
      · exact ih h h'
    · rw [listing_succ_stop (by simpa using hd)] at h
      simp at h

/-- With enough fuel the listing stops where the decoder answers no instruction. -/
theorem listingEnd_stop {f c : Nat} (hf : cfg.codeSize ≤ c + f) (i : Instr) (len : Nat) :
    decode cfg code (listingEnd cfg code f c) ≠ .ok i len := by
  induction f generalizing c with
  | zero =>
    intro h
    have := decode_pos h
    simp only [listingEnd] at this
    omega
  | succ f ih =>
    by_cases hd : ∃ i len, decode cfg code c = .ok i len
    · obtain ⟨j, m, hd⟩ := hd
      have := decode_pos hd
      rw [listingEnd_succ_ok hd]
      exact ih (by omega)
    · rw [listingEnd_succ_stop (by simpa using hd)]
      exact fun h => hd ⟨i, len, h⟩

theorem listingEnd_le {f c : Nat} (hc : c ≤ cfg.codeSize) : listingEnd cfg code f c ≤ cfg.codeSize := by
  induction f generalizing c with
  | zero => exact hc
  | succ f ih =>
    by_cases hd : ∃ i len, decode cfg code c = .ok i len
    · obtain ⟨j, m, hd⟩ := hd
      rw [listingEnd_succ_ok hd]
      exact ih (decode_pos hd).2
    · rwa [listingEnd_succ_stop (by simpa using hd)]

/-- With enough fuel an instruction that decodes at the start is listed. -/
theorem listing_start {f c len : Nat} {i : Instr} (hf : cfg.codeSize ≤ c + f) (h : decode cfg code c = .ok i len) :
    (c, i, len) ∈ listing cfg code f c := by
  have := decode_pos h
  obtain ⟨g, rfl⟩ : ∃ g, f = g + 1 := ⟨f - 1, by omega⟩
  simp [listing_succ_ok h]

/-! ### The legal targets -/

/-- A legal target is the start of a listed row, or a byte of a listed no-op run under `EVERY_BYTE`. -/
theorem mem_sweep {c : Nat} :
    c ∈ sweep cfg code ↔ ∃ row ∈ listing cfg code cfg.codeSize 0,
      c = row.1 ∨ (row.2.1.opcode = .nop ∧ cfg.nopRunTargets = .everyByte ∧ row.1 ≤ c ∧ c < row.1 + row.2.2) := by
  simp only [sweep, List.mem_flatMap]
  refine exists_congr fun row => and_congr_right fun hrow => ?_
  have hp := decode_pos (listing_row hrow).1
  unfold targetsOf
  split
  · next h =>
    simp only [List.mem_range'_1, h.1, h.2, true_and]
    omega
  · next h =>
    simp only [List.mem_singleton]
    constructor
    · exact .inl
    · rintro (h' | ⟨h1, h2, -⟩)
      · exact h'
      · exact absurd ⟨h1, h2⟩ h

/-- Under `RUN_START` the legal targets are the starts of the listed rows. -/
theorem mem_sweep_runStart {c : Nat} (hr : cfg.nopRunTargets = .runStart) :
    c ∈ sweep cfg code ↔ ∃ row ∈ listing cfg code cfg.codeSize 0, c = row.1 := by
  rw [mem_sweep]
  simp [hr]

/-- The start of every listed row is a legal target. -/
theorem mem_sweep_of_row {row : Nat × Instr × Nat} (h : row ∈ listing cfg code cfg.codeSize 0) :
    row.1 ∈ sweep cfg code :=
  mem_sweep.2 ⟨row, h, .inl rfl⟩

/-- A legal target is inside the code region. -/
theorem sweep_lt {c : Nat} (h : c ∈ sweep cfg code) : c < cfg.codeSize := by
  obtain ⟨row, hrow, h⟩ := mem_sweep.1 h
  have := decode_pos (listing_row hrow).1
  omega

theorem sweepEnd_le : sweepEnd cfg code ≤ cfg.codeSize :=
  listingEnd_le (Nat.zero_le _)

/-- Nothing decodes where the sweep stops. -/
theorem sweepEnd_stop (i : Instr) (len : Nat) : decode cfg code (sweepEnd cfg code) ≠ .ok i len :=
  listingEnd_stop (by omega) i len

/-- Inside a no-op run the rest of the run decodes as a run. -/
theorem decode_in_run {c k d : Nat} {i : Instr} (h : decode cfg code c = .ok i k) (hi : i.opcode = .nop) (h1 : c ≤ d)
    (h2 : d < c + k) : decode cfg code d = .ok (.nop (c + k - d)) (c + k - d) := by
  obtain ⟨hc, op, ho, ⟨rfl, hk, -⟩ | ⟨hn, -, -, rfl, -, -⟩⟩ := decode_ok.1 h
  · have hall := runLength_all code (code.read c) (cfg.codeSize - c) c
    have hle := runLength_le code (code.read c) (cfg.codeSize - c) c
    have hs := runLength_stops code (code.read c) (cfg.codeSize - c) c
    rw [← hk] at hall hle hs
    have hb : code.read d = code.read c := by
      rw [show d = c + (d - c) by omega]
      exact hall _ (by omega)
    have hrun : runLength code (code.read d) (cfg.codeSize - d) d = c + k - d := by
      rw [hb]
      refine runLength_eq _ _ _ _ _ (by omega) (fun j hj => ?_) ?_
      · rw [show d + j = c + (d - c + j) by omega]
        exact hall _ (by omega)
      · rcases hs with hs | hs
        · exact .inl (by omega)
        · exact .inr (by rwa [show d + (c + k - d) = c + k by omega])
    exact decode_ok.2 ⟨by omega, .nop, by rw [hb]; exact ho, .inl ⟨rfl, hrun.symm, rfl⟩⟩
  · exact absurd hi (by rwa [assemble_opcode])

/-- A legal target decodes, and behind the instruction there stands a legal target or the offset where the sweep stops
(40_engine R132), under both settings of `NOP_RUN_TARGETS`. -/
theorem sweep_next {c : Nat} (h : c ∈ sweep cfg code) :
    ∃ i len, decode cfg code c = .ok i len ∧ (c + len ∈ sweep cfg code ∨ c + len = sweepEnd cfg code) := by
  obtain ⟨row, hrow, h⟩ := mem_sweep.1 h
  have hd := (listing_row hrow).1
  have hnext : row.1 + row.2.2 ∈ sweep cfg code ∨ row.1 + row.2.2 = sweepEnd cfg code := by
    rcases listing_next (by omega) hrow with ⟨j, m, h'⟩ | h'
    · exact .inl (mem_sweep_of_row h')
    · exact .inr h'
  rcases h with rfl | ⟨hn, -, h1, h2⟩
  · exact ⟨_, _, hd, hnext⟩
  · refine ⟨_, _, decode_in_run hd hn h1 h2, ?_⟩
    rwa [show c + (row.1 + row.2.2 - c) = row.1 + row.2.2 by omega]

/-- Offset 0 is a legal target, or the sweep stops there. -/
theorem sweep_zero : 0 ∈ sweep cfg code ∨ 0 = sweepEnd cfg code := by
  by_cases hd : ∃ i len, decode cfg code 0 = .ok i len
  · obtain ⟨i, len, hd⟩ := hd
    exact .inl (mem_sweep_of_row (listing_start (by omega) hd))
  · right
    rw [sweepEnd]
    cases cfg.codeSize with
    | zero => rfl
    | succ n => exact (listingEnd_succ_stop (by simpa using hd)).symm

end Sys2Proof.Machine
end

