-- ==== Sys2Proof/Laws/Bounds.lean ====
section
/-!
SUPPORT. Addresses and offsets as exact numbers: a valid slot lies in the data zone, moving past a decoded instruction and
jumping to a legal target lose no bit of `pc` (40_engine R117), and each effect keeps the configuration, the code region
and the legal targets.
-/

namespace Sys2Proof.Machine

/-- A valid slot ends inside the data zone (20_memory R64). -/
theorem slotOff_add_le {cfg : Configuration} {a : Int} (h : cfg.ValidData a) : slotOff a + 8 ≤ cfg.dataSize := by
  obtain ⟨h0, h1⟩ := h
  simp only [slotOff]
  omega

/-- Moving on inside a code region of a legal size is exact. -/
theorem toNat_add_len {pc : Reg} {len size : Nat} (hs : size ≤ Config.maxSize) (h : pc.toNat + len ≤ size) :
    (pc + BitVec.ofNat 32 len).toNat = pc.toNat + len := by
  rw [BitVec.toNat_add, BitVec.toNat_ofNat]
  have : Config.maxSize < 2 ^ 32 := by decide
  omega

/-- A legal target survives being written to `pc`. -/
theorem toNat_target {t : Int} {size : Nat} (hs : size ≤ Config.maxSize) (h0 : 0 ≤ t) (h : t.toNat < size) :
    ((BitVec.ofInt 32 t).toNat : Int) = t := by
  rw [BitVec.toNat_ofInt]
  have : Config.maxSize < 2 ^ 32 := by decide
  omega

/-- A depth below a legal capacity grows by exactly 1. -/
theorem toNat_add_one {r : Reg} {cap : Nat} (hc : cap ≤ Config.maxSize) (h : r.toNat < cap) :
    (r + 1#32).toNat = r.toNat + 1 := by
  have : Config.maxSize < 2 ^ 32 := by decide
  rw [BitVec.toNat_add, BitVec.toNat_ofNat]
  omega

/-- A depth that is not 0 drops by exactly 1. -/
theorem toNat_sub_one {r : Reg} (h : r.toNat ≠ 0) : (r - 1#32).toNat = r.toNat - 1 := by
  rw [BitVec.toNat_sub, BitVec.toNat_ofNat]
  omega

/-- No effect changes the configuration, the code region or the legal targets (20_memory R76). -/
theorem Effect.sameProgram {i : Instr} {s t : State} (h : Effect i s t) : SameProgram s t := by
  cases h <;> simp [SameProgram]

end Sys2Proof.Machine
end

