-- ==== Sys2Proof/Laws/PerInstr.lean ====
section
/-!
SUPPORT. Two facts about every instruction as syntax, one lemma per constructor: its encoding has its length (30_encoding
R109), and reading the fields of its encoding gives it back, with every operand at every value (R91 to R93).
-/

namespace Sys2Proof

/-- The encoding has the instruction's length. -/
def Laws.EncodeLength.Statement (i : Instr) : Prop :=
  ∀ map : OpcodeMap, (encode map i).length = i.length

/-- The fields of the encoding, read back, are the instruction's. -/
def Laws.FieldsReadBack.Statement (i : Instr) : Prop :=
  ∀ map : OpcodeMap, assemble i.opcode (encode map i) = i

theorem Laws.EncodeLength.nop (k : Nat) : Laws.EncodeLength.Statement (.nop k) :=
  fun map => encode_length map _

theorem Laws.EncodeLength.setVal (a1 : DataAddr) (v : Slot) : Laws.EncodeLength.Statement (.setVal a1 v) :=
  fun map => encode_length map _

theorem Laws.EncodeLength.setDat (a1 : DataAddr) (a2 : DataAddr) : Laws.EncodeLength.Statement (.setDat a1 a2) :=
  fun map => encode_length map _

theorem Laws.EncodeLength.clrDat (a1 : DataAddr) : Laws.EncodeLength.Statement (.clrDat a1) :=
  fun map => encode_length map _

theorem Laws.EncodeLength.incDat (a1 : DataAddr) : Laws.EncodeLength.Statement (.incDat a1) :=
  fun map => encode_length map _

theorem Laws.EncodeLength.decDat (a1 : DataAddr) : Laws.EncodeLength.Statement (.decDat a1) :=
  fun map => encode_length map _

theorem Laws.EncodeLength.addDat (a1 : DataAddr) (a2 : DataAddr) : Laws.EncodeLength.Statement (.addDat a1 a2) :=
  fun map => encode_length map _

theorem Laws.EncodeLength.subDat (a1 : DataAddr) (a2 : DataAddr) : Laws.EncodeLength.Statement (.subDat a1 a2) :=
  fun map => encode_length map _

theorem Laws.EncodeLength.mulDat (a1 : DataAddr) (a2 : DataAddr) : Laws.EncodeLength.Statement (.mulDat a1 a2) :=
  fun map => encode_length map _

theorem Laws.EncodeLength.divDat (a1 : DataAddr) (a2 : DataAddr) : Laws.EncodeLength.Statement (.divDat a1 a2) :=
  fun map => encode_length map _

theorem Laws.EncodeLength.borDat (a1 : DataAddr) (a2 : DataAddr) : Laws.EncodeLength.Statement (.borDat a1 a2) :=
  fun map => encode_length map _

theorem Laws.EncodeLength.andDat (a1 : DataAddr) (a2 : DataAddr) : Laws.EncodeLength.Statement (.andDat a1 a2) :=
  fun map => encode_length map _

theorem Laws.EncodeLength.xorDat (a1 : DataAddr) (a2 : DataAddr) : Laws.EncodeLength.Statement (.xorDat a1 a2) :=
  fun map => encode_length map _

theorem Laws.EncodeLength.notDat (a1 : DataAddr) : Laws.EncodeLength.Statement (.notDat a1) :=
  fun map => encode_length map _

theorem Laws.EncodeLength.setInd (a1 : DataAddr) (a2 : DataAddr) : Laws.EncodeLength.Statement (.setInd a1 a2) :=
  fun map => encode_length map _

theorem Laws.EncodeLength.setIdx (a1 : DataAddr) (a2 : DataAddr) (a3 : DataAddr) : Laws.EncodeLength.Statement (.setIdx a1 a2 a3) :=
  fun map => encode_length map _

theorem Laws.EncodeLength.pshDat (a1 : DataAddr) : Laws.EncodeLength.Statement (.pshDat a1) :=
  fun map => encode_length map _

theorem Laws.EncodeLength.popDat (a1 : DataAddr) : Laws.EncodeLength.Statement (.popDat a1) :=
  fun map => encode_length map _

theorem Laws.EncodeLength.jmpSub (c : CodeAddr) : Laws.EncodeLength.Statement (.jmpSub c) :=
  fun map => encode_length map _

theorem Laws.EncodeLength.retSub : Laws.EncodeLength.Statement .retSub :=
  fun map => encode_length map _

theorem Laws.EncodeLength.jmpAdr (c : CodeAddr) : Laws.EncodeLength.Statement (.jmpAdr c) :=
  fun map => encode_length map _

theorem Laws.EncodeLength.bzrDat (a1 : DataAddr) (off : Offset) : Laws.EncodeLength.Statement (.bzrDat a1 off) :=
  fun map => encode_length map _

theorem Laws.EncodeLength.bnzDat (a1 : DataAddr) (off : Offset) : Laws.EncodeLength.Statement (.bnzDat a1 off) :=
  fun map => encode_length map _

theorem Laws.EncodeLength.bgtDat (a1 : DataAddr) (a2 : DataAddr) (off : Offset) : Laws.EncodeLength.Statement (.bgtDat a1 a2 off) :=
  fun map => encode_length map _

theorem Laws.EncodeLength.bltDat (a1 : DataAddr) (a2 : DataAddr) (off : Offset) : Laws.EncodeLength.Statement (.bltDat a1 a2 off) :=
  fun map => encode_length map _

theorem Laws.EncodeLength.bgeDat (a1 : DataAddr) (a2 : DataAddr) (off : Offset) : Laws.EncodeLength.Statement (.bgeDat a1 a2 off) :=
  fun map => encode_length map _

theorem Laws.EncodeLength.bleDat (a1 : DataAddr) (a2 : DataAddr) (off : Offset) : Laws.EncodeLength.Statement (.bleDat a1 a2 off) :=
  fun map => encode_length map _

theorem Laws.EncodeLength.beqDat (a1 : DataAddr) (a2 : DataAddr) (off : Offset) : Laws.EncodeLength.Statement (.beqDat a1 a2 off) :=
  fun map => encode_length map _

theorem Laws.EncodeLength.bneDat (a1 : DataAddr) (a2 : DataAddr) (off : Offset) : Laws.EncodeLength.Statement (.bneDat a1 a2 off) :=
  fun map => encode_length map _

theorem Laws.EncodeLength.slpDat (a1 : DataAddr) : Laws.EncodeLength.Statement (.slpDat a1) :=
  fun map => encode_length map _

theorem Laws.EncodeLength.fizDat (a1 : DataAddr) : Laws.EncodeLength.Statement (.fizDat a1) :=
  fun map => encode_length map _

theorem Laws.EncodeLength.stzDat (a1 : DataAddr) : Laws.EncodeLength.Statement (.stzDat a1) :=
  fun map => encode_length map _

theorem Laws.EncodeLength.finImd : Laws.EncodeLength.Statement .finImd :=
  fun map => encode_length map _

theorem Laws.EncodeLength.stpImd : Laws.EncodeLength.Statement .stpImd :=
  fun map => encode_length map _

theorem Laws.EncodeLength.setPcs : Laws.EncodeLength.Statement .setPcs :=
  fun map => encode_length map _

theorem Laws.EncodeLength.extFun (fn : FunId) : Laws.EncodeLength.Statement (.extFun fn) :=
  fun map => encode_length map _

theorem Laws.EncodeLength.extFunDat (fn : FunId) (a1 : DataAddr) : Laws.EncodeLength.Statement (.extFunDat fn a1) :=
  fun map => encode_length map _

theorem Laws.EncodeLength.extFunDat2 (fn : FunId) (a1 : DataAddr) (a2 : DataAddr) : Laws.EncodeLength.Statement (.extFunDat2 fn a1 a2) :=
  fun map => encode_length map _

theorem Laws.EncodeLength.extFunRet (fn : FunId) (a1 : DataAddr) : Laws.EncodeLength.Statement (.extFunRet fn a1) :=
  fun map => encode_length map _

theorem Laws.EncodeLength.extFunRetDat (fn : FunId) (a1 : DataAddr) (a2 : DataAddr) : Laws.EncodeLength.Statement (.extFunRetDat fn a1 a2) :=
  fun map => encode_length map _

theorem Laws.EncodeLength.extFunRetDat2 (fn : FunId) (a1 : DataAddr) (a2 : DataAddr) (a3 : DataAddr) : Laws.EncodeLength.Statement (.extFunRetDat2 fn a1 a2 a3) :=
  fun map => encode_length map _

theorem Laws.FieldsReadBack.nop (k : Nat) : Laws.FieldsReadBack.Statement (.nop k) :=
  fun map => assemble_encode map _

theorem Laws.FieldsReadBack.setVal (a1 : DataAddr) (v : Slot) : Laws.FieldsReadBack.Statement (.setVal a1 v) :=
  fun map => assemble_encode map _

theorem Laws.FieldsReadBack.setDat (a1 : DataAddr) (a2 : DataAddr) : Laws.FieldsReadBack.Statement (.setDat a1 a2) :=
  fun map => assemble_encode map _

theorem Laws.FieldsReadBack.clrDat (a1 : DataAddr) : Laws.FieldsReadBack.Statement (.clrDat a1) :=
  fun map => assemble_encode map _

theorem Laws.FieldsReadBack.incDat (a1 : DataAddr) : Laws.FieldsReadBack.Statement (.incDat a1) :=
  fun map => assemble_encode map _

theorem Laws.FieldsReadBack.decDat (a1 : DataAddr) : Laws.FieldsReadBack.Statement (.decDat a1) :=
  fun map => assemble_encode map _

theorem Laws.FieldsReadBack.addDat (a1 : DataAddr) (a2 : DataAddr) : Laws.FieldsReadBack.Statement (.addDat a1 a2) :=
  fun map => assemble_encode map _

theorem Laws.FieldsReadBack.subDat (a1 : DataAddr) (a2 : DataAddr) : Laws.FieldsReadBack.Statement (.subDat a1 a2) :=
  fun map => assemble_encode map _

theorem Laws.FieldsReadBack.mulDat (a1 : DataAddr) (a2 : DataAddr) : Laws.FieldsReadBack.Statement (.mulDat a1 a2) :=
  fun map => assemble_encode map _

theorem Laws.FieldsReadBack.divDat (a1 : DataAddr) (a2 : DataAddr) : Laws.FieldsReadBack.Statement (.divDat a1 a2) :=
  fun map => assemble_encode map _

theorem Laws.FieldsReadBack.borDat (a1 : DataAddr) (a2 : DataAddr) : Laws.FieldsReadBack.Statement (.borDat a1 a2) :=
  fun map => assemble_encode map _

theorem Laws.FieldsReadBack.andDat (a1 : DataAddr) (a2 : DataAddr) : Laws.FieldsReadBack.Statement (.andDat a1 a2) :=
  fun map => assemble_encode map _

theorem Laws.FieldsReadBack.xorDat (a1 : DataAddr) (a2 : DataAddr) : Laws.FieldsReadBack.Statement (.xorDat a1 a2) :=
  fun map => assemble_encode map _

theorem Laws.FieldsReadBack.notDat (a1 : DataAddr) : Laws.FieldsReadBack.Statement (.notDat a1) :=
  fun map => assemble_encode map _

theorem Laws.FieldsReadBack.setInd (a1 : DataAddr) (a2 : DataAddr) : Laws.FieldsReadBack.Statement (.setInd a1 a2) :=
  fun map => assemble_encode map _

theorem Laws.FieldsReadBack.setIdx (a1 : DataAddr) (a2 : DataAddr) (a3 : DataAddr) : Laws.FieldsReadBack.Statement (.setIdx a1 a2 a3) :=
  fun map => assemble_encode map _

theorem Laws.FieldsReadBack.pshDat (a1 : DataAddr) : Laws.FieldsReadBack.Statement (.pshDat a1) :=
  fun map => assemble_encode map _

theorem Laws.FieldsReadBack.popDat (a1 : DataAddr) : Laws.FieldsReadBack.Statement (.popDat a1) :=
  fun map => assemble_encode map _

theorem Laws.FieldsReadBack.jmpSub (c : CodeAddr) : Laws.FieldsReadBack.Statement (.jmpSub c) :=
  fun map => assemble_encode map _

theorem Laws.FieldsReadBack.retSub : Laws.FieldsReadBack.Statement .retSub :=
  fun map => assemble_encode map _

theorem Laws.FieldsReadBack.jmpAdr (c : CodeAddr) : Laws.FieldsReadBack.Statement (.jmpAdr c) :=
  fun map => assemble_encode map _

theorem Laws.FieldsReadBack.bzrDat (a1 : DataAddr) (off : Offset) : Laws.FieldsReadBack.Statement (.bzrDat a1 off) :=
  fun map => assemble_encode map _

theorem Laws.FieldsReadBack.bnzDat (a1 : DataAddr) (off : Offset) : Laws.FieldsReadBack.Statement (.bnzDat a1 off) :=
  fun map => assemble_encode map _

theorem Laws.FieldsReadBack.bgtDat (a1 : DataAddr) (a2 : DataAddr) (off : Offset) : Laws.FieldsReadBack.Statement (.bgtDat a1 a2 off) :=
  fun map => assemble_encode map _

theorem Laws.FieldsReadBack.bltDat (a1 : DataAddr) (a2 : DataAddr) (off : Offset) : Laws.FieldsReadBack.Statement (.bltDat a1 a2 off) :=
  fun map => assemble_encode map _

theorem Laws.FieldsReadBack.bgeDat (a1 : DataAddr) (a2 : DataAddr) (off : Offset) : Laws.FieldsReadBack.Statement (.bgeDat a1 a2 off) :=
  fun map => assemble_encode map _

theorem Laws.FieldsReadBack.bleDat (a1 : DataAddr) (a2 : DataAddr) (off : Offset) : Laws.FieldsReadBack.Statement (.bleDat a1 a2 off) :=
  fun map => assemble_encode map _

theorem Laws.FieldsReadBack.beqDat (a1 : DataAddr) (a2 : DataAddr) (off : Offset) : Laws.FieldsReadBack.Statement (.beqDat a1 a2 off) :=
  fun map => assemble_encode map _

theorem Laws.FieldsReadBack.bneDat (a1 : DataAddr) (a2 : DataAddr) (off : Offset) : Laws.FieldsReadBack.Statement (.bneDat a1 a2 off) :=
  fun map => assemble_encode map _

theorem Laws.FieldsReadBack.slpDat (a1 : DataAddr) : Laws.FieldsReadBack.Statement (.slpDat a1) :=
  fun map => assemble_encode map _

theorem Laws.FieldsReadBack.fizDat (a1 : DataAddr) : Laws.FieldsReadBack.Statement (.fizDat a1) :=
  fun map => assemble_encode map _

theorem Laws.FieldsReadBack.stzDat (a1 : DataAddr) : Laws.FieldsReadBack.Statement (.stzDat a1) :=
  fun map => assemble_encode map _

theorem Laws.FieldsReadBack.finImd : Laws.FieldsReadBack.Statement .finImd :=
  fun map => assemble_encode map _

theorem Laws.FieldsReadBack.stpImd : Laws.FieldsReadBack.Statement .stpImd :=
  fun map => assemble_encode map _

theorem Laws.FieldsReadBack.setPcs : Laws.FieldsReadBack.Statement .setPcs :=
  fun map => assemble_encode map _

theorem Laws.FieldsReadBack.extFun (fn : FunId) : Laws.FieldsReadBack.Statement (.extFun fn) :=
  fun map => assemble_encode map _

theorem Laws.FieldsReadBack.extFunDat (fn : FunId) (a1 : DataAddr) : Laws.FieldsReadBack.Statement (.extFunDat fn a1) :=
  fun map => assemble_encode map _

theorem Laws.FieldsReadBack.extFunDat2 (fn : FunId) (a1 : DataAddr) (a2 : DataAddr) : Laws.FieldsReadBack.Statement (.extFunDat2 fn a1 a2) :=
  fun map => assemble_encode map _

theorem Laws.FieldsReadBack.extFunRet (fn : FunId) (a1 : DataAddr) : Laws.FieldsReadBack.Statement (.extFunRet fn a1) :=
  fun map => assemble_encode map _

theorem Laws.FieldsReadBack.extFunRetDat (fn : FunId) (a1 : DataAddr) (a2 : DataAddr) : Laws.FieldsReadBack.Statement (.extFunRetDat fn a1 a2) :=
  fun map => assemble_encode map _

theorem Laws.FieldsReadBack.extFunRetDat2 (fn : FunId) (a1 : DataAddr) (a2 : DataAddr) (a3 : DataAddr) : Laws.FieldsReadBack.Statement (.extFunRetDat2 fn a1 a2 a3) :=
  fun map => assemble_encode map _

end Sys2Proof
end

