-- ==== Sys2Proof/Tests/Slice0.lean ====
section
/-!
SUPPORT. Small tests of the model's own text: bytes written out from the spec's encodings, ill-formed terms refused, at most
two single steps an instruction with results from 95_test_vectors, and a witness for every statement that has hypotheses.
-/

namespace Sys2Proof.Tests

open Sys2Proof Sys2Proof.Machine

/-! ### Small states -/

/-- Give the data slots from `a` on the listed values. -/
def fillSlots : Nat → List Int → State → State
  | _, [], s => s
  | a, v :: vs, s => fillSlots (a + 1) vs (s.setSlot a (BitVec.ofInt 64 v))

/-- A just-reset instance with the given code, sizes (DATA, CS, US) and slot values. -/
def small (code : List Byte) (ds css uss : Nat) (slots : List Int) : State :=
  fillSlots 0 slots (State.construct State.reset code
    { resetConfiguration with codeSize := code.length, dataSize := ds, csSize := css, usSize := uss }).resetCommand

/-- The step result on the command port. -/
def result (s : State) : Option StepResult :=
  match executeStep s with
  | .ok (r, _) => some r
  | .error _ => none

/-- The state the step leaves. -/
def after (s : State) : State :=
  match executeStep s with
  | .ok (_, t) => t
  | .error _ => s

/-- The answers the host gives, put in front of the calls to come. -/
def withAnswers (s : State) (rs : List ExtResponse) : State :=
  { s with ext := { s.ext with answers := rs } }

/-- An answer with no flag write. -/
def answer (ok : Bool) (v : Slot) : ExtResponse where
  ok := ok
  value := v
  flagWrite := none
  context := 1

/-- A configuration of `n` code bytes and `ds` data bytes. -/
def sized (n ds : Nat) : Configuration :=
  { resetConfiguration with codeSize := n, dataSize := ds }

/-! ### Decoding: bytes written out from the spec's encoding of every instruction -/

/-- 41_data_movement; 30_encoding R93, R97. -/
theorem test_decode_data_movement :
    decodeBytes [0x7f, 0x7f, 0x28] = .ok (.nop 2) 2 ∧
    decodeBytes [0x01, 0x00, 0x00, 0x00, 0x00, 0x00, 0x00, 0x00, 0x00, 0x00, 0x00, 0x00, 0x80] = .ok (.setVal 0 0x8000000000000000) 13 ∧
    decodeBytes [0x02, 0x01, 0x00, 0x00, 0x00, 0x02, 0x00, 0x00, 0x00] = .ok (.setDat 1 2) 9 ∧
    decodeBytes [0x03, 0x03, 0x00, 0x00, 0x00] = .ok (.clrDat 3) 5 ∧
    decodeBytes [0x04, 0x04, 0x00, 0x00, 0x00] = .ok (.incDat 4) 5 ∧
    decodeBytes [0x05, 0x05, 0x00, 0x00, 0x00] = .ok (.decDat 5) 5 ∧
    decodeBytes [0x0d, 0x06, 0x00, 0x00, 0x00] = .ok (.notDat 6) 5 ∧
    decodeBytes [0x0e, 0x01, 0x00, 0x00, 0x00, 0x00, 0x00, 0x00, 0x00] = .ok (.setInd 1 0) 9 ∧
    decodeBytes [0x0f, 0x04, 0x00, 0x00, 0x00, 0x00, 0x00, 0x00, 0x00, 0x02, 0x00, 0x00, 0x00] = .ok (.setIdx 4 0 2) 13 := by
  refine ⟨?_, ?_, ?_, ?_, ?_, ?_, ?_, ?_, ?_⟩ <;> decide

/-- 42_arithmetic; 30_encoding R93, R97. -/
theorem test_decode_arithmetic :
    decodeBytes [0x06, 0x00, 0x00, 0x00, 0x00, 0x01, 0x00, 0x00, 0x00] = .ok (.addDat 0 1) 9 ∧
    decodeBytes [0x07, 0x7f, 0x00, 0x00, 0x00, 0x01, 0x00, 0x00, 0x00] = .ok (.subDat 127 1) 9 ∧
    decodeBytes [0x08, 0x01, 0x00, 0x00, 0x00, 0x01, 0x00, 0x00, 0x00] = .ok (.mulDat 1 1) 9 ∧
    decodeBytes [0x09, 0x01, 0x00, 0x00, 0x00, 0x04, 0x00, 0x00, 0x00] = .ok (.divDat 1 4) 9 ∧
    decodeBytes [0x0a, 0x00, 0x00, 0x00, 0x00, 0x01, 0x00, 0x00, 0x00] = .ok (.borDat 0 1) 9 ∧
    decodeBytes [0x0b, 0x02, 0x00, 0x00, 0x00, 0x03, 0x00, 0x00, 0x00] = .ok (.andDat 2 3) 9 ∧
    decodeBytes [0x0c, 0x04, 0x00, 0x00, 0x00, 0x05, 0x00, 0x00, 0x00] = .ok (.xorDat 4 5) 9 := by
  refine ⟨?_, ?_, ?_, ?_, ?_, ?_, ?_⟩ <;> decide

/-- 43_stack, 44_control; 30_encoding R93, R97. -/
theorem test_decode_stack_and_control :
    decodeBytes [0x10, 0x02, 0x00, 0x00, 0x00] = .ok (.pshDat 2) 5 ∧
    decodeBytes [0x11, 0x01, 0x00, 0x00, 0x00] = .ok (.popDat 1) 5 ∧
    decodeBytes [0x12, 0x06, 0x00, 0x00, 0x00, 0x28, 0x13] = .ok (.jmpSub 6) 5 ∧
    decodeBytes [0x13] = .ok .retSub 1 ∧
    decodeBytes [0x1a, 0x05, 0x00, 0x00, 0x00, 0x28] = .ok (.jmpAdr 5) 5 := by
  refine ⟨?_, ?_, ?_, ?_, ?_⟩ <;> decide

/-- 44_control; the offset is one signed byte (R91). -/
theorem test_decode_branches :
    decodeBytes [0x1b, 0x00, 0x00, 0x00, 0x00, 0x07, 0x28, 0x28] = .ok (.bzrDat 0 7) 6 ∧
    decodeBytes [0x1e, 0x01, 0x00, 0x00, 0x00, 0x00] = .ok (.bnzDat 1 0) 6 ∧
    decodeBytes [0x1f, 0x00, 0x00, 0x00, 0x00, 0x01, 0x00, 0x00, 0x00, 0x0a, 0x28] = .ok (.bgtDat 0 1 10) 10 ∧
    decodeBytes [0x20, 0x01, 0x00, 0x00, 0x00, 0x02, 0x00, 0x00, 0x00, 0x01] = .ok (.bltDat 1 2 1) 10 ∧
    decodeBytes [0x21, 0x02, 0x00, 0x00, 0x00, 0x03, 0x00, 0x00, 0x00, 0x02] = .ok (.bgeDat 2 3 2) 10 ∧
    decodeBytes [0x22, 0x03, 0x00, 0x00, 0x00, 0x04, 0x00, 0x00, 0x00, 0x03] = .ok (.bleDat 3 4 3) 10 ∧
    decodeBytes [0x23, 0x04, 0x00, 0x00, 0x00, 0x05, 0x00, 0x00, 0x00, 0x04] = .ok (.beqDat 4 5 4) 10 ∧
    decodeBytes [0x24, 0x05, 0x00, 0x00, 0x00, 0x06, 0x00, 0x00, 0x00, 0x05] = .ok (.bneDat 5 6 5) 10 := by
  refine ⟨?_, ?_, ?_, ?_, ?_, ?_, ?_, ?_⟩ <;> decide

/-- 45_system; 30_encoding R93, R97. -/
theorem test_decode_system :
    decodeBytes [0x25, 0x00, 0x00, 0x00, 0x00] = .ok (.slpDat 0) 5 ∧
    decodeBytes [0x26, 0x01, 0x00, 0x00, 0x00] = .ok (.fizDat 1) 5 ∧
    decodeBytes [0x27, 0x05, 0x00, 0x00, 0x00] = .ok (.stzDat 5) 5 ∧
    decodeBytes [0x28] = .ok .finImd 1 ∧
    decodeBytes [0x29] = .ok .stpImd 1 ∧
    decodeBytes [0x30] = .ok .setPcs 1 := by
  refine ⟨?_, ?_, ?_, ?_, ?_, ?_⟩ <;> decide

/-- 46_external; the function id is two unsigned bytes (R91). -/
theorem test_decode_external :
    decodeBytes [0x32, 0x02, 0x01] = .ok (.extFun 0x0102) 3 ∧
    decodeBytes [0x33, 0x02, 0x00, 0x00, 0x00, 0x00, 0x00] = .ok (.extFunDat 2 0) 7 ∧
    decodeBytes [0x34, 0x02, 0x00, 0x00, 0x00, 0x00, 0x00, 0x01, 0x00, 0x00, 0x00] = .ok (.extFunDat2 2 0 1) 11 ∧
    decodeBytes [0x35, 0xff, 0xff, 0x00, 0x00, 0x00, 0x00] = .ok (.extFunRet 0xffff 0) 7 ∧
    decodeBytes [0x36, 0x01, 0x00, 0x00, 0x00, 0x00, 0x00, 0x01, 0x00, 0x00, 0x00] = .ok (.extFunRetDat 1 0 1) 11 ∧
    decodeBytes [0x37, 0x01, 0x00, 0x02, 0x00, 0x00, 0x00, 0x00, 0x00, 0x00, 0x00, 0x01, 0x00, 0x00, 0x00] = .ok (.extFunRetDat2 1 2 0 1) 15 := by
  refine ⟨?_, ?_, ?_, ?_, ?_, ?_⟩ <;> decide

/-- A backward branch: the offset `f2` is -14, and the target 40 - 14 = 26 (program P1). -/
theorem test_decode_backward :
    decode (sized 47 16) (codeOf (List.replicate 40 0x7f ++ [0x1e, 0, 0, 0, 0, 0xf2, 0x28])) 40 =
      .ok (.bnzDat 0 0xf2) 6 := by
  decide

/-- Words the decoder rejects, each by its cause (V30-1, V30-2, V30-3, V30-5, V30-6, V30-7, V30-12, V30-14). -/
theorem test_decode_rejects :
    decode (sized 0 8) [] 0 = .noInstr ∧ decodeBytes [0x00] = .err .unknownOpcode ∧
    decodeBytes [0x14] = .err .unknownOpcode ∧ decodeBytes [0x31] = .err .unknownOpcode ∧
    decodeBytes [0xff] = .err .unknownOpcode ∧
    decodeBytes [0x01, 0, 0, 0, 0, 5, 0, 0, 0, 0, 0, 0] = .err .operandBounds ∧
    decodeBytes [0x1a, 6, 0, 0, 0, 0x28] = .err .codeAddress ∧
    decodeBytes [0x1b, 0, 0, 0, 0, 8, 0x28, 0x28] = .err .codeAddress := by
  refine ⟨?_, ?_, ?_, ?_, ?_, ?_, ?_, ?_⟩ <;> decide

/-- Data addresses at the edges of a zone of one slot: 0 passes, 1 and -1 fail (V30-10, V30-11). -/
theorem test_decode_data_address :
    decode (sized 5 8) (codeOf [0x03, 0, 0, 0, 0]) 0 = .ok (.clrDat 0) 5 ∧
    decode (sized 5 8) (codeOf [0x03, 1, 0, 0, 0]) 0 = .err .dataAddress ∧
    decode (sized 5 8) (codeOf [0x03, 0xff, 0xff, 0xff, 0xff]) 0 = .err .dataAddress := by
  refine ⟨?_, ?_, ?_⟩ <;> decide

/-- The table's numbering: bit 0 is the least significant bit of the first byte, and the bits above are zero. -/
theorem test_decode_table_word :
    decodeTableWord 8 0x28 = some .finImd ∧ decodeTableWord 8 0x01 = some (.setVal 0 0) ∧
    decodeTableWord 24 0x010232 = some (.extFun 0x0102) ∧ decodeTableWord 8 0x00 = none := by
  refine ⟨?_, ?_, ?_, ?_⟩ <;> decide

/-- The encoder writes the bytes of the spec's example (W1). -/
theorem test_encode : encode opcodeTable (.setVal 0 5) = [0x01, 0, 0, 0, 0, 5, 0, 0, 0, 0, 0, 0, 0] := by
  decide

/-! ### Well-formedness: one ill-formed term for each check -/

/-- Each check passes on a good term. -/
theorem test_wellFormed : Instr.WellFormed (sized 20 16) 10 (.bzrDat 1 (-10)) ∧ opcodeTable.wf ∧ resetConfiguration.wf := by
  refine ⟨?_, opcodeTable_wf, by decide, by decide, by decide, by decide, opcodeTable_wf⟩
  decide

/-- A no-op run of no byte (R100). -/
theorem test_illFormed_empty : ¬ Instr.WellFormed (sized 20 16) 0 (.nop 0) := by
  decide

/-- An instruction that runs past the code region (R103). -/
theorem test_illFormed_bounds : ¬ Instr.WellFormed (sized 12 16) 0 (.setVal 0 5) := by
  decide

/-- A data address outside the data zone, above and below (R105). -/
theorem test_illFormed_data :
    ¬ Instr.WellFormed (sized 20 16) 0 (.addDat 0 2) ∧ ¬ Instr.WellFormed (sized 20 16) 0 (.addDat (-1) 0) := by
  decide

/-- A code address and a branch target outside the code region (R106). -/
theorem test_illFormed_code :
    ¬ Instr.WellFormed (sized 20 16) 0 (.jmpAdr 20) ∧ ¬ Instr.WellFormed (sized 20 16) 9 (.bzrDat 0 (-10)) := by
  decide

/-- A map with one byte for two opcodes, and one that lacks an opcode (R97, R98). -/
theorem test_illFormed_map :
    ¬ OpcodeMap.wf [(0x01, .setVal), (0x01, .setDat)] ∧ ¬ OpcodeMap.wf [(0x01, .setVal)] := by
  refine ⟨fun h => absurd h.1 (by decide), fun h => absurd (h.2.2 .nop (by decide)) (by decide)⟩

/-! ### One step of each instruction -/

/-- V41-1. -/
theorem test_nop :
    let s := small [0x7f, 0x7f, 0x7f, 0x28] 8 0 0 []
    result s = some (.ok 3) ∧
    (after s).pc = 3 ∧
    (after s).steps = 1 := by
  refine ⟨?_, ?_, ?_⟩ <;> decide

/-- V41-3. -/
theorem test_setVal :
    let s := small [0x01, 0x00, 0x00, 0x00, 0x00, 0x00, 0x00, 0x00, 0x00, 0x00, 0x00, 0x00, 0x80] 8 0 0 []
    result s = some (.ok 13) ∧
    (after s).dumpData = [0, 0, 0, 0, 0, 0, 0, 0x80] := by
  refine ⟨?_, ?_⟩ <;> decide

/-- V41-5. -/
theorem test_setDat :
    let s := small [0x02, 0x00, 0x00, 0x00, 0x00, 0x01, 0x00, 0x00, 0x00] 16 0 0 [0, 42]
    result s = some (.ok 9) ∧
    ((after s).slot 0).toInt = 42 ∧
    ((after s).slot 1).toInt = 42 := by
  refine ⟨?_, ?_, ?_⟩ <;> decide

/-- R145. -/
theorem test_clrDat :
    let s := small [0x03, 0x00, 0x00, 0x00, 0x00] 8 0 0 [7]
    result s = some (.ok 5) ∧
    ((after s).slot 0).toInt = 0 ∧
    (after s).pc = 5 := by
  refine ⟨?_, ?_, ?_⟩ <;> decide

/-- V41-18: MAX wraps to MIN. -/
theorem test_incDat :
    let s := small [0x04, 0x00, 0x00, 0x00, 0x00] 8 0 0 [9223372036854775807]
    result s = some (.ok 5) ∧
    ((after s).slot 0).toInt = (-9223372036854775808) := by
  refine ⟨?_, ?_⟩ <;> decide

/-- V41-20: MIN wraps to MAX. -/
theorem test_decDat :
    let s := small [0x05, 0x00, 0x00, 0x00, 0x00] 8 0 0 [(-9223372036854775808)]
    result s = some (.ok 5) ∧
    ((after s).slot 0).toInt = 9223372036854775807 := by
  refine ⟨?_, ?_⟩ <;> decide

/-- V41-23. -/
theorem test_notDat :
    let s := small [0x0d, 0x00, 0x00, 0x00, 0x00] 8 0 0 [5]
    result s = some (.ok 5) ∧
    ((after s).slot 0).toInt = -6 := by
  refine ⟨?_, ?_⟩ <;> decide

/-- V41-7. -/
theorem test_setInd :
    let s := small [0x0e, 0x00, 0x00, 0x00, 0x00, 0x01, 0x00, 0x00, 0x00] 32 0 0 [0, 2, 77]
    result s = some (.ok 9) ∧
    ((after s).slot 0).toInt = 77 := by
  refine ⟨?_, ?_⟩ <;> decide

/-- V41-11: the address is not cut to 32 bits. -/
theorem test_setInd_fault :
    let s := small [0x0e, 0x00, 0x00, 0x00, 0x00, 0x01, 0x00, 0x00, 0x00] 32 0 0 [0, 4294967296]
    result s = some (.invalid .indirectAddress) ∧
    after s = s := by
  refine ⟨?_, ?_⟩ <;> decide

/-- V41-13. -/
theorem test_setIdx :
    let s := small [0x0f, 0x00, 0x00, 0x00, 0x00, 0x01, 0x00, 0x00, 0x00, 0x02, 0x00, 0x00, 0x00] 48 0 0 [0, 2, 3, 0, 0, 99]
    result s = some (.ok 13) ∧
    ((after s).slot 0).toInt = 99 := by
  refine ⟨?_, ?_⟩ <;> decide

/-- V42-1: MAX + 1 wraps to MIN. -/
theorem test_addDat :
    let s := small [0x06, 0x00, 0x00, 0x00, 0x00, 0x01, 0x00, 0x00, 0x00] 16 0 0 [9223372036854775807, 1]
    result s = some (.ok 9) ∧
    ((after s).slot 0).toInt = (-9223372036854775808) ∧
    ((after s).slot 1).toInt = 1 := by
  refine ⟨?_, ?_, ?_⟩ <;> decide

/-- W5. -/
theorem test_addDat_bounds :
    let s := small [0x06, 0x00, 0x00, 0x00, 0x00, 0x02, 0x00, 0x00, 0x00, 0x28] 16 0 0 []
    result s = some (.invalid .dataAddress) ∧
    after s = s ∧
    s.legalTargets = [] := by
  refine ⟨?_, ?_, ?_⟩ <;> decide

/-- V42-4: the first operand is the minuend. -/
theorem test_subDat :
    let s := small [0x07, 0x00, 0x00, 0x00, 0x00, 0x01, 0x00, 0x00, 0x00] 16 0 0 [5, 7]
    result s = some (.ok 9) ∧
    ((after s).slot 0).toInt = -2 := by
  refine ⟨?_, ?_⟩ <;> decide

/-- V42-8. -/
theorem test_mulDat :
    let s := small [0x08, 0x00, 0x00, 0x00, 0x00, 0x01, 0x00, 0x00, 0x00] 16 0 0 [9223372036854775807, 2]
    result s = some (.ok 9) ∧
    ((after s).slot 0).toInt = -2 := by
  refine ⟨?_, ?_⟩ <;> decide

/-- V42-10: toward zero. -/
theorem test_divDat :
    let s := small [0x09, 0x00, 0x00, 0x00, 0x00, 0x01, 0x00, 0x00, 0x00] 16 0 0 [-7, 2]
    result s = some (.ok 9) ∧
    ((after s).slot 0).toInt = -3 := by
  refine ⟨?_, ?_⟩ <;> decide

/-- W4. -/
theorem test_divDat_zero :
    let s := small [0x09, 0x00, 0x00, 0x00, 0x00, 0x01, 0x00, 0x00, 0x00, 0x28] 16 0 0 [7, 0]
    result s = some (.invalid .divisionByZero) ∧
    after s = s := by
  refine ⟨?_, ?_⟩ <;> decide

/-- V42-18. -/
theorem test_borDat :
    let s := small [0x0a, 0x00, 0x00, 0x00, 0x00, 0x01, 0x00, 0x00, 0x00] 16 0 0 [12, 10]
    result s = some (.ok 9) ∧
    ((after s).slot 0).toInt = 14 := by
  refine ⟨?_, ?_⟩ <;> decide

/-- V42-20. -/
theorem test_andDat :
    let s := small [0x0b, 0x00, 0x00, 0x00, 0x00, 0x01, 0x00, 0x00, 0x00] 16 0 0 [12, 10]
    result s = some (.ok 9) ∧
    ((after s).slot 0).toInt = 8 := by
  refine ⟨?_, ?_⟩ <;> decide

/-- V42-23. -/
theorem test_xorDat :
    let s := small [0x0c, 0x00, 0x00, 0x00, 0x00, 0x01, 0x00, 0x00, 0x00] 16 0 0 [5, -1]
    result s = some (.ok 9) ∧
    ((after s).slot 0).toInt = -6 := by
  refine ⟨?_, ?_⟩ <;> decide

/-- V43-7: the entry starts at an odd multiple of 4. -/
theorem test_pshDat :
    let s := small [0x10, 0x00, 0x00, 0x00, 0x00] 8 4 8 [-2]
    result s = some (.ok 5) ∧
    (after s).us = 1 ∧
    (after s).dumpData.drop 12 = [0xfe, 0xff, 0xff, 0xff, 0xff, 0xff, 0xff, 0xff] := by
  refine ⟨?_, ?_, ?_⟩ <;> decide

/-- V43-4: seven bytes hold no entry. -/
theorem test_pshDat_full :
    let s := small [0x10, 0x00, 0x00, 0x00, 0x00] 8 0 7 []
    result s = some (.overflow .userStackFull) ∧
    after s = s := by
  refine ⟨?_, ?_⟩ <;> decide

/-- V43-8, its second step: the entry keeps its bytes. -/
theorem test_popDat :
    let s := small [0x10, 0x00, 0x00, 0x00, 0x00, 0x11, 0x00, 0x00, 0x00, 0x00] 8 0 8 [3]
    result (after s) = some (.ok 5) ∧
    ((after (after s)).slot 0).toInt = 3 ∧
    (after (after s)).us = 0 ∧
    (after (after s)).dumpData.drop 8 = [3, 0, 0, 0, 0, 0, 0, 0] := by
  refine ⟨?_, ?_, ?_, ?_⟩ <;> decide

/-- V43-6. -/
theorem test_popDat_empty :
    let s := small [0x11, 0x00, 0x00, 0x00, 0x00] 8 0 16 []
    result s = some (.overflow .userStackEmpty) ∧
    after s = s := by
  refine ⟨?_, ?_⟩ <;> decide

/-- V44-1. -/
theorem test_jmpSub :
    let s := small [0x12, 0x06, 0x00, 0x00, 0x00, 0x28, 0x13] 0 8 0 []
    result s = some (.ok 5) ∧
    (after s).pc = 6 ∧
    (after s).cs = 1 ∧
    (after s).dumpData = [5, 0, 0, 0, 0, 0, 0, 0] := by
  refine ⟨?_, ?_, ?_, ?_⟩ <;> decide

/-- V44-6: capacity is checked first. -/
theorem test_jmpSub_full :
    let s := small [0x12, 0x02, 0x00, 0x00, 0x00, 0x28, 0x13] 0 0 0 []
    result s = some (.overflow .callStackFull) ∧
    after s = s := by
  refine ⟨?_, ?_⟩ <;> decide

/-- V44-2, its second step. -/
theorem test_retSub :
    let s := small [0x12, 0x06, 0x00, 0x00, 0x00, 0x28, 0x13] 0 8 0 []
    result (after s) = some (.ok 1) ∧
    (after (after s)).pc = 5 ∧
    (after (after s)).cs = 0 := by
  refine ⟨?_, ?_, ?_⟩ <;> decide

/-- V44-11: the decrement is kept. -/
theorem test_retSub_illegal :
    let s := small [0x28, 0x13] 0 8 0 [3]
    result { s with pc := 1, cs := 1 } = some (.invalid .unresolvedJump) ∧
    after { s with pc := 1, cs := 1 } = { s with pc := 1, cs := 0 } := by
  refine ⟨?_, ?_⟩ <;> decide

/-- V44-14. -/
theorem test_jmpAdr :
    let s := small [0x1a, 0x05, 0x00, 0x00, 0x00, 0x28] 0 8 0 []
    result s = some (.ok 5) ∧
    (after s).pc = 5 := by
  refine ⟨?_, ?_⟩ <;> decide

/-- V44-15. -/
theorem test_jmpAdr_illegal :
    let s := small [0x1a, 0x03, 0x00, 0x00, 0x00, 0x28] 0 8 0 []
    result s = some (.invalid .unresolvedJump) ∧
    after s = s := by
  refine ⟨?_, ?_⟩ <;> decide

/-- V44-18. -/
theorem test_bzrDat :
    let s := small [0x1b, 0x00, 0x00, 0x00, 0x00, 0x07, 0x28, 0x28] 8 0 0 [0]
    result s = some (.ok 6) ∧
    (after s).pc = 7 := by
  refine ⟨?_, ?_⟩ <;> decide

/-- V44-23: a branch that falls through does not test its target. -/
theorem test_bzrDat_untaken :
    let s := small [0x1b, 0x00, 0x00, 0x00, 0x00, 0x03, 0x28, 0x28] 8 0 0 [1]
    result s = some (.ok 6) ∧
    (after s).pc = 6 := by
  refine ⟨?_, ?_⟩ <;> decide

/-- V44-20. -/
theorem test_bnzDat :
    let s := small [0x1e, 0x00, 0x00, 0x00, 0x00, 0x07, 0x28, 0x28] 8 0 0 [-1]
    result s = some (.ok 6) ∧
    (after s).pc = 7 := by
  refine ⟨?_, ?_⟩ <;> decide

/-- V44-29, a taken pair (the target is the second FIN). -/
theorem test_bgtDat :
    let s := small [0x1f, 0x00, 0x00, 0x00, 0x00, 0x01, 0x00, 0x00, 0x00, 0x0b, 0x28, 0x28] 16 0 0 [2, 1]
    result s = some (.ok 10) ∧
    (after s).pc = 11 := by
  refine ⟨?_, ?_⟩ <;> decide

/-- V44-29, a pair not taken. -/
theorem test_bgtDat_untaken :
    let s := small [0x1f, 0x00, 0x00, 0x00, 0x00, 0x01, 0x00, 0x00, 0x00, 0x0b, 0x28, 0x28] 16 0 0 [-1, 1]
    result s = some (.ok 10) ∧
    (after s).pc = 10 := by
  refine ⟨?_, ?_⟩ <;> decide

/-- V44-30, a taken pair (the target is the second FIN). -/
theorem test_bltDat :
    let s := small [0x20, 0x00, 0x00, 0x00, 0x00, 0x01, 0x00, 0x00, 0x00, 0x0b, 0x28, 0x28] 16 0 0 [-1, 1]
    result s = some (.ok 10) ∧
    (after s).pc = 11 := by
  refine ⟨?_, ?_⟩ <;> decide

/-- V44-30, a pair not taken. -/
theorem test_bltDat_untaken :
    let s := small [0x20, 0x00, 0x00, 0x00, 0x00, 0x01, 0x00, 0x00, 0x00, 0x0b, 0x28, 0x28] 16 0 0 [1, 1]
    result s = some (.ok 10) ∧
    (after s).pc = 10 := by
  refine ⟨?_, ?_⟩ <;> decide

/-- V44-31, a taken pair (the target is the second FIN). -/
theorem test_bgeDat :
    let s := small [0x21, 0x00, 0x00, 0x00, 0x00, 0x01, 0x00, 0x00, 0x00, 0x0b, 0x28, 0x28] 16 0 0 [1, 1]
    result s = some (.ok 10) ∧
    (after s).pc = 11 := by
  refine ⟨?_, ?_⟩ <;> decide

/-- V44-31, a pair not taken. -/
theorem test_bgeDat_untaken :
    let s := small [0x21, 0x00, 0x00, 0x00, 0x00, 0x01, 0x00, 0x00, 0x00, 0x0b, 0x28, 0x28] 16 0 0 [(-9223372036854775808), 9223372036854775807]
    result s = some (.ok 10) ∧
    (after s).pc = 10 := by
  refine ⟨?_, ?_⟩ <;> decide

/-- V44-32, a taken pair (the target is the second FIN). -/
theorem test_bleDat :
    let s := small [0x22, 0x00, 0x00, 0x00, 0x00, 0x01, 0x00, 0x00, 0x00, 0x0b, 0x28, 0x28] 16 0 0 [(-9223372036854775808), 9223372036854775807]
    result s = some (.ok 10) ∧
    (after s).pc = 11 := by
  refine ⟨?_, ?_⟩ <;> decide

/-- V44-32, a pair not taken. -/
theorem test_bleDat_untaken :
    let s := small [0x22, 0x00, 0x00, 0x00, 0x00, 0x01, 0x00, 0x00, 0x00, 0x0b, 0x28, 0x28] 16 0 0 [2, 1]
    result s = some (.ok 10) ∧
    (after s).pc = 10 := by
  refine ⟨?_, ?_⟩ <;> decide

/-- V44-33, a taken pair (the target is the second FIN). -/
theorem test_beqDat :
    let s := small [0x23, 0x00, 0x00, 0x00, 0x00, 0x01, 0x00, 0x00, 0x00, 0x0b, 0x28, 0x28] 16 0 0 [1, 1]
    result s = some (.ok 10) ∧
    (after s).pc = 11 := by
  refine ⟨?_, ?_⟩ <;> decide

/-- V44-33, a pair not taken. -/
theorem test_beqDat_untaken :
    let s := small [0x23, 0x00, 0x00, 0x00, 0x00, 0x01, 0x00, 0x00, 0x00, 0x0b, 0x28, 0x28] 16 0 0 [1, 2]
    result s = some (.ok 10) ∧
    (after s).pc = 10 := by
  refine ⟨?_, ?_⟩ <;> decide

/-- V44-34, a taken pair (the target is the second FIN). -/
theorem test_bneDat :
    let s := small [0x24, 0x00, 0x00, 0x00, 0x00, 0x01, 0x00, 0x00, 0x00, 0x0b, 0x28, 0x28] 16 0 0 [-1, 1]
    result s = some (.ok 10) ∧
    (after s).pc = 11 := by
  refine ⟨?_, ?_⟩ <;> decide

/-- V44-34, a pair not taken. -/
theorem test_bneDat_untaken :
    let s := small [0x24, 0x00, 0x00, 0x00, 0x00, 0x01, 0x00, 0x00, 0x00, 0x0b, 0x28, 0x28] 16 0 0 [1, 1]
    result s = some (.ok 10) ∧
    (after s).pc = 10 := by
  refine ⟨?_, ?_⟩ <;> decide

/-- V45-2. -/
theorem test_slpDat :
    let s := small [0x25, 0x00, 0x00, 0x00, 0x00, 0x28] 8 0 0 [-1]
    result s = some (.ok 5) ∧
    (after s).sleepUntil.toInt = -1 ∧
    (after s).pc = 5 ∧
    (after s).flags = 0 := by
  refine ⟨?_, ?_, ?_, ?_⟩ <;> decide

/-- V45-3. -/
theorem test_fizDat :
    let s := small [0x26, 0x00, 0x00, 0x00, 0x00, 0x28] 8 0 0 [0]
    result s = some (.ok 5) ∧
    (after s).isTerminated = true ∧
    (after s).pc = 0 := by
  refine ⟨?_, ?_, ?_⟩ <;> decide

/-- V45-4. -/
theorem test_fizDat_nonzero :
    let s := small [0x26, 0x00, 0x00, 0x00, 0x00, 0x28] 8 0 0 [1]
    result s = some (.ok 5) ∧
    (after s).flags = 0 ∧
    (after s).pc = 5 := by
  refine ⟨?_, ?_, ?_⟩ <;> decide

/-- V45-5. -/
theorem test_stzDat :
    let s := small [0x27, 0x00, 0x00, 0x00, 0x00, 0x28] 8 0 0 [0]
    result s = some (.ok 5) ∧
    (after s).isStopped = true ∧
    (after s).pc = 5 := by
  refine ⟨?_, ?_, ?_⟩ <;> decide

/-- V45-6. -/
theorem test_stzDat_nonzero :
    let s := small [0x27, 0x00, 0x00, 0x00, 0x00, 0x28] 8 0 0 [1]
    result s = some (.ok 5) ∧
    (after s).flags = 0 ∧
    (after s).pc = 5 := by
  refine ⟨?_, ?_, ?_⟩ <;> decide

/-- W1, its second step. -/
theorem test_finImd :
    let s := small [0x7f, 0x28] 8 0 0 []
    result (after s) = some (.ok 1) ∧
    (after (after s)).isTerminated = true ∧
    (after (after s)).pc = 0 ∧
    (after (after s)).steps = 2 := by
  refine ⟨?_, ?_, ?_, ?_⟩ <;> decide

/-- V45-9. -/
theorem test_stpImd :
    let s := small [0x29, 0x28] 8 0 0 []
    result s = some (.ok 1) ∧
    (after s).isStopped = true ∧
    (after s).pc = 1 := by
  refine ⟨?_, ?_, ?_⟩ <;> decide

/-- V45-10. -/
theorem test_setPcs :
    let s := small [0x30, 0x28] 8 0 0 []
    result s = some (.ok 1) ∧
    (after s).pcs = 1 ∧
    (after s).pc = 1 := by
  refine ⟨?_, ?_, ?_⟩ <;> decide

/-- V46-1. -/
theorem test_extFun :
    let s := withAnswers (small [0x32, 0x02, 0x00, 0x28] 8 0 0 []) [answer true 0]
    result s = some (.ok 3) ∧
    (after s).pc = 3 ∧
    (after s).ext.sent = [⟨2, [], false⟩] := by
  refine ⟨?_, ?_, ?_⟩ <;> decide

/-- V46-2. -/
theorem test_extFun_rejected :
    let s := withAnswers (small [0x32, 0x03, 0x00, 0x28] 8 0 0 []) [answer false 0]
    result s = some (.invalid .extCallRejected) ∧
    (after s).pc = 0 ∧
    (after s).ext.sent = [⟨3, [], false⟩] := by
  refine ⟨?_, ?_, ?_⟩ <;> decide

/-- V46-3. -/
theorem test_extFunDat :
    let s := withAnswers (small [0x33, 0x02, 0x00, 0x00, 0x00, 0x00, 0x00, 0x28] 8 0 0 [5]) [answer true 0]
    result s = some (.ok 7) ∧
    (after s).ext.sent = [⟨2, [5], false⟩] ∧
    ((after s).slot 0).toInt = 5 := by
  refine ⟨?_, ?_, ?_⟩ <;> decide

/-- V46-4. -/
theorem test_extFunDat2 :
    let s := withAnswers (small [0x34, 0x02, 0x00, 0x00, 0x00, 0x00, 0x00, 0x01, 0x00, 0x00, 0x00, 0x28] 16 0 0 [5, 6]) [answer true 0]
    result s = some (.ok 11) ∧
    (after s).ext.sent = [⟨2, [5, 6], false⟩] := by
  refine ⟨?_, ?_⟩ <;> decide

/-- V46-5. -/
theorem test_extFunRet :
    let s := withAnswers (small [0x35, 0x01, 0x00, 0x00, 0x00, 0x00, 0x00, 0x28] 8 0 0 []) [answer true 100]
    result s = some (.ok 7) ∧
    ((after s).slot 0).toInt = 100 ∧
    (after s).ext.sent = [⟨1, [], true⟩] := by
  refine ⟨?_, ?_, ?_⟩ <;> decide

/-- V46-9: the id is unsigned. -/
theorem test_extFunRet_rejected :
    let s := withAnswers (small [0x35, 0xff, 0xff, 0x00, 0x00, 0x00, 0x00, 0x28] 8 0 0 [77]) [answer false 0]
    result s = some (.invalid .extCallRejected) ∧
    ((after s).slot 0).toInt = 77 ∧
    (after s).ext.sent = [⟨65535, [], true⟩] := by
  refine ⟨?_, ?_, ?_⟩ <;> decide

/-- V46-6. -/
theorem test_extFunRetDat :
    let s := withAnswers (small [0x36, 0x01, 0x00, 0x00, 0x00, 0x00, 0x00, 0x01, 0x00, 0x00, 0x00, 0x28] 16 0 0 [9, 5]) [answer true 105]
    result s = some (.ok 11) ∧
    ((after s).slot 0).toInt = 105 ∧
    ((after s).slot 1).toInt = 5 ∧
    (after s).ext.sent = [⟨1, [5], true⟩] := by
  refine ⟨?_, ?_, ?_, ?_⟩ <;> decide

/-- V46-7. -/
theorem test_extFunRetDat2 :
    let s := withAnswers (small [0x37, 0x01, 0x00, 0x02, 0x00, 0x00, 0x00, 0x00, 0x00, 0x00, 0x00, 0x01, 0x00, 0x00, 0x00, 0x28] 24 0 0 [5, 6]) [answer true 111]
    result s = some (.ok 15) ∧
    ((after s).slot 2).toInt = 111 ∧
    (after s).ext.sent = [⟨1, [5, 6], true⟩] := by
  refine ⟨?_, ?_, ?_⟩ <;> decide

/-- The sweep: it stops at an instruction whose address fails (V40-1), and marks a no-op run by its first byte or by
every byte (V40-4). -/
theorem test_sweep :
    sweep (sized 7 8) (codeOf [0x28, 0x03, 1, 0, 0, 0, 0x28]) = [0] ∧
    sweep (sized 4 8) (codeOf [0x7f, 0x7f, 0x28, 0x7f]) = [0, 2, 3] ∧
    sweep { sized 4 8 with nopRunTargets := .everyByte } (codeOf [0x7f, 0x7f, 0x28, 0x7f]) = [0, 1, 2, 3] := by
  refine ⟨?_, ?_, ?_⟩ <;> decide

/-- A word placed at the next fetch of the just-reset machine is what the next step runs. -/
theorem test_withFetchWord :
    result (State.reset.withFetchWord 8 0x28) = some (.ok 1) ∧
    ((after (State.reset.withFetchWord 104 0x50000000001)).slot 0).toInt = 5 := by
  refine ⟨?_, ?_⟩ <;> decide

/-- From reset with no code placed, a step is NONE (V30-1). -/
theorem test_reset_step : result State.reset = some .noInstr ∧ after State.reset = State.reset := by
  refine ⟨?_, ?_⟩ <;> decide

/-! ### Witnesses: concrete states and operands that meet the hypotheses of the statements -/

/-- Two slots of data (3 and -1), two entries of room on each stack, and the code of V44-1: JMP_SUB :6, FIN_IMD, RET_SUB. -/
def base : State :=
  small [0x12, 6, 0, 0, 0, 0x28, 0x13] 16 16 16 [3, -1]

/-- `base` with other slot values. -/
def vals (x y : Int) : State :=
  small [0x12, 6, 0, 0, 0, 0x28, 0x13] 16 16 16 [x, y]

/-- `base` with one entry on each stack: the return offset 5, and the value 9. -/
def stacked : State :=
  { (base.pushCall 5).pushUser 9 with pc := 6 }

/-- `base` with both stacks full. -/
def full : State :=
  { base with cs := 2, us := 2 }

/-- `base` whose host accepts the next call with the value 42 and writes the host flags. -/
def accepting : State :=
  withAnswers base [⟨true, 42, some ⟨true, true, true⟩, 1⟩]

/-- `base` whose host rejects the next call. -/
def rejecting : State :=
  withAnswers base [answer false 0]

/-- Does the instruction answer a next state? -/
def completes (i : Instr) (s : State) : Bool :=
  match exec i s with
  | .next _ => true
  | .fault _ => false
  | .refused _ => false

/-- The same for the step. -/
def stepCompletes (s : State) : Bool :=
  match step s with
  | .next _ => true
  | .fault _ => false
  | .refused _ => false

/-- Does the step end in an error? -/
def stepFails (s : State) : Bool :=
  match step s with
  | .next _ => false
  | .fault _ => true
  | .refused _ => false

/-- The next state, where the instruction answers one. -/
def nextOf (i : Instr) (s : State) : State :=
  match exec i s with
  | .next t => t
  | .fault _ => s
  | .refused _ => s

theorem exec_nextOf {i : Instr} {s : State} (h : completes i s = true) : exec i s = .next (nextOf i s) := by
  unfold completes at h
  unfold nextOf
  split at h <;> simp_all

theorem exists_of_completes {i : Instr} {s : State} (h : completes i s = true) : ∃ t, exec i s = .next t := by
  unfold completes at h
  split at h <;> simp_all

theorem exists_of_stepCompletes {s : State} (h : stepCompletes s = true) : ∃ t, step s = .next t := by
  unfold stepCompletes at h
  split at h <;> simp_all

theorem exists_of_stepFails {s : State} (h : stepFails s = true) : ∃ f, step s = .fault f := by
  unfold stepFails at h
  split at h <;> simp_all

theorem base_inv : base.Inv := by
  refine ⟨?_, ?_, ?_, ?_, ?_, ?_, ?_, ?_, ?_, ?_, ?_, ?_, ?_⟩ <;> decide

theorem stacked_inv : stacked.Inv := by
  refine ⟨?_, ?_, ?_, ?_, ?_, ?_, ?_, ?_, ?_, ?_, ?_, ?_, ?_⟩ <;> decide

theorem full_inv : full.Inv := by
  refine ⟨?_, ?_, ?_, ?_, ?_, ?_, ?_, ?_, ?_, ?_, ?_, ?_, ?_⟩ <;> decide

theorem base_placed : base.Placed := by
  refine ⟨?_, ?_, .inl ?_, .inl ?_⟩ <;> decide

/-- O2: a fixed-length instruction that ends at the end of the code region. -/
theorem witness_DecodeOfEncodedInstr :
    (sized 13 16).opcodeMap.wf ∧ (Instr.setVal 1 5).WellFormed (sized 13 16) 0 ∧
    (codeOf (encode opcodeTable (.setVal 1 5))).readBytes 0 13 = encode opcodeTable (.setVal 1 5) ∧
    (Instr.setVal 1 5).opcode ≠ .nop := by
  refine ⟨opcodeTable_wf, ?_, ?_, ?_⟩ <;> decide

/-- O2: a no-op run that ends before another byte, and one that ends at the end of the code region. -/
theorem witness_DecodeOfEncodedInstr_nop :
    (Instr.nop 2).WellFormed (sized 3 0) 0 ∧ (codeOf [0x7f, 0x7f, 0x28]).readBytes 0 2 = encode opcodeTable (.nop 2) ∧
    (codeOf [0x7f, 0x7f, 0x28]).read 2 ≠ opcodeTable.byteOf .nop ∧
    (Instr.nop 2).WellFormed (sized 2 0) 0 ∧ 0 + (Instr.nop 2).length = (sized 2 0).codeSize := by
  refine ⟨?_, ?_, ?_, ?_, ?_⟩ <;> decide

/-- O3. -/
theorem witness_EncodeOfDecodedInstr :
    (sized 13 16).opcodeMap.wf ∧
    decode (sized 13 16) (codeOf [0x01, 1, 0, 0, 0, 5, 0, 0, 0, 0, 0, 0, 0]) 0 = .ok (.setVal 1 5) 13 := by
  refine ⟨opcodeTable_wf, ?_⟩
  decide

/-- O4: the first unassigned value above 0x37 and the last below 0x7f, and an offset at the end of the code region. -/
theorem witness_UnassignedBytesRejected :
    (sized 1 0).opcodeMap = opcodeTable ∧ decodeBytes [0x38] = .err .unknownOpcode ∧
    decodeBytes [0x7e] = .err .unknownOpcode ∧ decodeBytes [0x37] ≠ .err .unknownOpcode ∧
    decode (sized 1 0) (codeOf [0x00]) 1 = .noInstr := by
  refine ⟨rfl, ?_, ?_, ?_, ?_⟩ <;> decide

/-- O5: one byte too short, and exactly long enough; and a step that meets OperandBounds. -/
theorem witness_OperandBoundsRejected :
    0 < (sized 4 0).codeSize ∧ (sized 4 0).opcodeMap.opcodeOf ((codeOf [0x1a, 0, 0, 0]).read 0) = some .jmpAdr ∧
    decode (sized 4 0) (codeOf [0x1a, 0, 0, 0]) 0 = .err .operandBounds ∧
    decode (sized 5 0) (codeOf [0x1a, 0, 0, 0, 0]) 0 = .ok (.jmpAdr 0) 5 ∧
    fetch (small [0x1a, 0, 0, 0] 0 0 0 []) = .err .operandBounds := by
  refine ⟨?_, ?_, ?_, ?_, ?_⟩ <;> decide

/-- O6: a data address just past the last slot; then a branch target at CODE_SIZE and one at -1. -/
theorem witness_OperandAddressesChecked :
    (sized 6 16).opcodeMap.wf ∧ (Instr.bzrDat 2 0).opcode ≠ .nop ∧ 0 + (Instr.bzrDat 2 0).length ≤ (sized 6 16).codeSize ∧
    (codeOf [0x1b, 2, 0, 0, 0, 0]).readBytes 0 6 = encode opcodeTable (.bzrDat 2 0) ∧
    (∃ a ∈ (Instr.bzrDat 2 0).dataAddrs, ¬ (sized 6 16).ValidData a.toInt) ∧
    (∀ a ∈ (Instr.bzrDat 1 6).dataAddrs, (sized 6 16).ValidData a.toInt) ∧
    (∃ t ∈ (Instr.bzrDat 1 6).codeTargets 0, ¬ (sized 6 16).ValidCode t) ∧
    (∃ t ∈ (Instr.bzrDat 1 (-1)).codeTargets 0, ¬ (sized 6 16).ValidCode t) := by
  refine ⟨opcodeTable_wf, ?_, ?_, ?_, ⟨2, ?_, ?_⟩, (Instr.dataOk_iff _ _).1 ?_, ⟨6, ?_, ?_⟩, ⟨-1, ?_, ?_⟩⟩ <;> decide

/-- O7: a run up to the end, and a run of one byte. -/
theorem witness_NopRunIsMaximal :
    0 < (sized 2 0).codeSize ∧ (sized 2 0).opcodeMap.opcodeOf ((codeOf [0x7f, 0x7f]).read 0) = some .nop ∧
    (sized 2 0).opcodeMap.opcodeOf ((codeOf [0x7f, 0x28]).read 0) = some .nop := by
  refine ⟨?_, ?_, ?_⟩ <;> decide

/-- O8: no instruction, a decode error, and an instruction that completes, overflows, fails and (at a depth above the
capacity) is refused. -/
theorem witness_StepRunsDecodedInstr :
    fetch { base with pc := 7 } = .noInstr ∧ fetch (small [0x00] 0 0 0 []) = .err .unknownOpcode ∧
    fetch base = .ok (.jmpSub 6) 5 ∧ (∃ t, exec (.jmpSub 6) base = .next t) ∧
    fetch full = .ok (.jmpSub 6) 5 ∧ exec (.jmpSub 6) full = .fault (.overflow .callStackFull full) ∧
    fetch { base with legalTargets := [] } = .ok (.jmpSub 6) 5 ∧
    exec (.jmpSub 6) { base with legalTargets := [] } =
      .fault (.invalid .unresolvedJump { base with legalTargets := [] }) ∧
    fetch { base with cs := 3 } = .ok (.jmpSub 6) 5 ∧
    exec (.jmpSub 6) { base with cs := 3 } = .refused .callDepthIllegal := by
  refine ⟨?_, ?_, ?_, exists_of_completes ?_, ?_, rfl, ?_, rfl, ?_, rfl⟩ <;> decide

/-- O9, O10: a step that fails with nothing changed, a RET_SUB that keeps its decrement, and a rejected call. -/
theorem witness_FailedStepLeavesState :
    (∃ f, step full = .fault f) ∧
    (∃ f, step { stacked with legalTargets := [0] } = .fault f) ∧
    fetch { stacked with legalTargets := [0] } = .ok .retSub 1 ∧
    (∃ f, step (withAnswers (small [0x32, 3, 0] 0 0 0 []) [answer false 0]) = .fault f) := by
  refine ⟨exists_of_stepFails ?_, exists_of_stepFails ?_, ?_, exists_of_stepFails ?_⟩ <;> decide

/-- O10: NONE, a success, an OVERFLOW and an INVALID. -/
theorem witness_StepCountsSuccesses :
    step { base with pc := 7 } = .next { base with pc := 7 } ∧ (∃ t, step base = .next t) ∧
    step full = .fault (.overflow .callStackFull full) ∧
    step (small [0x00] 0 0 0 []) = .fault (.invalid .unknownOpcode (small [0x00] 0 0 0 [])) := by
  refine ⟨rfl, exists_of_stepCompletes ?_, rfl, rfl⟩
  decide

/-- O11, O12, O19, O20 (a byte of the call-stack zone changes). -/
theorem witness_StepKeepsInvariants :
    base.Inv ∧ fetch base = .ok (.jmpSub 6) 5 ∧ (∃ t, exec (.jmpSub 6) base = .next t) ∧ (∃ t, step base = .next t) ∧
    (after base).data.read 24 ≠ base.data.read 24 := by
  refine ⟨base_inv, ?_, exists_of_completes ?_, exists_of_stepCompletes ?_, ?_⟩ <;> decide

/-- O13: an error, and a RET_SUB that keeps its decrement, from states that meet the invariants. -/
theorem witness_FailedStepKeepsInvariants :
    full.Inv ∧ step full = .fault (.overflow .callStackFull full) ∧
    { stacked with data := base.data }.Inv ∧
    (∃ f, step { stacked with data := base.data.writeSlot 24 3 } = .fault f) := by
  refine ⟨full_inv, rfl, ?_, exists_of_stepFails ?_⟩
  · refine ⟨?_, ?_, ?_, ?_, ?_, ?_, ?_, ?_, ?_, ?_, ?_, ?_, ?_⟩ <;> decide
  · decide

/-- O15: sizes at their bounds. -/
theorem witness_BootReachesInvariants :
    Configuration.wf { resetConfiguration with
      codeSize := 1, dataSize := Config.maxSize, csSize := Config.maxSize, usSize := 0 } ∧ [(0x28 : Byte)].length = 1 := by
  refine ⟨⟨?_, ?_, ?_, ?_, opcodeTable_wf⟩, rfl⟩ <;> decide

/-- O16: two different states with the same configuration, code region and host port. -/
theorem witness_ResetLeavesStatedValues :
    stacked ≠ base ∧ stacked.cfg = base.cfg ∧ stacked.code = base.code ∧ stacked.ext = base.ext := by
  refine ⟨?_, ?_, ?_, ?_⟩ <;> decide

/-- O17: a placed state whose step completes, and one at the offset where the sweep stops. -/
theorem witness_StepKeepsPlacement :
    base.Placed ∧ (∃ t, step base = .next t) ∧ State.Placed { base with pc := 7 } ∧
    (∃ t, step { base with pc := 7 } = .next t) := by
  refine ⟨base_placed, exists_of_stepCompletes ?_, ⟨?_, ?_, .inr ?_, .inl ?_⟩, exists_of_stepCompletes ?_⟩ <;> decide

/-- O18: the first instruction, the one behind it, and an offset inside the first. -/
theorem witness_SweepMarksInstructionStarts :
    (sized 7 0).nopRunTargets = .runStart ∧
    decode (sized 7 0) (codeOf [0x12, 6, 0, 0, 0, 0x28, 0x13]) 0 = .ok (.jmpSub 6) 5 ∧
    0 ∈ sweep (sized 7 0) (codeOf [0x12, 6, 0, 0, 0, 0x28, 0x13]) ∧
    decode (sized 7 0) (codeOf [0x12, 6, 0, 0, 0, 0x28, 0x13]) (0 + 5) = .ok .finImd 1 ∧
    5 ∈ sweep (sized 7 0) (codeOf [0x12, 6, 0, 0, 0, 0x28, 0x13]) ∧ 0 < 4 ∧ 4 < 0 + 5 := by
  refine ⟨?_, ?_, ?_, ?_, ?_, ?_, ?_⟩ <;> decide

/-- O20: a push changes a byte of the user-stack zone, an assignment one of the data zone. -/
theorem witness_StackZonesProtected :
    base.Inv ∧ exec (.pshDat 0) base = .next (nextOf (.pshDat 0) base) ∧
    (nextOf (.pshDat 0) base).data.read 40 ≠ base.data.read 40 ∧
    exec (.setVal 0 5) base = .next (nextOf (.setVal 0 5) base) ∧
    (nextOf (.setVal 0 5) base).data.read 0 ≠ base.data.read 0 := by
  refine ⟨base_inv, exec_nextOf ?_, ?_, exec_nextOf ?_, ?_⟩ <;> decide

/-- O21: the first entry, the last, and two entries. -/
theorem witness_StackSlotsStayInZone :
    1 ≤ base.cfg.csCap ∧ 1 < 2 ∧ 2 ≤ base.cfg.csCap ∧ 1 ≤ base.cfg.usCap ∧ 2 ≤ base.cfg.usCap := by
  refine ⟨?_, ?_, ?_, ?_, ?_⟩ <;> decide

/-- O22: each flag is changed by some instruction. -/
theorem witness_OnlyHaltInstrsSetHaltFlags :
    exec .stpImd base = .next (base.stop 1) ∧ (base.stop 1).isStopped ≠ base.isStopped ∧
    exec .finImd base = .next base.terminate ∧ base.terminate.isTerminated ≠ base.isTerminated ∧
    (∃ t, exec (.extFun 2) accepting = .next t) ∧
    flagAt (accepting.served ⟨2, [], false⟩ (accepting.extAnswer ⟨2, [], false⟩)).flags pausedBit ≠
      flagAt accepting.flags pausedBit := by
  refine ⟨rfl, ?_, rfl, ?_, exists_of_completes ?_, ?_⟩ <;> decide

/-- O23: two different states that differ in sleepUntil alone. -/
theorem witness_SleepThresholdNeverGates :
    base ≠ { base with sleepUntil := 1000 } ∧ base.forgetSleep = State.forgetSleep { base with sleepUntil := 1000 } := by
  refine ⟨?_, ?_⟩ <;> decide

/-- O24: two different states that differ in flags alone. -/
theorem witness_FlagsAreNeverRead :
    base ≠ { base with flags := 0b11111 } ∧ base.forgetFlags = State.forgetFlags { base with flags := 0b11111 } := by
  refine ⟨?_, ?_⟩ <;> decide

/-- O25: a call, a return and a taken branch to a legal target and to an illegal one, and a branch that is not taken. -/
theorem witness_TransfersTestLegalTargets :
    (Instr.jmpSub 6).dataOk base.cfg = true ∧ base.cs.toNat < base.cfg.csCap ∧ base.IsTarget 6 ∧ ¬ base.IsTarget 2 ∧
    (0 < stacked.cs.toNat ∧ stacked.cs.toNat ≤ stacked.cfg.csCap) ∧ Instr.retSub.transferTo stacked = some 5 ∧
    stacked.IsTarget 5 ∧ (Instr.bnzDat 1 6).transferTo base = some 6 ∧ (Instr.bnzDat 1 2).transferTo base = some 2 ∧
    (Instr.bzrDat 1 6).condition base = some false ∧ (Instr.bzrDat 1 6).dataOk base.cfg = true := by
  refine ⟨?_, ?_, ?_, ?_, ?_, ?_, ?_, ?_, ?_, ?_, ?_⟩ <;> decide

/-- O26, O28, O29, O31, O32: the first and the last slot of a data zone of two. -/
theorem witness_AssignmentCompletes :
    base.data.wf ∧
    base.cfg.ValidData (1 : DataAddr).toInt ∧
    base.cfg.ValidData (0 : DataAddr).toInt := by
  refine ⟨?_, ?_, ?_⟩ <;> decide

/-- O27: the three clauses, the code region one byte too short, the first bad address, and the last slot. -/
theorem witness_SetValStep :
    (small [0x01, 1, 0, 0, 0, 5, 0, 0, 0, 0, 0, 0, 0] 16 0 0 []).cfg.opcodeMap = opcodeTable ∧
    (small [0x01, 1, 0, 0, 0, 5, 0, 0, 0, 0, 0, 0, 0] 16 0 0 []).code.readBytes 0 13 =
      0x01#8 :: (bytesLE 4 (1 : DataAddr).toNat ++ bytesLE 8 (5 : Slot).toNat) ∧
    0 + 13 ≤ (small [0x01, 1, 0, 0, 0, 5, 0, 0, 0, 0, 0, 0, 0] 16 0 0 []).cfg.codeSize ∧
    (sized 13 16).ValidData (1 : DataAddr).toInt ∧ ¬ (sized 13 8).ValidData (1 : DataAddr).toInt ∧
    (small [0x01, 1, 0, 0, 0, 5, 0, 0, 0, 0, 0, 0] 16 0 0 []).code.readBytes 0 13 =
      0x01#8 :: (bytesLE 4 (1 : DataAddr).toNat ++ bytesLE 8 (5 : Slot).toNat) ∧
    (small [0x01, 1, 0, 0, 0, 5, 0, 0, 0, 0, 0, 0] 16 0 0 []).cfg.codeSize < 0 + 13 := by
  refine ⟨rfl, ?_, ?_, ?_, ?_, ?_, ?_⟩ <;> decide

/-- O29: a pointer to the last slot; a base past the end with a negative index. -/
theorem witness_IndirectReadsComplete :
    (vals 1 1).data.wf ∧
    (vals 1 1).cfg.ValidData ((vals 1 1).slot (0 : DataAddr).toInt).toInt ∧
    (vals 2 (-1)).cfg.ValidData (((vals 2 (-1)).slot (0 : DataAddr).toInt).toInt + ((vals 2 (-1)).slot (1 : DataAddr).toInt).toInt) := by
  refine ⟨?_, ?_, ?_⟩ <;> decide

/-- O30: the first address past the end, -1, a sum past the end, and both classes. -/
theorem witness_IndirectAddressFaults :
    ¬ (vals 2 0).cfg.ValidData ((vals 2 0).slot (0 : DataAddr).toInt).toInt ∧
    ¬ (vals (-1) 0).cfg.ValidData ((vals (-1) 0).slot (0 : DataAddr).toInt).toInt ∧
    ¬ (vals 1 1).cfg.ValidData (((vals 1 1).slot (0 : DataAddr).toInt).toInt + ((vals 1 1).slot (1 : DataAddr).toInt).toInt) ∧
    (vals 2 0).cfg.indirectFaultClass = .invalid ∧
    State.cfg { vals 2 0 with cfg := { (vals 2 0).cfg with indirectFaultClass := .overflow } } =
      { (vals 2 0).cfg with indirectFaultClass := .overflow } := by
  refine ⟨?_, ?_, ?_, ?_, ?_⟩ <;> decide

/-- O33: an ordinary quotient, and the corner under WRAP. -/
theorem witness_DivisionCompletes :
    (vals (-7) 2).data.wf ∧
    ((vals (-7) 2).slot (1 : DataAddr).toInt).toInt ≠ 0 ∧
    ((vals (-7) 2).slot (0 : DataAddr).toInt).toInt ≠ -2 ^ 63 ∧
    ((vals (-9223372036854775808) (-1)).slot (0 : DataAddr).toInt).toInt = -2 ^ 63 ∧
    ((vals (-9223372036854775808) (-1)).slot (1 : DataAddr).toInt).toInt = -1 ∧
    (vals (-9223372036854775808) (-1)).cfg.divMinNeg1 = .wrap := by
  refine ⟨?_, ?_, ?_, ?_, ?_, ?_⟩ <;> decide

/-- O34: a zero divisor; the corner's operands and the parameter that makes it an error. -/
theorem witness_DivisionFaults :
    ((vals 7 0).slot (1 : DataAddr).toInt).toInt = 0 ∧
    (vals 7 0).cfg.ValidData (1 : DataAddr).toInt ∧
    ((vals (-9223372036854775808) (-1)).slot (1 : DataAddr).toInt).toInt = -1 ∧
    Configuration.divMinNeg1 { (vals 0 0).cfg with divMinNeg1 := .invalid } = .invalid := by
  refine ⟨?_, ?_, ?_, ?_⟩ <;> decide

/-- O35, O38: an empty stack, and the last entry of room. -/
theorem witness_PushCompletes :
    base.data.wf ∧
    base.cfg.ValidData (1 : DataAddr).toInt ∧
    base.us.toNat < base.cfg.usCap ∧
    stacked.data.wf ∧
    stacked.us.toNat + 1 = stacked.cfg.usCap := by
  refine ⟨?_, ?_, ?_, ?_, ?_⟩ <;> decide

/-- O36: one entry, and a full stack. -/
theorem witness_PopCompletes :
    stacked.data.wf ∧
    stacked.cfg.ValidData (1 : DataAddr).toInt ∧
    0 < stacked.us.toNat ∧
    stacked.us.toNat ≤ stacked.cfg.usCap ∧
    full.us.toNat = full.cfg.usCap := by
  refine ⟨?_, ?_, ?_, ?_, ?_⟩ <;> decide

/-- O37. -/
theorem witness_UserStackFaults :
    full.us.toNat = full.cfg.usCap ∧
    base.us.toNat = 0 := by
  refine ⟨?_, ?_⟩ <;> decide

/-- O38. -/
theorem witness_PopReturnsLastPush :
    base.Inv ∧ base.cfg.ValidData (0 : DataAddr).toInt ∧ base.cfg.ValidData (1 : DataAddr).toInt ∧
    base.us.toNat < base.cfg.usCap := by
  refine ⟨base_inv, ?_, ?_, ?_⟩ <;> decide

/-- O39, O43. -/
theorem witness_CallCompletes :
    base.data.wf ∧
    base.cs.toNat < base.cfg.csCap ∧
    base.IsTarget (6 : CodeAddr).toInt := by
  refine ⟨?_, ?_, ?_⟩ <;> decide

/-- O40. -/
theorem witness_ReturnCompletes :
    0 < stacked.cs.toNat ∧
    stacked.cs.toNat ≤ stacked.cfg.csCap ∧
    stacked.IsTarget (stacked.data.readSlot (stacked.cfg.callOff stacked.cs.toNat)).toInt := by
  refine ⟨?_, ?_, ?_⟩ <;> decide

/-- O41: an entry of `2^32`, whose low 32 bits alone would be a legal target (V44-13). -/
theorem witness_CallAndReturnFaults :
    full.cs.toNat = full.cfg.csCap ∧
    base.cs.toNat < base.cfg.csCap ∧
    ¬ base.IsTarget (2 : CodeAddr).toInt ∧
    base.cs.toNat = 0 ∧
    0 < (State.cs { base with cs := 1 }).toNat ∧
    ¬ State.IsTarget { base with cs := 1, data := base.data.writeSlot 24 4294967296 }
      ((base.data.writeSlot 24 4294967296).readSlot (base.cfg.callOff 1)).toInt := by
  refine ⟨?_, ?_, ?_, ?_, ?_, ?_⟩ <;> decide

/-- O42. -/
theorem witness_CallThenReturnComesBack :
    base.Inv ∧ base.cs.toNat < base.cfg.csCap ∧ base.IsTarget (6 : CodeAddr).toInt ∧ base.IsTarget (base.pc.toNat + 5) := by
  refine ⟨base_inv, ?_, ?_, ?_⟩ <;> decide

/-- O43: the first offset, CODE_SIZE and -1. -/
theorem witness_JumpCompletes :
    base.IsTarget (0 : CodeAddr).toInt ∧
    ¬ base.IsTarget (7 : CodeAddr).toInt ∧
    ¬ base.IsTarget (-1 : CodeAddr).toInt := by
  refine ⟨?_, ?_, ?_⟩ <;> decide

/-- O44: taken and not taken, a legal and an illegal target. -/
theorem witness_ZeroBranchesComplete :
    (vals 0 (-1)).cfg.ValidData (1 : DataAddr).toInt ∧
    (vals 0 (-1)).slot (0 : DataAddr).toInt = 0#64 ∧
    (vals 0 (-1)).slot (1 : DataAddr).toInt ≠ 0#64 ∧
    (vals 0 (-1)).IsTarget ((vals 0 (-1)).pc.toNat + (6 : Offset).toInt) ∧
    ¬ (vals 0 (-1)).IsTarget ((vals 0 (-1)).pc.toNat + (-1 : Offset).toInt) := by
  refine ⟨?_, ?_, ?_, ?_, ?_⟩ <;> decide

/-- O45: below, not above, at most, equal and different. -/
theorem witness_RelationalBranchesComplete :
    (vals (-1) 1).cfg.ValidData (1 : DataAddr).toInt ∧
    ((vals (-1) 1).slot 0).slt ((vals (-1) 1).slot 1) = true ∧
    ((vals (-1) 1).slot 1).slt ((vals (-1) 1).slot 0) = false ∧
    ((vals 1 1).slot 0).sle ((vals 1 1).slot 1) = true ∧
    (vals 1 1).slot 0 = (vals 1 1).slot 1 ∧
    (vals (-1) 1).slot 0 ≠ (vals (-1) 1).slot 1 := by
  refine ⟨?_, ?_, ?_, ?_, ?_, ?_⟩ <;> decide

/-- O46: the last slot. -/
theorem witness_SleepCompletes :
    base.cfg.ValidData (1 : DataAddr).toInt := by
  decide

/-- O47: a zero slot and another one. -/
theorem witness_ConditionalHaltsComplete :
    (vals 0 1).cfg.ValidData (1 : DataAddr).toInt ∧
    (vals 0 1).slot (0 : DataAddr).toInt = 0#64 ∧
    (vals 0 1).slot (1 : DataAddr).toInt ≠ 0#64 := by
  refine ⟨?_, ?_, ?_⟩ <;> decide

/-- O50, O51: a host that accepts. -/
theorem witness_ExternalCallsComplete :
    accepting.data.wf ∧
    accepting.cfg.ValidData (1 : DataAddr).toInt ∧
    (accepting.extAnswer ⟨2, [], false⟩).ok = true ∧
    (accepting.extAnswer ⟨2, [accepting.slot 0], false⟩).ok = true ∧
    (accepting.extAnswer ⟨2, [accepting.slot 0, accepting.slot 1], false⟩).ok = true := by
  refine ⟨?_, ?_, ?_, ?_, ?_⟩ <;> decide

/-- O51. -/
theorem witness_ReturningCallsComplete :
    (accepting.extAnswer ⟨1, [], true⟩).ok = true ∧
    (accepting.extAnswer ⟨1, [accepting.slot 0], true⟩).ok = true ∧
    (accepting.extAnswer ⟨1, [accepting.slot 0, accepting.slot 1], true⟩).ok = true := by
  refine ⟨?_, ?_, ?_⟩ <;> decide

/-- O52: a host that rejects; for EXT_FUN also with no valid data address at all. -/
theorem witness_RejectedCallsFail :
    rejecting.cfg.ValidData (1 : DataAddr).toInt ∧
    (rejecting.extAnswer ⟨2, [], false⟩).ok = false ∧
    (rejecting.extAnswer ⟨2, [rejecting.slot 0], false⟩).ok = false ∧
    (rejecting.extAnswer ⟨2, [rejecting.slot 0, rejecting.slot 1], false⟩).ok = false ∧
    (rejecting.extAnswer ⟨2, [], true⟩).ok = false ∧
    (rejecting.extAnswer ⟨2, [rejecting.slot 0], true⟩).ok = false ∧
    (rejecting.extAnswer ⟨2, [rejecting.slot 0, rejecting.slot 1], true⟩).ok = false ∧
    ¬ (sized 7 0).ValidData (0 : DataAddr).toInt ∧
    (State.extAnswer { rejecting with cfg := sized 7 0 } ⟨2, [], false⟩).ok = false := by
  refine ⟨?_, ?_, ?_, ?_, ?_, ?_, ?_, ?_, ?_⟩ <;> decide

/-- O53: an assignment, a pop and a call that returns a value. -/
theorem witness_FrameOfStoringInstrs :
    base.data.wf ∧ (Instr.setVal 1 5).storesTo = some 1 ∧ (∃ t, exec (.setVal 1 5) base = .next t) ∧
    (Instr.popDat 0).storesTo = some 0 ∧ (∃ t, exec (.popDat 0) stacked = .next t) ∧
    (Instr.extFunRet 1 0).storesTo = some 0 ∧ (∃ t, exec (.extFunRet 1 0) accepting = .next t) := by
  refine ⟨?_, ?_, exists_of_completes ?_, ?_, exists_of_completes ?_, ?_, exists_of_completes ?_⟩ <;> decide

/-- O54: one instruction of each kind it excepts something for, and a taken branch. -/
theorem witness_FrameOfNonStoringInstrs :
    Instr.retSub.storesTo = none ∧ (∃ t, exec .retSub stacked = .next t) ∧ (∃ t, exec .setPcs base = .next t) ∧
    (∃ t, exec (.slpDat 1) base = .next t) ∧ (∃ t, exec .finImd base = .next t) ∧
    (∃ t, exec (.extFun 2) accepting = .next t) ∧ (∃ t, exec (.bnzDat 1 6) base = .next t) := by
  refine ⟨?_, exists_of_completes ?_, exists_of_completes ?_, exists_of_completes ?_, exists_of_completes ?_,
    exists_of_completes ?_, exists_of_completes ?_⟩ <;> decide

/-- O55. -/
theorem witness_FrameOfPushes :
    base.data.wf ∧ (∃ t, exec (.jmpSub 6) base = .next t) ∧ (∃ t, exec (.pshDat 1) base = .next t) := by
  refine ⟨?_, exists_of_completes ?_, exists_of_completes ?_⟩ <;> decide

/-- O56: an instruction, a decode error and no instruction, each met by decodeAt and by step(true) in a phase that allows
them, and a session in each phase that forbids a move. -/
theorem witness_DecodeOnlyChangesNothing :
    decode base.cfg base.code 0 = .ok (.jmpSub 6) 5 ∧
    hostMove ⟨base, .fresh⟩ (.step true) = .ok (⟨base, .decoding⟩, .decoded (.ok 5) (some (.jmpSub 6))) ∧
    decode base.cfg base.code 2 = .err .unknownOpcode ∧
    hostMove ⟨base, .decoding⟩ (.decodeAt 2) = .ok (⟨base, .decoding⟩, .decoded (.invalid .unknownOpcode) none) ∧
    decode base.cfg base.code 7 = .noInstr ∧ (State.pc { base with pc := 7 }).toNat = 7 ∧
    hostMove ⟨base, .executing⟩ (.step true) = .error .modesInterleaved ∧
    hostMove ⟨base, .decoding⟩ (.step false) = .error .modesInterleaved ∧
    hostMove ⟨base, .constructed⟩ (.step true) = .error .stepBeforeReset := by
  refine ⟨?_, rfl, ?_, rfl, ?_, rfl, rfl, rfl, rfl⟩ <;> decide

/-- O57. -/
theorem witness_SnapshotRestoresInstance : stacked.Inv :=
  stacked_inv

/-- The sizes of a code region of `n` bytes under `EVERY_BYTE`. -/
def sizedEveryByte (n : Nat) : Configuration :=
  { sized n 0 with nopRunTargets := .everyByte }

/-- O58: FIN_IMD, a run of two bytes, FIN_IMD: the first start, the first and the last byte of the run and the offset behind
it are targets, the last byte by the run alone; the end of the code region is none. -/
theorem witness_SweepMarksEveryRunByte :
    (sizedEveryByte 4).nopRunTargets = .everyByte ∧
    sweep (sizedEveryByte 4) (codeOf [0x28, 0x7f, 0x7f, 0x28]) = [0, 1, 2, 3] ∧
    sweep { sizedEveryByte 4 with nopRunTargets := .runStart } (codeOf [0x28, 0x7f, 0x7f, 0x28]) = [0, 1, 3] ∧
    decode (sizedEveryByte 4) (codeOf [0x28, 0x7f, 0x7f, 0x28]) 1 = .ok (.nop 2) 2 := by
  refine ⟨?_, ?_, ?_, ?_⟩ <;> decide

end Sys2Proof.Tests
end

section
/-!
The bounds check of the decoder (30_encoding R103), and the step that meets a decode error (40_engine R115).
-/

namespace Sys2Proof

open Machine

/-- The operand checks come after the bounds check and answer causes of their own (30_encoding R105, R106). -/
theorem checkOperands_ne_operandBounds (cfg : Configuration) (cursor : Nat) (i : Instr) (len : Nat) :
    checkOperands cfg cursor i len ≠ .err .operandBounds := by
  unfold checkOperands
  split
  · split <;> simp
  · simp

theorem decode_of_overrun {cfg : Configuration} {code : Memory} {cursor : Nat} {op : Opcode}
    (hc : cursor < cfg.codeSize) (ho : cfg.opcodeMap.opcodeOf (code.read cursor) = some op) (hn : op ≠ .nop)
    (hl : cfg.codeSize < cursor + op.format.length) : decode cfg code cursor = .err .operandBounds := by
  rw [decode_of_opcode hc ho, decodeOpcode, if_neg hn, if_pos hl]

theorem decode_eq_operandBounds_iff {cfg : Configuration} {code : Memory} {cursor : Nat} {op : Opcode}
    (hc : cursor < cfg.codeSize) (ho : cfg.opcodeMap.opcodeOf (code.read cursor) = some op) (hn : op ≠ .nop) :
    decode cfg code cursor = .err .operandBounds ↔ cfg.codeSize < cursor + op.format.length := by
  refine ⟨fun h => ?_, decode_of_overrun hc ho hn⟩
  by_contra hl
  rw [decode_fixed ho hn (Nat.not_lt.1 hl)] at h
  exact checkOperands_ne_operandBounds _ _ _ _ h

namespace Machine

theorem step_of_fetch_err {s : State} {c : Cause} (h : fetch s = .err c) : step s = .fault (.invalid c s) := by
  simp only [step, h, raiseInvalid_eq]

/-- Settles O5: of the decoder's checks only the bounds check answers OperandBounds, and a step raises a decode error
with the state it started from. -/
theorem operandBoundsRejected : Obligations.OperandBoundsRejected :=
  ⟨fun _ _ _ _ hc ho hn => decode_eq_operandBounds_iff hc ho hn, fun _ => step_of_fetch_err⟩

end Machine
end Sys2Proof
end

section
/-!
One execute step (40_engine): which decoded instruction it runs (R115), what a failed one leaves (R116), that a transfer
tests `legalTargets` (R121), and that no step consults the sleep threshold (R124).
-/

namespace Sys2Proof.Machine

/-! ### A step and the command port, by what is fetched -/

theorem step_of_fetch_noInstr {s : State} (h : fetch s = .noInstr) :
    step s = .next s ∧ executeStep s = .ok (.noInstr, s) := by
  simp only [step, executeStep, h, and_self]

theorem executeStep_of_fetch_err {s : State} {c : Cause} (h : fetch s = .err c) :
    executeStep s = .ok (.invalid c, s) := by
  simp only [executeStep, h]

section Fetched
variable {s t : State} {i : Instr} {len : Nat} {c : Cause} {r : Refusal} (hf : fetch s = .ok i len)
include hf

theorem step_of_exec_next (h : exec i s = .next t) :
    step s = .next t.retire ∧ executeStep s = .ok (.ok len, t.retire) := by
  simp only [step, executeStep, hf, h, and_self]

theorem step_of_exec_overflow (h : exec i s = .fault (.overflow c t)) :
    step s = .fault (.overflow c t) ∧ executeStep s = .ok (.overflow c, t) := by
  simp only [step, executeStep, hf, h, and_self]

theorem step_of_exec_invalid (h : exec i s = .fault (.invalid c t)) :
    step s = .fault (.invalid c t) ∧ executeStep s = .ok (.invalid c, t) := by
  simp only [step, executeStep, hf, h, and_self]

theorem step_of_exec_refused (h : exec i s = .refused r) : step s = .refused r ∧ executeStep s = .error r := by
  simp only [step, executeStep, hf, h, and_self]

end Fetched

/-- Settles O8: one case for each answer of the decoder and, when it is an instruction, for each outcome of `exec`. -/
theorem stepRunsDecodedInstr : Obligations.StepRunsDecodedInstr := fun _ =>
  ⟨step_of_fetch_noInstr,
    fun _ h => ⟨step_of_fetch_err h, executeStep_of_fetch_err h⟩,
    fun _ _ hf => ⟨fun _ => step_of_exec_next hf, fun _ _ => step_of_exec_overflow hf,
      fun _ _ => step_of_exec_invalid hf, fun _ => step_of_exec_refused hf⟩⟩

/-! ### The state a failed step leaves -/

/-- Settles O9, by the three ways an instruction can fail; an error of the decoder leaves the state as it was. -/
theorem failedStepLeavesState : Obligations.FailedStepLeavesState := by
  intro s f h
  obtain ⟨c, hf, rfl⟩ | ⟨i, len, hf, he⟩ := step_fault h
  · exact ⟨c, s, .inr rfl, by simp [SameProgram, hf]⟩
  · cases exec_failure he with
    | plain cls c hc hr =>
      have hcls : faultOf cls c s = .overflow c s ∨ faultOf cls c s = .invalid c s := by
        cases cls <;> simp [faultOf]
      refine ⟨c, s, hcls, ?_⟩
      have hkeep : ¬ ((∃ len, fetch s = .ok .retSub len) ∧ c = .unresolvedJump) := by
        simpa [hf] using hr
      simp [SameProgram, hkeep]
    | returned hi =>
      exact ⟨_, s.dropCall, .inr rfl, by simp [SameProgram, State.isStopped, State.isTerminated, hf, hi]⟩
    | rejected req => exact ⟨_, _, .inr rfl, by simp [SameProgram]⟩

/-! ### Control transfers -/

/-- With valid data addresses a conditional branch is the branch rule of 44_control R179 alone. -/
theorem exec_of_branch {i : Instr} {s : State} {c : Bool} {off : Offset} (hd : i.dataOk s.cfg = true)
    (hb : i.branch s = some (c, off)) : exec i s = branch c off i.length s := by
  rw [Instr.dataOk_iff] at hd
  cases i
  case bzrDat a o | bnzDat a o =>
    obtain ⟨rfl, rfl⟩ := Prod.mk.inj (Option.some.inj hb)
    have hva := hd a (by simp [Instr.dataAddrs])
    simp only [exec_bzrDat, exec_bnzDat, withSlot_pos _ _ _ hva]
    rfl
  case bgtDat a b o | bltDat a b o | bgeDat a b o | bleDat a b o | beqDat a b o | bneDat a b o =>
    obtain ⟨rfl, rfl⟩ := Prod.mk.inj (Option.some.inj hb)
    have hva := hd a (by simp [Instr.dataAddrs])
    have hvb := hd b (by simp [Instr.dataAddrs])
    simp only [exec_bgtDat, exec_bltDat, exec_bgeDat, exec_bleDat, exec_beqDat, exec_bneDat,
      withSlot_pos _ _ _ hva, withSlot_pos _ _ _ hvb]
    rfl
  all_goals exact nomatch hb

/-- From `s` the instruction comes down to the legal-target test on `t`, made in a state `u` with the `pc` and the
targets of `s` (a return has popped by then), and then jumps. -/
def TestsTarget (i : Instr) (s : State) (t : Int) : Prop :=
  ∃ u v : State, exec i s = withTarget t u (.next (v.jumpTo t)) ∧ u.pc = s.pc ∧ u.legalTargets = s.legalTargets

section Transfers
variable {i : Instr} {s : State} {t : Int} (hroom : i.opcode = .jmpSub → s.cs.toNat < s.cfg.csCap)
  (hentry : i.opcode = .retSub → 0 < s.cs.toNat ∧ s.cs.toNat ≤ s.cfg.csCap)
include hroom hentry

theorem testsTarget_of_jumpsTo (ht : i.jumpsTo s = some t) : TestsTarget i s t := by
  cases i
  case jmpSub c =>
    obtain rfl := Option.some.inj ht
    have hlt := hroom rfl
    refine ⟨s, s.pushCall (BitVec.ofNat 64 (s.pc.toNat + 5)), ?_, rfl, rfl⟩
    rw [exec_jmpSub, withCallRoom_pos _ _ hlt.le hlt.ne]
  case retSub =>
    obtain rfl := Option.some.inj ht
    obtain ⟨hpos, hle⟩ := hentry rfl
    refine ⟨s.dropCall, s.dropCall, ?_, rfl, rfl⟩
    rw [exec_retSub, withCallEntry_pos _ _ hle hpos.ne']
  case jmpAdr c =>
    obtain rfl := Option.some.inj ht
    exact ⟨s, s, exec_jmpAdr _ _, rfl, rfl⟩
  all_goals exact nomatch ht

/-- Every control transfer past its checks tests its destination (40_engine R121). -/
theorem testsTarget_of_transferTo (hd : i.dataOk s.cfg = true) (ht : i.transferTo s = some t) : TestsTarget i s t := by
  rw [Instr.transferTo] at ht
  split at ht
  · next off hb =>
    obtain rfl := Option.some.inj ht
    exact ⟨s, s, exec_of_branch hd hb, rfl, rfl⟩
  · cases ht
  · exact testsTarget_of_jumpsTo hroom hentry ht

end Transfers

/-- Settles O25: a transfer is the legal-target test on its destination, and a branch not taken makes none. -/
theorem transfersTestLegalTargets : Obligations.TransfersTestLegalTargets := by
  intro s i hd hroom hentry
  refine ⟨fun t ht => ?_, fun hc => ?_⟩
  · obtain ⟨u, v, he, hpc, hlt⟩ := testsTarget_of_transferTo hroom hentry hd ht
    have hiff : u.IsTarget t ↔ s.IsTarget t := by rw [State.IsTarget, State.IsTarget, hlt]
    rw [he]
    exact ⟨fun hs => ⟨v.jumpTo t, withTarget_pos _ _ _ (hiff.2 hs), State.jumpTo_pc _ _⟩,
      fun hs => ⟨u, (withTarget_fault _ _ _ _).2 (.inl ⟨mt hiff.1 hs, rfl⟩), hpc⟩⟩
  · obtain ⟨⟨c, off⟩, hb, rfl⟩ := Option.map_eq_some_iff.1 hc
    exact exec_of_branch hd hb

/-! ### The sleep threshold -/

/-- The state with another sleep threshold. -/
def State.withSleep (s : State) (w : Slot) : State :=
  { s with sleepUntil := w }

theorem eq_withSleep_of_forgetSleep_eq {s s' : State} (h : s.forgetSleep = s'.forgetSleep) :
    s' = s.withSleep s'.sleepUntil := by
  cases s
  cases s'
  simp_all [State.forgetSleep, State.withSleep]

/-- Two answers that differ in `sleepUntil` alone, if at all: `AgreeUpTo State.forgetSleep`, case by case. -/
inductive SleepAgree : Result → Result → Prop
  | next {t t' : State} (h : t.forgetSleep = t'.forgetSleep) : SleepAgree (.next t) (.next t')
  | overflow {t t' : State} (c : Cause) (h : t.forgetSleep = t'.forgetSleep) :
      SleepAgree (.fault (.overflow c t)) (.fault (.overflow c t'))
  | invalid {t t' : State} (c : Cause) (h : t.forgetSleep = t'.forgetSleep) :
      SleepAgree (.fault (.invalid c t)) (.fault (.invalid c t'))
  | refused (r : Refusal) : SleepAgree (.refused r) (.refused r)

namespace SleepAgree

theorem agreeUpTo {r r' : Result} (h : SleepAgree r r') : AgreeUpTo State.forgetSleep r r' := by
  cases h with
  | next h => exact h
  | overflow c h => exact ⟨rfl, h⟩
  | invalid c h => exact ⟨rfl, h⟩
  | refused r => rfl

theorem ofIte {p : Prop} [Decidable p] {a a' b b' : Result} (ha : SleepAgree a a') (hb : SleepAgree b b') :
    SleepAgree (if p then a else b) (if p then a' else b') := by
  split
  · exact ha
  · exact hb

theorem ofRaise (cls : ErrClass) (c : Cause) (s : State) (w : Slot) :
    SleepAgree (raise cls c s) (raise cls c (s.withSleep w)) := by
  cases cls with
  | overflow => exact .overflow c rfl
  | invalid => exact .invalid c rfl

section Operands
variable {s : State} {w : Slot}

theorem ofStore (a : DataAddr) (v : Slot) (len : Nat) : SleepAgree (store a v len s) (store a v len (s.withSleep w)) :=
  ofIte (.next rfl) (ofRaise _ _ _ _)

theorem ofSlot {a : DataAddr} {k k' : Slot → Result} (hk : ∀ v, SleepAgree (k v) (k' v)) :
    SleepAgree (withSlot a s k) (withSlot a (s.withSleep w) k') :=
  ofIte (hk _) (ofRaise _ _ _ _)

theorem ofIndirect {a : Int} {k k' : Slot → Result} (hk : ∀ v, SleepAgree (k v) (k' v)) :
    SleepAgree (withIndirect a s k) (withIndirect a (s.withSleep w) k') :=
  ofIte (hk _) (ofRaise _ _ _ _)

theorem ofTarget {t : Int} {k k' : Result} (hk : SleepAgree k k') :
    SleepAgree (withTarget t s k) (withTarget t (s.withSleep w) k') :=
  ofIte hk (ofRaise _ _ _ _)

theorem ofCallRoom {k k' : Result} (hk : SleepAgree k k') :
    SleepAgree (withCallRoom s k) (withCallRoom (s.withSleep w) k') :=
  ofIte (.refused _) (ofIte (ofRaise _ _ _ _) hk)

theorem ofCallEntry {k k' : Result} (hk : SleepAgree k k') :
    SleepAgree (withCallEntry s k) (withCallEntry (s.withSleep w) k') :=
  ofIte (.refused _) (ofIte (ofRaise _ _ _ _) hk)

theorem ofUserRoom {k k' : Result} (hk : SleepAgree k k') :
    SleepAgree (withUserRoom s k) (withUserRoom (s.withSleep w) k') :=
  ofIte (.refused _) (ofIte (ofRaise _ _ _ _) hk)

theorem ofUserEntry {k k' : Result} (hk : SleepAgree k k') :
    SleepAgree (withUserEntry s k) (withUserEntry (s.withSleep w) k') :=
  ofIte (.refused _) (ofIte (ofRaise _ _ _ _) hk)

theorem ofBranch (c : Bool) (off : Offset) (len : Nat) :
    SleepAgree (branch c off len s) (branch c off len (s.withSleep w)) :=
  ofIte (ofTarget (.next rfl)) (.next rfl)

theorem ofCall {req : ExtRequest} {k k' : Slot → State → Result}
    (hk : ∀ v t, SleepAgree (k v t) (k' v (t.withSleep w))) :
    SleepAgree (extCall req s k) (extCall req (s.withSleep w) k') :=
  ofIte (hk _ _) (ofRaise _ _ _ _)

theorem ofQuotient {x y : Slot} {k k' : Slot → Result} (hk : ∀ v, SleepAgree (k v) (k' v)) :
    SleepAgree (withQuotient x y s k) (withQuotient x y (s.withSleep w) k') := by
  refine ofIte (ofRaise _ _ _ _) (ofIte ?_ (hk _))
  cases h : s.cfg.divMinNeg1 <;> simp only [State.withSleep, h]
  · exact hk _
  · exact ofRaise _ _ s w

end Operands

end SleepAgree

open SleepAgree in
/-- No instruction reads the sleep threshold: with another one it ends alike. -/
theorem sleepAgree_exec (i : Instr) (s : State) (w : Slot) : SleepAgree (exec i s) (exec i (s.withSleep w)) := by
  cases i
  case nop | finImd | stpImd | setPcs => exact .next rfl
  case setVal | clrDat =>
    simp only [exec_setVal, exec_clrDat]
    exact ofStore _ _ _
  case setDat | incDat | decDat | notDat =>
    simp only [exec_setDat, exec_incDat, exec_decDat, exec_notDat]
    exact ofSlot fun _ => ofStore _ _ _
  case addDat | subDat | mulDat | borDat | andDat | xorDat =>
    simp only [exec_addDat, exec_subDat, exec_mulDat, exec_borDat, exec_andDat, exec_xorDat]
    exact ofSlot fun _ => ofSlot fun _ => ofStore _ _ _
  case divDat =>
    simp only [exec_divDat]
    exact ofSlot fun _ => ofSlot fun _ => ofQuotient fun _ => ofStore _ _ _
  case setInd =>
    simp only [exec_setInd]
    exact ofSlot fun _ => ofIndirect fun _ => ofStore _ _ _
  case setIdx =>
    simp only [exec_setIdx]
    exact ofSlot fun _ => ofSlot fun _ => ofIndirect fun _ => ofStore _ _ _
  case pshDat =>
    simp only [exec_pshDat]
    exact ofUserRoom (ofSlot fun _ => .next rfl)
  case popDat =>
    simp only [exec_popDat]
    exact ofUserEntry (ofSlot fun _ => ofStore (s := s.dropUser) _ _ _)
  case jmpSub =>
    simp only [exec_jmpSub]
    exact ofCallRoom (ofTarget (.next rfl))
  case retSub =>
    simp only [exec_retSub]
    exact ofCallEntry (ofTarget (s := s.dropCall) (.next rfl))
  case jmpAdr =>
    simp only [exec_jmpAdr]
    exact ofTarget (.next rfl)
  case bzrDat | bnzDat =>
    simp only [exec_bzrDat, exec_bnzDat]
    exact ofSlot fun _ => ofBranch _ _ _
  case bgtDat | bltDat | bgeDat | bleDat | beqDat | bneDat =>
    simp only [exec_bgtDat, exec_bltDat, exec_bgeDat, exec_bleDat, exec_beqDat, exec_bneDat]
    exact ofSlot fun _ => ofSlot fun _ => ofBranch _ _ _
  case slpDat =>
    simp only [exec_slpDat]
    exact ofSlot fun _ => .next rfl
  case fizDat | stzDat =>
    simp only [exec_fizDat, exec_stzDat]
    exact ofSlot fun _ => ofIte (.next rfl) (.next rfl)
  case extFun =>
    simp only [exec_extFun]
    exact ofCall fun _ _ => .next rfl
  case extFunDat =>
    simp only [exec_extFunDat]
    exact ofSlot fun _ => ofCall fun _ _ => .next rfl
  case extFunDat2 =>
    simp only [exec_extFunDat2]
    exact ofSlot fun _ => ofSlot fun _ => ofCall fun _ _ => .next rfl
  case extFunRet =>
    simp only [exec_extFunRet]
    exact ofSlot fun _ => ofCall fun _ _ => ofStore _ _ _
  case extFunRetDat =>
    simp only [exec_extFunRetDat]
    exact ofSlot fun _ => ofSlot fun _ => ofCall fun _ _ => ofStore _ _ _
  case extFunRetDat2 =>
    simp only [exec_extFunRetDat2]
    exact ofSlot fun _ => ofSlot fun _ => ofSlot fun _ => ofCall fun _ _ => ofStore _ _ _

/-- The decoder reads the code region alone, and retiring an instruction leaves the threshold. -/
theorem sleepAgree_step (s : State) (w : Slot) : SleepAgree (step s) (step (s.withSleep w)) := by
  have hf : fetch (s.withSleep w) = fetch s := rfl
  unfold step
  rw [hf]
  cases fetch s with
  | noInstr => exact .next rfl
  | err c => exact .invalid c rfl
  | ok i len =>
    have he := sleepAgree_exec i s w
    dsimp only
    generalize exec i s = r at he ⊢
    generalize exec i (s.withSleep w) = r' at he ⊢
    cases he with
    | next h => exact .next (congrArg State.retire h)
    | overflow c h => exact .overflow c h
    | invalid c h => exact .invalid c h
    | refused r => exact .refused r

/-- Settles O23: a state that differs in `sleepUntil` alone is the same state with another threshold. -/
theorem sleepThresholdNeverGates : Obligations.SleepThresholdNeverGates := by
  intro s s' h
  rw [eq_withSleep_of_forgetSleep_eq h]
  exact (sleepAgree_step s _).agreeUpTo

end Sys2Proof.Machine
end

section
/-!
The encoder and the decoder against each other (30_encoding R90 to R109): the two round trips, the causes of a failed
decode, and the no-op run.
-/

namespace Sys2Proof

open Machine (Memory)

/-! ### The bytes at an offset -/

theorem readBytes_getElem (code : Memory) (cursor n j : Nat) (hj : j < (code.readBytes cursor n).length) :
    (code.readBytes cursor n)[j] = code.read (cursor + j) := by
  induction n generalizing cursor j with
  | zero => simp at hj
  | succ n ih =>
    cases j with
    | zero => rfl
    | succ j =>
      simp only [Memory.readBytes, List.getElem_cons_succ, ih]
      congr 1
      omega

theorem readBytes_eq_replicate_iff {code : Memory} {cursor k : Nat} {b : Byte} :
    code.readBytes cursor k = List.replicate k b ↔ ∀ j, j < k → code.read (cursor + j) = b := by
  simp only [List.ext_getElem_iff, readBytes_getElem, List.getElem_replicate, Machine.Memory.length_readBytes,
    List.length_replicate, true_and]
  exact ⟨fun h j hj => h j hj hj, fun h j hj _ => h j hj⟩

theorem readBytes_head? {code : Memory} {cursor n : Nat} (hn : 1 ≤ n) :
    (code.readBytes cursor n).head? = some (code.read cursor) := by
  obtain ⟨m, rfl⟩ := Nat.exists_eq_add_of_le' hn
  rfl

theorem encode_head? (map : OpcodeMap) {i : Instr} (hi : 1 ≤ i.length) :
    (encode map i).head? = some (map.byteOf i.opcode) := by
  cases i
  case nop k =>
    obtain ⟨m, rfl⟩ := Nat.exists_eq_add_of_le' (show 1 ≤ k from hi)
    rfl
  all_goals rfl

theorem Opcode.format_length_pos (op : Opcode) : 1 ≤ op.format.length := by
  cases op <;> decide

theorem eq_nop_of_opcode {i : Instr} (h : i.opcode = .nop) : i = .nop i.length := by
  cases i
  case nop k => rfl
  all_goals cases h

section Encoded
variable {cfg : Configuration} {code : Memory} {cursor : Nat} {i : Instr} (hm : cfg.opcodeMap.wf)
  (he : code.readBytes cursor i.length = encode cfg.opcodeMap i)
include he

theorem read_of_encoded (hi : 1 ≤ i.length) : code.read cursor = cfg.opcodeMap.byteOf i.opcode := by
  have h := readBytes_head? (code := code) (cursor := cursor) hi
  rw [he, encode_head? _ hi] at h
  exact (Option.some.inj h).symm

include hm

/-- The first byte of an encoding stands for the instruction's opcode. -/
theorem opcodeOf_of_encoded (hi : 1 ≤ i.length) : cfg.opcodeMap.opcodeOf (code.read cursor) = some i.opcode := by
  rw [read_of_encoded he hi, OpcodeMap.opcodeOf_byteOf hm]

/-- Where a fixed-length instruction is encoded, the decoder reads all its fields and is left with the operand checks. -/
theorem decode_of_encoded (hn : i.opcode ≠ .nop) (hl : cursor + i.length ≤ cfg.codeSize) :
    decode cfg code cursor = checkOperands cfg cursor i i.length := by
  have hlen := length_of_not_nop hn
  rw [decode_fixed (opcodeOf_of_encoded hm he (hlen ▸ Opcode.format_length_pos _)) hn (hlen ▸ hl), ← hlen, he,
    assemble_encode]

/-- Where a no-op run is encoded and ends, the decoder reads that run. -/
theorem decode_of_encoded_nop (hn : i.opcode = .nop) (hw : i.WellFormed cfg cursor)
    (hend : cursor + i.length = cfg.codeSize ∨ code.read (cursor + i.length) ≠ cfg.opcodeMap.byteOf .nop) :
    decode cfg code cursor = .ok i i.length := by
  obtain ⟨hpos, hin, -⟩ := hw
  have hb : code.read cursor = cfg.opcodeMap.byteOf .nop := hn ▸ read_of_encoded he hpos
  have hi := eq_nop_of_opcode hn
  have hall : ∀ j, j < i.length → code.read (cursor + j) = code.read cursor := by
    rw [hb, ← readBytes_eq_replicate_iff, he, hi]
    rfl
  refine decode_ok.2 ⟨by omega, .nop, hn ▸ opcodeOf_of_encoded hm he hpos, .inl ⟨rfl, ?_, hi⟩⟩
  refine (runLength_eq _ _ _ _ _ (by omega) hall ?_).symm
  rw [hb]
  exact hend.imp_left fun h => by omega

end Encoded

/-- Settles O2: a no-op run by the maximality of the run that is read, every other instruction by its fields. -/
theorem decodeOfEncodedInstr : Obligations.DecodeOfEncodedInstr := by
  intro cfg code cursor i hm hw he hend
  by_cases hn : i.opcode = .nop
  · exact decode_of_encoded_nop hm he hn hw (hend hn)
  · obtain ⟨-, hin, hdata, hcode⟩ := hw
    rw [decode_of_encoded hm he hn hin]
    exact checkOperands_ok.2 ⟨rfl, rfl, hdata, hcode⟩

/-- Settles O3: the bytes of a run all equal the byte of NOP, and the fields of every other instruction are its bytes. -/
theorem encodeOfDecodedInstr : Obligations.EncodeOfDecodedInstr := by
  intro cfg code cursor i len hm hd
  obtain ⟨hlen, hw⟩ := decode_wellFormed hd
  refine ⟨hlen, hw, ?_⟩
  obtain ⟨-, op, hop, ⟨rfl, hrun, rfl⟩ | ⟨hn, hl, -, rfl, -, -⟩⟩ := decode_ok.1 hd
  · rw [encode, OpcodeMap.byteOf_of_opcodeOf hm hop, readBytes_eq_replicate_iff, hrun]
    exact runLength_all code _ _ cursor
  · have hhead := readBytes_head? (code := code) (cursor := cursor) (hl ▸ op.format_length_pos)
    exact (encode_assemble _ op _ hn (by simpa using hl)
      (by rw [hhead, OpcodeMap.byteOf_of_opcodeOf hm hop])).symm

/-! ### The causes of a failed decode -/

theorem checkOperands_dataAddress {cfg : Configuration} {cursor len : Nat} {i : Instr}
    (h : ∃ a ∈ i.dataAddrs, ¬ cfg.ValidData a.toInt) : checkOperands cfg cursor i len = .err .dataAddress := by
  obtain ⟨a, ha, hv⟩ := h
  rw [checkOperands, if_neg fun hd => hv ((i.dataOk_iff cfg).1 hd a ha)]

theorem checkOperands_codeAddress {cfg : Configuration} {cursor len : Nat} {i : Instr}
    (hd : ∀ a ∈ i.dataAddrs, cfg.ValidData a.toInt) (h : ∃ t ∈ i.codeTargets cursor, ¬ cfg.ValidCode t) :
    checkOperands cfg cursor i len = .err .codeAddress := by
  obtain ⟨t, ht, hv⟩ := h
  rw [checkOperands, if_pos ((i.dataOk_iff cfg).2 hd), if_neg fun hc => hv ((i.codeOk_iff cfg cursor).1 hc t ht)]

/-- Settles O6: past the bounds check the decoder answers as the operand checks do. -/
theorem operandAddressesChecked : Obligations.OperandAddressesChecked := by
  intro cfg code cursor i hm hn hl he
  rw [decode_of_encoded hm he hn hl]
  exact ⟨checkOperands_dataAddress, checkOperands_codeAddress⟩

/-- For the bytes of an opcode the decoder answers an instruction or one of three causes. -/
theorem decodeOpcode_cases (cfg : Configuration) (code : Memory) (cursor : Nat) (op : Opcode) :
    (∃ i len, decodeOpcode cfg code cursor op = .ok i len) ∨
    ∃ c ∈ [Cause.operandBounds, .dataAddress, .codeAddress], decodeOpcode cfg code cursor op = .err c := by
  unfold decodeOpcode
  split
  · exact .inl ⟨_, _, rfl⟩
  · split
    · exact .inr ⟨.operandBounds, by simp⟩
    · unfold checkOperands
      split
      · split
        · exact .inl ⟨_, _, rfl⟩
        · exact .inr ⟨.codeAddress, by simp⟩
      · exact .inr ⟨.dataAddress, by simp⟩

theorem decodeOpcode_ne_unknownOpcode (cfg : Configuration) (code : Memory) (cursor : Nat) (op : Opcode) :
    decodeOpcode cfg code cursor op ≠ .err .unknownOpcode := by
  obtain ⟨i, len, h⟩ | ⟨c, hc, h⟩ := decodeOpcode_cases cfg code cursor op
  · simp [h]
  · rw [h]
    rintro ⟨⟩
    simp at hc

theorem decode_eq_unknownOpcode_iff {cfg : Configuration} {code : Memory} {cursor : Nat} :
    decode cfg code cursor = .err .unknownOpcode ↔
      cursor < cfg.codeSize ∧ cfg.opcodeMap.opcodeOf (code.read cursor) = none := by
  unfold decode
  split
  · next h => simp [Nat.not_lt.2 h]
  · next h =>
    split
    · next ho => simp [ho, Nat.not_le.1 h]
    · next op ho => simp [ho, decodeOpcode_ne_unknownOpcode]

theorem opcodeTable_opcodeOf_eq_none_iff (b : Byte) :
    opcodeTable.opcodeOf b = none ↔ Machine.unassignedByte b.toNat = true := by
  revert b
  decide

/-- Settles O4: the unknown bytes are those the map has no row for, and the default map lacks exactly the listed ones. -/
theorem unassignedBytesRejected : Obligations.UnassignedBytesRejected := by
  intro cfg code cursor hmap
  rw [decode_eq_unknownOpcode_iff, hmap, opcodeTable_opcodeOf_eq_none_iff]

/-! ### The no-op run -/

/-- Settles O7: the run the decoder reads has the length `runLength` counts. -/
theorem nopRunIsMaximal : Obligations.NopRunIsMaximal := by
  intro cfg code cursor hc ho
  have hle := runLength_le code (code.read cursor) (cfg.codeSize - cursor) cursor
  have hstop := runLength_stops code (code.read cursor) (cfg.codeSize - cursor) cursor
  refine ⟨runLength code (code.read cursor) (cfg.codeSize - cursor) cursor,
    decode_ok.2 ⟨hc, .nop, ho, .inl ⟨rfl, rfl, rfl⟩⟩, runLength_pos (by omega) rfl, by omega,
    runLength_all code _ _ cursor, ?_⟩
  exact hstop.imp_left fun h => by omega

/-- Settles O1: the decoder evaluated on the bytes of each example. -/
theorem specWordsDecode : Obligations.SpecWordsDecode := by
  unfold Obligations.SpecWordsDecode
  decide

end Sys2Proof
end

section
/-!
No instruction reads the flags (40_engine R123): forgetting the flags before an instruction and forgetting them after it
come to the same, because every operand form passes the forgetting on.
-/

namespace Sys2Proof.Machine

/-- An answer whose state has gone through `f`. -/
def mapResult (f : State → State) : Result → Result
  | .next t => .next (f t)
  | .fault (.overflow c t) => .fault (.overflow c (f t))
  | .fault (.invalid c t) => .fault (.invalid c (f t))
  | .refused r => .refused r

/-- Agreement up to `f` is equality of the answers once their states have gone through `f`. -/
theorem agreeUpTo_iff_mapResult_eq (f : State → State) (r r' : Result) :
    AgreeUpTo f r r' ↔ mapResult f r = mapResult f r' := by
  rcases r with t | (⟨c, t⟩ | ⟨c, t⟩) | ρ <;> rcases r' with t' | (⟨c', t'⟩ | ⟨c', t'⟩) | ρ' <;>
    simp [AgreeUpTo, mapResult]

@[simp] theorem mapResult_next (f : State → State) (t : State) : mapResult f (.next t) = .next (f t) := rfl

@[simp] theorem mapResult_refused (f : State → State) (r : Refusal) : mapResult f (.refused r) = .refused r := rfl

@[simp] theorem mapResult_raise (f : State → State) (cls : ErrClass) (c : Cause) (s : State) :
    mapResult f (raise cls c s) = raise cls c (f s) := by
  cases cls <;> rfl

/-! ### Reading and updating a state whose flags are forgotten -/

section Forget
variable (s : State)

@[simp] theorem State.forgetFlags_pc : s.forgetFlags.pc = s.pc := rfl
@[simp] theorem State.forgetFlags_cs : s.forgetFlags.cs = s.cs := rfl
@[simp] theorem State.forgetFlags_us : s.forgetFlags.us = s.us := rfl
@[simp] theorem State.forgetFlags_legalTargets : s.forgetFlags.legalTargets = s.legalTargets := rfl
@[simp] theorem State.forgetFlags_cfg : s.forgetFlags.cfg = s.cfg := rfl
@[simp] theorem State.forgetFlags_slot (a : Int) : s.forgetFlags.slot a = s.slot a := rfl
@[simp] theorem State.forgetFlags_topCall : s.forgetFlags.topCall = s.topCall := rfl
@[simp] theorem State.forgetFlags_topUser : s.forgetFlags.topUser = s.topUser := rfl
@[simp] theorem State.forgetFlags_extAnswer (req : ExtRequest) : s.forgetFlags.extAnswer req = s.extAnswer req := rfl
@[simp] theorem State.forgetFlags_forgetFlags : s.forgetFlags.forgetFlags = s.forgetFlags := rfl
@[simp] theorem State.dropUser_forgetFlags : s.dropUser.forgetFlags = s.forgetFlags.dropUser := rfl
@[simp] theorem State.dropCall_forgetFlags : s.dropCall.forgetFlags = s.forgetFlags.dropCall := rfl
@[simp] theorem State.advance_forgetFlags (len : Nat) : (s.advance len).forgetFlags = s.forgetFlags.advance len := rfl
@[simp] theorem State.jumpTo_forgetFlags (t : Int) : (s.jumpTo t).forgetFlags = s.forgetFlags.jumpTo t := rfl
@[simp] theorem State.pushUser_forgetFlags (v : Slot) : (s.pushUser v).forgetFlags = s.forgetFlags.pushUser v := rfl
@[simp] theorem State.pushCall_forgetFlags (v : Slot) : (s.pushCall v).forgetFlags = s.forgetFlags.pushCall v := rfl
@[simp] theorem State.setSlot_forgetFlags (a : Int) (v : Slot) :
    (s.setSlot a v).forgetFlags = s.forgetFlags.setSlot a v := rfl
@[simp] theorem State.forgetFlags_terminate : s.forgetFlags.terminate.forgetFlags = s.terminate.forgetFlags := rfl
@[simp] theorem State.forgetFlags_stop (len : Nat) : (s.forgetFlags.stop len).forgetFlags = (s.stop len).forgetFlags := rfl
@[simp] theorem State.forgetFlags_served (req : ExtRequest) (r : ExtResponse) :
    (s.forgetFlags.served req r).forgetFlags = (s.served req r).forgetFlags := rfl

/-! ### Each operand form passes the forgetting on -/

@[simp] theorem mapResult_withSlot (a : DataAddr) (k : Slot → Result) :
    mapResult State.forgetFlags (withSlot a s k) =
      withSlot a s.forgetFlags fun x => mapResult State.forgetFlags (k x) :=
  apply_ite (mapResult _) _ _ _

@[simp] theorem mapResult_withIndirect (a : Int) (k : Slot → Result) :
    mapResult State.forgetFlags (withIndirect a s k) =
      withIndirect a s.forgetFlags fun x => mapResult State.forgetFlags (k x) := by
  rw [withIndirect, apply_ite (mapResult _), mapResult_raise]
  rfl

@[simp] theorem mapResult_withTarget (t : Int) (k : Result) :
    mapResult State.forgetFlags (withTarget t s k) =
      withTarget t s.forgetFlags (mapResult State.forgetFlags k) :=
  apply_ite (mapResult _) _ _ _

@[simp] theorem mapResult_store (a : DataAddr) (v : Slot) (len : Nat) :
    mapResult State.forgetFlags (store a v len s) = store a v len s.forgetFlags :=
  apply_ite (mapResult _) _ _ _

@[simp] theorem mapResult_withCallRoom (k : Result) :
    mapResult State.forgetFlags (withCallRoom s k) =
      withCallRoom s.forgetFlags (mapResult State.forgetFlags k) := by
  rw [withCallRoom, apply_ite (mapResult _), apply_ite (mapResult _)]
  rfl

@[simp] theorem mapResult_withCallEntry (k : Result) :
    mapResult State.forgetFlags (withCallEntry s k) =
      withCallEntry s.forgetFlags (mapResult State.forgetFlags k) := by
  rw [withCallEntry, apply_ite (mapResult _), apply_ite (mapResult _)]
  rfl

@[simp] theorem mapResult_withUserRoom (k : Result) :
    mapResult State.forgetFlags (withUserRoom s k) =
      withUserRoom s.forgetFlags (mapResult State.forgetFlags k) := by
  rw [withUserRoom, apply_ite (mapResult _), apply_ite (mapResult _)]
  rfl

@[simp] theorem mapResult_withUserEntry (k : Result) :
    mapResult State.forgetFlags (withUserEntry s k) =
      withUserEntry s.forgetFlags (mapResult State.forgetFlags k) := by
  rw [withUserEntry, apply_ite (mapResult _), apply_ite (mapResult _)]
  rfl

@[simp] theorem mapResult_branch (c : Bool) (off : Offset) (len : Nat) :
    mapResult State.forgetFlags (branch c off len s) = branch c off len s.forgetFlags := by
  rw [branch, apply_ite (mapResult _), mapResult_withTarget]
  rfl

@[simp] theorem mapResult_withQuotient (x y : Slot) (k : Slot → Result) :
    mapResult State.forgetFlags (withQuotient x y s k) =
      withQuotient x y s.forgetFlags fun q => mapResult State.forgetFlags (k q) := by
  simp only [withQuotient, apply_ite (mapResult _), State.forgetFlags_cfg]
  cases s.cfg.divMinNeg1 <;> rfl

/-- The host's flag write of an external call depends on the flags; what is left of it once they are forgotten does
not. -/
theorem mapResult_extCall (req : ExtRequest) (k : Slot → State → Result) :
    mapResult State.forgetFlags (extCall req s k) =
      bif (s.extAnswer req).ok then
        mapResult State.forgetFlags (k (s.extAnswer req).value (s.served req (s.extAnswer req)))
      else raiseInvalid .extCallRejected (s.served req (s.extAnswer req)).forgetFlags := by
  rw [extCall]
  cases (s.extAnswer req).ok <;> rfl

/-- Forgetting the flags before an instruction changes nothing of its answer once they are forgotten behind it: every
instruction is a nest of operand forms, and each form passes the forgetting on to its innermost updates. -/
theorem mapResult_exec (i : Instr) :
    mapResult State.forgetFlags (exec i s.forgetFlags) = mapResult State.forgetFlags (exec i s) := by
  cases i
  case nop | finImd | stpImd | setPcs => rfl
  case slpDat =>
    simp only [exec_slpDat, mapResult_withSlot]
    rfl
  case fizDat | stzDat => simp [exec_fizDat, exec_stzDat, apply_ite (mapResult _)]
  case extFun | extFunDat | extFunDat2 | extFunRet | extFunRetDat | extFunRetDat2 =>
    simp [exec_extFun, exec_extFunDat, exec_extFunDat2, exec_extFunRet, exec_extFunRetDat, exec_extFunRetDat2,
      mapResult_extCall]
  all_goals
    simp [exec_setVal, exec_setDat, exec_clrDat, exec_incDat, exec_decDat, exec_notDat, exec_addDat, exec_subDat,
      exec_mulDat, exec_divDat, exec_borDat, exec_andDat, exec_xorDat, exec_setInd, exec_setIdx, exec_pshDat,
      exec_popDat, exec_jmpSub, exec_retSub, exec_jmpAdr, exec_bzrDat, exec_bnzDat, exec_bgtDat, exec_bltDat,
      exec_bgeDat, exec_bleDat, exec_beqDat, exec_bneDat]

theorem mapResult_step :
    mapResult State.forgetFlags (step s.forgetFlags) = mapResult State.forgetFlags (step s) := by
  have hf : fetch s.forgetFlags = fetch s := rfl
  simp only [step, hf]
  cases fetch s with
  | noInstr => rfl
  | err c => rfl
  | ok i len =>
    have he := (agreeUpTo_iff_mapResult_eq _ _ _).2 (mapResult_exec s i)
    rw [← agreeUpTo_iff_mapResult_eq]
    dsimp only
    generalize exec i s.forgetFlags = r at he ⊢
    generalize exec i s = r' at he ⊢
    rcases r with t | (⟨c, t⟩ | ⟨c, t⟩) | ρ <;> rcases r' with t' | (⟨c', t'⟩ | ⟨c', t'⟩) | ρ'
    case next.next => exact congrArg State.retire he
    all_goals exact he

end Forget

/-- Settles O24: states that differ in flags alone are the same state once the flags are forgotten. -/
theorem flagsAreNeverRead : Obligations.FlagsAreNeverRead := by
  intro s s' h
  rw [agreeUpTo_iff_mapResult_eq, ← mapResult_step s, ← mapResult_step s', h]

end Sys2Proof.Machine
end

section
/-!
What every step keeps (10_state R38, 40_engine R132): where `pc` goes, the invariants, the placement of `pc` and `pcs`,
the count of steps and the program; and that the reset command establishes the invariants.
-/

namespace Sys2Proof.Machine

/-! ### Where an instruction goes -/

/-- The fetched instruction has its own length and ends inside the code region. -/
theorem fetch_length {s : State} {i : Instr} {len : Nat} (h : fetch s = .ok i len) :
    len = i.length ∧ s.pc.toNat + i.length ≤ s.cfg.codeSize := by
  obtain ⟨hlen, -, hend, -⟩ := decode_wellFormed h
  exact ⟨hlen, hend⟩

section Destination
variable {i : Instr} {s t : State} (hb : s.cfg.codeSize ≤ Config.maxSize) (ht : s.legalTargets = sweep s.cfg s.code)
include hb ht

/-- A legal target is inside the code region, so `pc` holds it exactly. -/
theorem toNat_ofInt_of_isTarget {d : Int} (h : s.IsTarget d) :
    ((BitVec.ofInt 32 d).toNat : Int) = d ∧ (BitVec.ofInt 32 d).toNat ∈ s.legalTargets := by
  obtain ⟨h0, hd⟩ := h
  have hlt : d.toNat < s.cfg.codeSize := sweep_lt (ht ▸ hd)
  have hpc := toNat_target hb h0 hlt
  refine ⟨hpc, ?_⟩
  rwa [show (BitVec.ofInt 32 d).toNat = d.toNat by omega]

/-- After a success `pc` is where R117 says, as an exact number (40_engine R117). -/
theorem Effect.pc_eq_pcAfter (h : Effect i s t) (hend : s.pc.toNat + i.length ≤ s.cfg.codeSize) :
    (t.pc.toNat : Int) = i.pcAfter i.length s := by
  have hadv : ((s.pc + BitVec.ofNat 32 i.length).toNat : Int) = s.pc.toNat + i.length := by
    rw [toNat_add_len hb hend]
    rfl
  cases h with
  | stored a v hi hn he hp | moved hd hp | sent req he hn hp | answered req a he hn hp => exact hp ▸ hadv
  | popped a hi | pushed a hi | slept a hi | restarted hi => subst hi; exact hadv
  | called c hi hu hc => subst hi; exact (toNat_ofInt_of_isTarget hb ht hc).1
  | returned hi h0 hu hc => subst hi; exact (toNat_ofInt_of_isTarget hb ht hc).1
  | jumped d hd hs hn he hc =>
    simp only [Instr.pcAfter, hd]
    exact (toNat_ofInt_of_isTarget hb ht hc).1
  | terminated hi =>
    obtain rfl | ⟨a, rfl, hz⟩ := hi
    · rfl
    · rw [pcAfter_fizDat, if_pos hz, State.terminate_pc]
  | stopped hi => obtain rfl | ⟨a, rfl, -⟩ := hi <;> exact hadv

/-- After a success `pc` is behind the instruction, at a legal target, or at the restart point. -/
theorem Effect.pc_cases (h : Effect i s t) (hend : s.pc.toNat + i.length ≤ s.cfg.codeSize) :
    t.pc.toNat = s.pc.toNat + i.length ∨ t.pc.toNat ∈ s.legalTargets ∨ t.pc = s.pcs := by
  have hadv := toNat_add_len hb hend
  cases h with
  | stored | moved | sent | answered => exact .inl hadv
  | popped a hi | pushed a hi | slept a hi | restarted hi => subst hi; exact .inl hadv
  | stopped => exact .inl hadv
  | called c hi hu hc | returned hi h0 hu hc | jumped d hd hs hn he hc =>
    exact .inr (.inl (toNat_ofInt_of_isTarget hb ht hc).2)
  | terminated => exact .inr (.inr rfl)

omit ht in
/-- The restart point moves only behind a SET_PCS. -/
theorem Effect.pcs_cases (h : Effect i s t) (hend : s.pc.toNat + i.length ≤ s.cfg.codeSize) :
    t.pcs = s.pcs ∨ t.pcs.toNat = s.pc.toNat + i.length := by
  cases h with
  | restarted hi => subst hi; exact .inr (toNat_add_len hb hend)
  | _ => simp

end Destination

theorem Effect.pc_le {i : Instr} {s t : State} (h : Effect i s t) (hs : s.Inv)
    (hend : s.pc.toNat + i.length ≤ s.cfg.codeSize) : t.pc.toNat ≤ s.cfg.codeSize := by
  obtain hpc | hpc | hpc := h.pc_cases hs.codeBound hs.targets hend
  · omega
  · exact (sweep_lt (hs.targets ▸ hpc)).le
  · exact hpc ▸ hs.pcsInCode

/-- Settles O11: the offset is exact because it does not leave a code region of a legal size. -/
theorem pcAfterSuccess : Obligations.PcAfterSuccess := by
  intro s t i len hs hf he
  obtain ⟨rfl, hend⟩ := fetch_length hf
  exact ⟨(exec_effect he).pc_eq_pcAfter hs.codeBound hs.targets hend, (exec_effect he).pc_le hs hend⟩

/-! ### The invariants -/

/-- `t` runs the program of `s`, and what a step may change of it is again within its bounds. -/
theorem State.Inv.of_sameProgram {s t : State} (hs : s.Inv) (h : SameProgram s t) (hpc : t.pc.toNat ≤ s.cfg.codeSize)
    (hpcs : t.pcs.toNat ≤ s.cfg.codeSize) (hcs : t.cs.toNat ≤ s.cfg.csCap) (hus : t.us.toNat ≤ s.cfg.usCap)
    (hwf : t.data.wf) (hin : ∀ c ∈ t.data, c.1 < s.cfg.totalSize) : t.Inv := by
  obtain ⟨hcfg, hcode, htg⟩ := h
  exact {
    codeBound := hcfg ▸ hs.codeBound
    dataBound := hcfg ▸ hs.dataBound
    csBound := hcfg ▸ hs.csBound
    usBound := hcfg ▸ hs.usBound
    pcInCode := hcfg ▸ hpc
    pcsInCode := hcfg ▸ hpcs
    callDepth := hcfg ▸ hcs
    userDepth := hcfg ▸ hus
    targets := by rw [htg, hcfg, hcode, hs.targets]
    codeWf := hcode ▸ hs.codeWf
    dataWf := hwf
    codeInside := by simpa only [hcfg, hcode] using hs.codeInside
    dataInside := hcfg ▸ hin }

/-- Data buffers in canonical form that list no byte beyond `TOTAL_SIZE` (20_memory R62). -/
def BufferOk (cfg : Configuration) (m : Memory) : Prop :=
  m.wf ∧ ∀ c ∈ m, c.1 < cfg.totalSize

theorem BufferOk.writeSlot {cfg : Configuration} {m : Memory} (h : BufferOk cfg m) {off : Nat} (v : Slot)
    (hoff : off + 8 ≤ cfg.totalSize) : BufferOk cfg (m.writeSlot off v) := by
  refine ⟨Memory.writeSlot_wf h.1 off v, fun c hc => ?_⟩
  obtain hc | hc := Memory.mem_writeSlot hc
  · omega
  · exact h.2 c hc

theorem callOff_bounds {cfg : Configuration} {n : Nat} (hn : 1 ≤ n) (hc : n ≤ cfg.csCap) :
    cfg.dataSize ≤ cfg.callOff n ∧ cfg.callOff n + 8 ≤ cfg.dataSize + cfg.csSize := by
  simp only [Configuration.csCap, Configuration.callOff] at *
  omega

theorem userOff_bounds {cfg : Configuration} {n : Nat} (hn : 1 ≤ n) (hc : n ≤ cfg.usCap) :
    cfg.dataSize + cfg.csSize ≤ cfg.userOff n ∧ cfg.userOff n + 8 ≤ cfg.totalSize := by
  simp only [Configuration.usCap, Configuration.userOff, Configuration.totalSize] at *
  omega

theorem Effect.bufferOk {i : Instr} {s t : State} (h : Effect i s t) (hs : BufferOk s.cfg s.data) :
    BufferOk s.cfg t.data := by
  have hslot : ∀ {a : Int}, s.cfg.ValidData a → slotOff a + 8 ≤ s.cfg.totalSize := fun ha =>
    (slotOff_add_le ha).trans (by rw [Configuration.totalSize]; omega)
  cases h with
  | stored a v hi hn he hp ha | answered req a he hn hp hok ha | popped a hi h0 hu ha =>
    exact hs.writeSlot _ (hslot ha)
  | pushed a hi hu ha => exact hs.writeSlot _ (userOff_bounds (by omega) hu).2
  | called c hi hu ht =>
    have := callOff_bounds (cfg := s.cfg) (n := s.cs.toNat + 1) (by omega) hu
    exact hs.writeSlot _ (by rw [Configuration.totalSize]; omega)
  | _ => simpa using hs

theorem csCap_le {s : State} (hs : s.Inv) : s.cfg.csCap ≤ Config.maxSize :=
  (Nat.div_le_self _ _).trans hs.csBound

theorem usCap_le {s : State} (hs : s.Inv) : s.cfg.usCap ≤ Config.maxSize :=
  (Nat.div_le_self _ _).trans hs.usBound

theorem Effect.callDepth_le {i : Instr} {s t : State} (h : Effect i s t) (hs : s.Inv) : t.cs.toNat ≤ s.cfg.csCap := by
  have hcs := hs.callDepth
  cases h with
  | called c hi hu =>
    rw [State.jumpTo_cs, State.pushCall_cs, toNat_add_one (csCap_le hs) hu]
    exact hu
  | returned hi h0 =>
    rw [State.jumpTo_cs, State.dropCall_cs, toNat_sub_one h0]
    omega
  | _ => simpa using hcs

theorem Effect.userDepth_le {i : Instr} {s t : State} (h : Effect i s t) (hs : s.Inv) : t.us.toNat ≤ s.cfg.usCap := by
  have hus := hs.userDepth
  cases h with
  | pushed a hi hu =>
    rw [State.advance_us, State.pushUser_us, toNat_add_one (usCap_le hs) hu]
    exact hu
  | popped a hi h0 =>
    rw [State.advance_us, State.setSlot_us, State.dropUser_us, toNat_sub_one h0]
    omega
  | _ => simpa using hus

theorem Effect.inv {i : Instr} {s t : State} (h : Effect i s t) (hs : s.Inv)
    (hend : s.pc.toNat + i.length ≤ s.cfg.codeSize) : t.Inv := by
  obtain ⟨hwf, hin⟩ := h.bufferOk ⟨hs.dataWf, hs.dataInside⟩
  have hpcs : t.pcs.toNat ≤ s.cfg.codeSize := by
    obtain hpcs | hpcs := h.pcs_cases hs.codeBound hend
    · exact hpcs ▸ hs.pcsInCode
    · omega
  exact hs.of_sameProgram h.sameProgram (h.pc_le hs hend) hpcs (h.callDepth_le hs) (h.userDepth_le hs) hwf hin

theorem State.Inv.retire {s : State} (hs : s.Inv) : s.retire.Inv :=
  hs.of_sameProgram ⟨rfl, rfl, rfl⟩ hs.pcInCode hs.pcsInCode hs.callDepth hs.userDepth hs.dataWf hs.dataInside

/-- Settles O12: an effect keeps each invariant, and counting the step changes none of them. -/
theorem stepKeepsInvariants : Obligations.StepKeepsInvariants := by
  intro s t hs h
  obtain ⟨-, rfl⟩ | ⟨i, len, u, hf, he, rfl⟩ := step_next h
  · exact hs
  · exact ((exec_effect he).inv hs (fetch_length hf).2).retire

/-- The state an instruction fails in meets the invariants: nothing is lost but the entry a rejected RET_SUB popped. -/
theorem Failure.inv {i : Instr} {s t : State} {f : Fault} {c : Cause} (h : Failure i s f) (hs : s.Inv)
    (hf : f = .overflow c t ∨ f = .invalid c t) : t.Inv := by
  cases h with
  | plain cls =>
    obtain rfl : t = s := by cases cls <;> simp_all [faultOf]
    exact hs
  | returned hi h0 =>
    obtain rfl : t = s.dropCall := by simp_all
    have hcs := hs.callDepth
    refine hs.of_sameProgram ⟨rfl, rfl, rfl⟩ hs.pcInCode hs.pcsInCode ?_ hs.userDepth hs.dataWf hs.dataInside
    rw [State.dropCall_cs, toNat_sub_one h0]
    omega
  | rejected req =>
    obtain rfl : t = s.served req (s.extAnswer req) := by simp_all
    exact hs.of_sameProgram ⟨rfl, rfl, rfl⟩ hs.pcInCode hs.pcsInCode hs.callDepth hs.userDepth hs.dataWf hs.dataInside

theorem exists_fault_of_step {s t : State} {c : Cause}
    (h : step s = .fault (.overflow c t) ∨ step s = .fault (.invalid c t)) :
    ∃ f, step s = .fault f ∧ (f = .overflow c t ∨ f = .invalid c t) := by
  obtain h | h := h
  · exact ⟨_, h, .inl rfl⟩
  · exact ⟨_, h, .inr rfl⟩

/-- Settles O13: a refusal needs a depth above its capacity, which the invariants exclude. -/
theorem failedStepKeepsInvariants : Obligations.FailedStepKeepsInvariants := by
  intro s hs
  refine ⟨fun c t h => ?_, fun r h => ?_⟩
  · obtain ⟨f, h, hf⟩ := exists_fault_of_step h
    obtain ⟨c', -, rfl⟩ | ⟨i, len, -, he⟩ := step_fault h
    · obtain rfl : t = s := by simp_all
      exact hs
    · exact (exec_failure he).inv hs hf
  · obtain ⟨i, len, -, he⟩ := step_refused h
    obtain hdepth | hdepth := exec_refused he
    · exact absurd hs.callDepth (Nat.not_le.2 hdepth)
    · exact absurd hs.userDepth (Nat.not_le.2 hdepth)

/-! ### Boundaries of the sweep -/

/-- Where an instruction is fetched from a boundary, the offset behind it is a boundary (40_engine R132). -/
theorem atBoundary_next {s : State} {i : Instr} {len : Nat} (ht : s.legalTargets = sweep s.cfg s.code)
    (hpc : s.AtBoundary s.pc.toNat) (hf : fetch s = .ok i len) : s.AtBoundary (s.pc.toNat + len) := by
  obtain hpc | hpc := hpc
  · obtain ⟨j, m, hj, hnext⟩ := sweep_next (ht ▸ hpc)
    obtain ⟨rfl, rfl⟩ := Decoded.ok.inj (hf.symm.trans hj)
    rwa [State.AtBoundary, ht]
  · rw [fetch, hpc] at hf
    exact absurd hf (sweepEnd_stop i len)

theorem Effect.placed {i : Instr} {s t : State} (h : Effect i s t) (hs : s.Placed)
    (hf : fetch s = .ok i i.length) : t.Placed := by
  have hend := (fetch_length hf).2
  have hnext := atBoundary_next hs.targets hs.pcPlaced hf
  have hpc : s.AtBoundary t.pc.toNat := by
    obtain hpc | hpc | hpc := h.pc_cases hs.codeBound hs.targets hend
    · exact hpc ▸ hnext
    · exact .inl hpc
    · exact hpc ▸ hs.pcsPlaced
  have hpcs : s.AtBoundary t.pcs.toNat := by
    obtain hpcs | hpcs := h.pcs_cases hs.codeBound hend
    · exact hpcs ▸ hs.pcsPlaced
    · exact hpcs ▸ hnext
  obtain ⟨hcfg, hcode, htg⟩ := h.sameProgram
  refine ⟨by rw [htg, hcfg, hcode, hs.targets], hcfg ▸ hs.codeBound, ?_, ?_⟩
  · rwa [State.AtBoundary, hcfg, hcode, htg]
  · rwa [State.AtBoundary, hcfg, hcode, htg]

/-- Settles O17: a fetched instruction starts at a legal target, and the offsets an effect can lead to are boundaries. -/
theorem stepKeepsPlacement : Obligations.StepKeepsPlacement := by
  intro s t hs h
  obtain ⟨-, rfl⟩ | ⟨i, len, u, hf, he, rfl⟩ := step_next h
  · exact hs
  · obtain rfl := (fetch_length hf).1
    obtain ⟨htg, hb, hpc, hpcs⟩ := (exec_effect he).placed hs hf
    exact ⟨htg, hb, hpc, hpcs⟩

/-! ### The program and the step count -/

/-- Settles O19: no effect touches the program. -/
theorem stepKeepsProgram : Obligations.StepKeepsProgram := by
  intro s t h
  obtain ⟨-, rfl⟩ | ⟨i, len, u, -, he, rfl⟩ := step_next h
  · exact ⟨rfl, rfl, rfl⟩
  · exact (exec_effect he).sameProgram

theorem Effect.steps_eq {i : Instr} {s t : State} (h : Effect i s t) : t.steps = s.steps := by
  cases h <;> simp

theorem le_pc_of_fetch_noInstr {s : State} (h : fetch s = .noInstr) : s.cfg.codeSize ≤ s.pc.toNat := by
  by_contra hlt
  unfold fetch decode at h
  rw [if_neg hlt] at h
  split at h
  · cases h
  · next op _ =>
    obtain ⟨i, len, ho⟩ | ⟨c, -, ho⟩ := decodeOpcode_cases s.cfg s.code s.pc.toNat op
    · simp [ho] at h
    · simp [ho] at h

/-- Settles O10: an effect leaves `steps` alone, so a success adds exactly the 1 of its retirement. -/
theorem stepCountsSuccesses : Obligations.StepCountsSuccesses := by
  intro s
  refine ⟨fun t h => ?_, fun c t h => ?_⟩
  · obtain ⟨hf, rfl⟩ | ⟨i, len, u, hf, he, rfl⟩ := step_next h
    · exact .inl ⟨le_pc_of_fetch_noInstr hf, rfl⟩
    · exact .inr ⟨(decode_ok.1 hf).1, by rw [State.retire_steps, (exec_effect he).steps_eq]⟩
  · obtain ⟨f, h, hf⟩ := exists_fault_of_step h
    obtain ⟨c', t', hf', -, -, -, -, hsteps, -⟩ := failedStepLeavesState s f h
    obtain rfl : t = t' := by
      obtain rfl | rfl := hf <;> simp_all
    exact hsteps

/-! ### The reset command -/

/-- The reset command establishes the invariants, whatever the state was before (70_reset_and_hazards R241). -/
theorem State.resetCommand_inv {s : State} (hcfg : s.cfg.wf) (hwf : s.code.wf)
    (hin : ∀ c ∈ s.code, c.1 < s.cfg.codeSize) : s.resetCommand.Inv := by
  obtain ⟨hcode, hdata, hcs, hus, -⟩ := hcfg
  exact {
    codeBound := hcode
    dataBound := hdata
    csBound := hcs
    usBound := hus
    pcInCode := Nat.zero_le _
    pcsInCode := Nat.zero_le _
    callDepth := Nat.zero_le _
    userDepth := Nat.zero_le _
    targets := rfl
    codeWf := hwf
    dataWf := Memory.nil_wf
    codeInside := hin
    dataInside := fun _ h => (List.not_mem_nil h).elim }

theorem State.resetCommand_placed {s : State} (hcode : s.cfg.codeSize ≤ Config.maxSize) : s.resetCommand.Placed :=
  ⟨rfl, hcode, sweep_zero, sweep_zero⟩

/-- Settles O14: the reset state is what the reset command leaves of a machine with no code. -/
theorem resetStateMeetsInvariants : Obligations.ResetStateMeetsInvariants := by
  have hreset : State.reset.resetCommand = State.reset := rfl
  have hwf : resetConfiguration.wf := ⟨by decide, by decide, by decide, by decide, opcodeTable_wf⟩
  unfold Obligations.ResetStateMeetsInvariants
  rw [← hreset]
  exact ⟨State.resetCommand_inv hwf Memory.nil_wf fun _ h => (List.not_mem_nil h).elim,
    State.resetCommand_placed hwf.1⟩

theorem codeOf_wf (bytes : List Byte) : (codeOf bytes).wf :=
  Memory.writeBytes_wf Memory.nil_wf 0 bytes

theorem codeOf_inside {bytes : List Byte} {c : Host.Cell} (h : c ∈ codeOf bytes) : c.1 < bytes.length := by
  obtain ⟨-, h⟩ | h := Memory.mem_writeBytes h
  · omega
  · exact (List.not_mem_nil h).elim

/-- Settles O15: construct fixes the configuration and the code, and reset does the rest. -/
theorem bootReachesInvariants : Obligations.BootReachesInvariants := by
  intro h u bytes cfg hcfg hlen
  let core : State := { u.construct bytes cfg with ext := h.core.ext }
  have hin : ∀ c ∈ core.code, c.1 < core.cfg.codeSize := fun c hc => hlen ▸ codeOf_inside hc
  refine ⟨⟨core, .constructed⟩, ⟨core.resetCommand, .fresh⟩, if_pos ⟨hcfg, hlen⟩, rfl,
    State.resetCommand_inv hcfg (codeOf_wf bytes) hin, State.resetCommand_placed hcfg.1, rfl, ?_, rfl⟩
  have hdump := Memory.readBytes_writeBytes [] Memory.nil_wf 0 bytes
  rwa [hlen] at hdump

/-- Settles O16: no field of the state reset leaves is read from the state before, but for the three it keeps. -/
theorem resetLeavesStatedValues : Obligations.ResetLeavesStatedValues := by
  intro s
  refine ⟨⟨rfl, rfl, rfl, rfl, rfl, rfl, rfl, fun _ => rfl, rfl⟩, ⟨rfl, rfl, rfl⟩, fun t hcfg hcode hext => ?_⟩
  simp only [State.resetCommand, hcfg, hcode, hext]

end Sys2Proof.Machine
end

section
/-!
What the sweep marks (40_engine R128, R129) under both settings of `NOP_RUN_TARGETS`.
-/

namespace Sys2Proof.Machine

variable {cfg : Configuration} {code : Memory}

/-- A row that stands behind a listed one and decodes is listed. -/
theorem listed_of_decode_next {row : Nat × Instr × Nat} {j : Instr} {m : Nat}
    (h : row ∈ listing cfg code cfg.codeSize 0) (hd : decode cfg code (row.1 + row.2.2) = .ok j m) :
    (row.1 + row.2.2, j, m) ∈ listing cfg code cfg.codeSize 0 := by
  obtain ⟨j', m', h'⟩ | hend := listing_next (by omega) h
  · obtain ⟨rfl, rfl⟩ := Decoded.ok.inj (hd.symm.trans (listing_row h').1)
    exact h'
  · rw [hend] at hd
    exact absurd hd (sweepEnd_stop j m)

/-- Settles O18: the legal targets are the starts of the listed rows, which follow one another without overlap. -/
theorem sweepMarksInstructionStarts : Obligations.SweepMarksInstructionStarts := by
  intro cfg code hr
  refine ⟨fun i len hd => mem_sweep_of_row (listing_start (by omega) hd), fun c hc => ?_, fun c hc hc0 => ?_⟩
  · obtain ⟨row, hrow, rfl⟩ := (mem_sweep_runStart hr).1 hc
    refine ⟨sweep_lt hc, _, _, (listing_row hrow).1,
      fun j m hd => mem_sweep_of_row (listed_of_decode_next hrow hd), fun d hlt hd hmem => ?_⟩
    obtain ⟨row', hrow', rfl⟩ := (mem_sweep_runStart hr).1 hmem
    have := listing_apart hrow hrow'
    omega
  · obtain ⟨row, hrow, rfl⟩ := (mem_sweep_runStart hr).1 hc
    obtain h0 | ⟨p, hp, hnext⟩ := listing_prev hrow
    · exact absurd h0 hc0
    · exact ⟨p.1, mem_sweep_of_row hp, _, _, (listing_row hp).1, hnext⟩

/-- `NOP_RUN_TARGETS` has no part in decoding. -/
theorem listing_nopRunTargets (r : NopRunTargets) (fuel c : Nat) :
    listing { cfg with nopRunTargets := r } code fuel c = listing cfg code fuel c := by
  induction fuel generalizing c with
  | zero => rfl
  | succ fuel ih =>
    have hd : decode { cfg with nopRunTargets := r } code c = decode cfg code c := rfl
    simp only [listing, hd, ih]

theorem mem_sweep_withRunStart {c : Nat} :
    c ∈ sweep { cfg with nopRunTargets := .runStart } code ↔
      ∃ row ∈ listing cfg code cfg.codeSize 0, c = row.1 := by
  rw [mem_sweep_runStart rfl, listing_nopRunTargets]

/-- A listed no-op is a run of its own length. -/
theorem decode_of_listed_nop {row : Nat × Instr × Nat} (h : row ∈ listing cfg code cfg.codeSize 0)
    (hn : row.2.1.opcode = .nop) : decode cfg code row.1 = .ok (.nop row.2.2) row.2.2 := by
  have hd := (listing_row h).1
  have hlen := (decode_wellFormed hd).1
  rwa [eq_nop_of_opcode hn, ← hlen] at hd

/-- Settles O58: under both settings the rows listed are the same, and a run listed at `b` is the run decoded there. -/
theorem sweepMarksEveryRunByte : Obligations.SweepMarksEveryRunByte := by
  intro cfg code he c
  rw [mem_sweep]
  simp only [mem_sweep_withRunStart]
  constructor
  · rintro ⟨row, hrow, hc | ⟨hn, -, hle, hlt⟩⟩
    · exact .inl ⟨row, hrow, hc⟩
    · exact .inr ⟨row.1, row.2.2, ⟨row, hrow, rfl⟩, decode_of_listed_nop hrow hn, hle, hlt⟩
  · rintro (⟨row, hrow, hc⟩ | ⟨b, k, ⟨row, hrow, rfl⟩, hd, hle, hlt⟩)
    · exact ⟨row, hrow, .inl hc⟩
    · obtain ⟨hi, hk⟩ := Decoded.ok.inj ((listing_row hrow).1.symm.trans hd)
      exact ⟨row, hrow, .inr ⟨by rw [hi]; rfl, he, hle, hk ▸ hlt⟩⟩

end Sys2Proof.Machine
end

section
/-!
What each instruction that stores a result, or fails to, does from a state with valid operands (41_data_movement,
42_arithmetic).
-/

namespace Sys2Proof.Machine

/-! ### A result stored -/

theorem stored_setSlot_advance {s : State} (hs : s.data.wf) (a : DataAddr) (v : Slot) (len : Nat) :
    Stored s ((s.setSlot a.toInt v).advance len) a v len where
  value := Memory.readSlot_writeSlot _ hs _ _
  pc := by simp
  outside := Memory.read_writeSlot_outside _ hs _ _
  registers := by simp [SameRegisters]
  program := by simp [SameProgram]

section Stores
variable {i : Instr} {s : State} {a b : DataAddr} {v : Slot} {len : Nat} (hs : s.data.wf)
  (ha : s.cfg.ValidData a.toInt)
include hs ha

/-- An instruction that comes down to storing `v` in a valid slot stores it and changes nothing else. -/
theorem stores_of_exec_eq (h : exec i s = store a v len s) : Stores i s a v len :=
  ⟨_, h.trans (store_pos a v len s ha), stored_setSlot_advance hs a v len⟩

/-- An instruction that replaces a slot by a function of its value stores that function's value. -/
theorem stores_of_unary (f : Slot → Slot) (h : exec i s = withSlot a s fun x => store a (f x) len s) :
    Stores i s a (f (s.slot a.toInt)) len :=
  stores_of_exec_eq hs ha (h.trans (withSlot_pos a s _ ha))

/-- An instruction that combines two slots into the first stores the combined value, be the two slots equal or not. -/
theorem stores_of_binary (hb : s.cfg.ValidData b.toInt) (f : Slot → Slot → Slot)
    (h : exec i s = withSlot a s fun x => withSlot b s fun y => store a (f x y) len s) :
    Stores i s a (f (s.slot a.toInt) (s.slot b.toInt)) len :=
  stores_of_exec_eq hs ha (h.trans ((withSlot_pos a s _ ha).trans (withSlot_pos b s _ hb)))

end Stores

/-- Settles O26: a literal and zero are stored as they are, a slot once it is read. -/
theorem assignmentCompletes : Obligations.AssignmentCompletes := fun s a b v hs ha =>
  ⟨stores_of_exec_eq hs ha (exec_setVal a v s),
    fun hb => stores_of_exec_eq hs ha ((exec_setDat a b s).trans (withSlot_pos b s _ hb)),
    stores_of_exec_eq hs ha (exec_clrDat a s)⟩

/-- Inverting every bit of a slot negates it and takes 1 off (41_data_movement R148). -/
theorem toInt_not_slot (x : Slot) : (~~~x).toInt = -x.toInt - 1 := by
  have hx := x.isLt
  rw [BitVec.toInt_eq_toNat_cond, BitVec.toInt_eq_toNat_cond, BitVec.toNat_not]
  split <;> split <;> omega

/-- Settles O28: each is a function of the old value, stored back. -/
theorem singleSlotOpsComplete : Obligations.SingleSlotOpsComplete := fun s a hs ha =>
  ⟨stores_of_unary hs ha (· + 1#64) (exec_incDat a s), stores_of_unary hs ha (· - 1#64) (exec_decDat a s),
    stores_of_unary hs ha (~~~ ·) (exec_notDat a s), toInt_not_slot _⟩

/-- Settles O31: equal slots are read before the result is stored. -/
theorem arithmeticCompletes : Obligations.ArithmeticCompletes := fun s a b hs ha hb =>
  ⟨stores_of_binary hs ha hb (· + ·) (exec_addDat a b s), stores_of_binary hs ha hb (· - ·) (exec_subDat a b s),
    stores_of_binary hs ha hb (· * ·) (exec_mulDat a b s)⟩

/-- Settles O32: each bit of the stored value is the operation on the two old bits. -/
theorem bitwiseOpsComplete : Obligations.BitwiseOpsComplete := fun s a b hs ha hb =>
  ⟨_, _, _, stores_of_binary hs ha hb (· ||| ·) (exec_borDat a b s),
    stores_of_binary hs ha hb (· &&& ·) (exec_andDat a b s), stores_of_binary hs ha hb (· ^^^ ·) (exec_xorDat a b s),
    fun _ => ⟨BitVec.getLsbD_or, BitVec.getLsbD_and, BitVec.getLsbD_xor⟩⟩

/-! ### The indirect slot -/

/-- Settles O29: the computed address is read like any other valid one. -/
theorem indirectReadsComplete : Obligations.IndirectReadsComplete := by
  intro s a b c hs ha hb
  refine ⟨fun hp => stores_of_exec_eq hs ha ?_, fun hc hp => stores_of_exec_eq hs ha ?_⟩
  · rw [exec_setInd, withSlot_pos b s _ hb, withIndirect_pos _ s _ hp]
  · rw [exec_setIdx, withSlot_pos b s _ hb, withSlot_pos c s _ hc, withIndirect_pos _ s _ hp]

theorem withIndirect_neg {t : Int} {s : State} {k : Slot → Result} (h : ¬ s.cfg.ValidData t) :
    withIndirect t s k = raise s.cfg.indirectFaultClass .indirectAddress s :=
  if_neg h

/-- An instruction that comes down to an indirect read at an invalid address fails in the configured class. -/
theorem fails_of_withIndirect {i : Instr} {t : Int} {s : State} {k : Slot → Result} (ht : ¬ s.cfg.ValidData t)
    (h : exec i s = withIndirect t s k) :
    (s.cfg.indirectFaultClass = .invalid → FailsInvalid i s .indirectAddress) ∧
    (s.cfg.indirectFaultClass = .overflow → FailsOverflow i s .indirectAddress) := by
  rw [FailsInvalid, FailsOverflow, h, withIndirect_neg ht]
  exact ⟨fun hc => by rw [hc, raise], fun hc => by rw [hc, raise]⟩

/-- Settles O30: the operands are read first, so only the computed address can fail. -/
theorem indirectAddressFaults : Obligations.IndirectAddressFaults := by
  intro s a b c hb
  refine ⟨fun hp => ?_, fun hc hp => ?_⟩
  · exact fails_of_withIndirect hp ((exec_setInd a b s).trans (withSlot_pos b s _ hb))
  · exact fails_of_withIndirect hp
      ((exec_setIdx a b c s).trans ((withSlot_pos b s _ hb).trans (withSlot_pos c s _ hc)))

/-! ### The quotient -/

theorem int64Min_eq : int64Min = -2 ^ 63 := by decide

theorem exec_divDat_pos {s : State} {a b : DataAddr} (ha : s.cfg.ValidData a.toInt) (hb : s.cfg.ValidData b.toInt) :
    exec (.divDat a b) s = withQuotient (s.slot a.toInt) (s.slot b.toInt) s fun q => store a q 9 s := by
  rw [exec_divDat, withSlot_pos b s _ hb, withSlot_pos a s _ ha]

section Quotient
variable {x y : Slot} {s : State} {k : Slot → Result}

theorem withQuotient_zero (h0 : y.toInt = 0) : withQuotient x y s k = .fault (.invalid .divisionByZero s) :=
  if_pos h0

theorem withQuotient_quot (h0 : y.toInt ≠ 0) (hc : ¬ (x.toInt = -2 ^ 63 ∧ y.toInt = -1)) :
    withQuotient x y s k = k (aluQuot x y) := by
  rw [withQuotient, if_neg h0, int64Min_eq, if_neg hc]

/-- In the corner of 42_arithmetic R164 the answer is the one `DIV_MIN_NEG1` names. -/
theorem withQuotient_corner (hx : x.toInt = -2 ^ 63) (hy : y.toInt = -1) :
    (s.cfg.divMinNeg1 = .wrap → withQuotient x y s k = k (BitVec.ofInt 64 (-2 ^ 63))) ∧
    (s.cfg.divMinNeg1 = .invalid → withQuotient x y s k = .fault (.invalid .divisionOverflow s)) := by
  rw [withQuotient, if_neg (by omega), int64Min_eq, if_pos ⟨hx, hy⟩]
  constructor <;> intro h <;> rw [h]
  rfl

end Quotient

/-- Settles O33: apart from the corner the exact quotient fits in a slot. -/
theorem divisionCompletes : Obligations.DivisionCompletes := fun _ _ _ hs ha hb h0 =>
  ⟨fun hc => ⟨_, stores_of_exec_eq hs ha ((exec_divDat_pos ha hb).trans (withQuotient_quot h0 hc)),
      aluQuot_toInt _ _ h0 (int64Min_eq ▸ hc)⟩,
    fun hx hy hwrap =>
      stores_of_exec_eq hs ha ((exec_divDat_pos ha hb).trans ((withQuotient_corner hx hy).1 hwrap))⟩

/-- Settles O34: a zero divisor is tested first, then the corner. -/
theorem divisionFaults : Obligations.DivisionFaults := fun _ _ _ ha hb =>
  ⟨fun h0 => (exec_divDat_pos ha hb).trans (withQuotient_zero h0),
    fun hx hy hinv => (exec_divDat_pos ha hb).trans ((withQuotient_corner hx hy).2 hinv)⟩

/-! ### SET_VAL from its bytes -/

theorem opcodeTable_byteOf_setVal : opcodeTable.byteOf .setVal = 0x01#8 := by decide

/-- Settles O27: the bytes are the encoding of SET_VAL, so the decoder is left with the bounds and the address. -/
theorem setValStep : Obligations.SetValStep := by
  intro s a v hmap hs hpc hbytes
  have he : s.code.readBytes s.pc.toNat (Instr.setVal a v).length = encode s.cfg.opcodeMap (.setVal a v) := by
    rw [hmap, encode, opcodeTable_byteOf_setVal]
    exact hbytes
  have hwf : s.cfg.opcodeMap.wf := hmap ▸ opcodeTable_wf
  have hop : s.cfg.opcodeMap.opcodeOf (s.code.read s.pc.toNat) = some .setVal :=
    opcodeOf_of_encoded hwf he (Opcode.format_length_pos .setVal)
  refine ⟨fun hl => ?_, fun hl hv => ?_, fun hl hv => ?_⟩
  · exact step_of_fetch_err (decode_of_overrun hpc hop (by decide) hl)
  · exact step_of_fetch_err ((decode_of_encoded hwf he nofun hl).trans
      (checkOperands_dataAddress ⟨a, by simp [Instr.dataAddrs], hv⟩))
  · have hdata : (Instr.setVal a v).dataOk s.cfg = true :=
      ((Instr.setVal a v).dataOk_iff s.cfg).2 (by simpa [Instr.dataAddrs] using hv)
    have hf : fetch s = .ok (.setVal a v) 13 :=
      (decode_of_encoded hwf he nofun hl).trans (checkOperands_ok.2 ⟨rfl, rfl, hdata, rfl⟩)
    obtain ⟨t, hexec, ht⟩ := stores_of_exec_eq hs hv (exec_setVal a v s)
    obtain ⟨-, -, -, hsteps, -⟩ := ht.registers
    refine ⟨t, ht, ?_⟩
    rw [(step_of_exec_next hf hexec).1, State.retire, hsteps]

end Sys2Proof.Machine
end

section
/-!
The two stacks: what a push, a pop, a call and a return do, and where they fail (43_stack, 44_control section 1).
-/

namespace Sys2Proof.Machine

/-! ### The user stack -/

section UserStack
variable {s : State} {a : DataAddr} (ha : s.cfg.ValidData a.toInt)
include ha

theorem exec_pshDat_pos (hu : s.us.toNat < s.cfg.usCap) :
    exec (.pshDat a) s = .next ((s.pushUser (s.slot a.toInt)).advance 5) := by
  rw [exec_pshDat, withUserRoom_pos s _ hu.le hu.ne, withSlot_pos a s _ ha]

theorem exec_popDat_pos (h0 : 0 < s.us.toNat) (hu : s.us.toNat ≤ s.cfg.usCap) :
    exec (.popDat a) s = .next ((s.dropUser.setSlot a.toInt s.topUser).advance 5) := by
  rw [exec_popDat, withUserEntry_pos s _ hu h0.ne', withSlot_pos a s _ ha, store_pos a _ 5 s.dropUser ha]

end UserStack

/-- Settles O35: past its two checks a push is one slot written at the new depth. -/
theorem pushCompletes : Obligations.PushCompletes := by
  intro s a hs ha hu
  refine ⟨_, exec_pshDat_pos ha hu, by simp, ?_, Memory.read_writeSlot_outside _ hs _ _, by simp,
    by simp [SameRegisters], by simp [SameProgram]⟩
  exact Memory.readSlot_writeSlot _ hs _ _

/-- Settles O36: the pop writes the destination slot alone. -/
theorem popCompletes : Obligations.PopCompletes := by
  intro s a hs ha h0 hu
  refine ⟨_, exec_popDat_pos ha h0 hu, Memory.readSlot_writeSlot _ hs _ _, Memory.read_writeSlot_outside _ hs _ _, ?_,
    by simp, by simp [SameRegisters], by simp [SameProgram]⟩
  rw [State.advance_us, State.setSlot_us, State.dropUser_us, toNat_sub_one h0.ne']

/-- Settles O37: the depth is tested before the address. -/
theorem userStackFaults : Obligations.UserStackFaults := fun s a =>
  ⟨fun hfull => (withUserRoom_fault s _ _).2 (.inl ⟨hfull.le, hfull, rfl⟩),
    fun h0 => (withUserEntry_fault s _ _).2 (.inl ⟨by omega, h0, rfl⟩)⟩

/-- Settles O38: the pop reads the entry at the depth the push has left. -/
theorem popReturnsLastPush : Obligations.PopReturnsLastPush := by
  intro s a b hs ha hb hu
  obtain ⟨t, hpush, hus, htop, -, -, -, hcfg, -, -⟩ := pushCompletes s a hs.dataWf ha hu
  have hdepth : t.us.toNat = s.us.toNat + 1 := hus ▸ toNat_add_one (usCap_le hs) hu
  have hwf := ((exec_effect hpush).bufferOk ⟨hs.dataWf, hs.dataInside⟩).1
  obtain ⟨u, hpop, hval, -, hus', -⟩ :=
    popCompletes t b hwf (hcfg ▸ hb) (by omega) (by rw [hcfg, hdepth]; exact hu)
  refine ⟨t, u, hpush, hpop, ?_, ?_⟩
  · rw [hval, hcfg, hdepth, htop]
  · apply BitVec.eq_of_toNat_eq
    omega

/-! ### The call stack -/

theorem exec_jmpSub_pos {s : State} {c : CodeAddr} (hu : s.cs.toNat < s.cfg.csCap) (hc : s.IsTarget c.toInt) :
    exec (.jmpSub c) s = .next ((s.pushCall (BitVec.ofNat 64 (s.pc.toNat + 5))).jumpTo c.toInt) := by
  rw [exec_jmpSub, withCallRoom_pos s _ hu.le hu.ne, withTarget_pos _ s _ hc]

theorem exec_retSub_pos {s : State} (h0 : 0 < s.cs.toNat) (hu : s.cs.toNat ≤ s.cfg.csCap)
    (ht : s.IsTarget s.topCall.toInt) : exec .retSub s = .next (s.dropCall.jumpTo s.topCall.toInt) := by
  rw [exec_retSub, withCallEntry_pos s _ hu h0.ne', withTarget_pos _ s.dropCall _ ht]

/-- Settles O39: past its two checks a call is one slot written at the new depth, then a jump. -/
theorem callCompletes : Obligations.CallCompletes := by
  intro s c hs hu hc
  refine ⟨_, exec_jmpSub_pos hu hc, by simp, ?_, Memory.read_writeSlot_outside _ hs _ _, by simp,
    by simp [SameRegisters], by simp [SameProgram]⟩
  exact Memory.readSlot_writeSlot _ hs _ _

/-- Settles O40: the return reads its entry and writes no byte. -/
theorem returnCompletes : Obligations.ReturnCompletes := by
  intro s h0 hu ht
  refine ⟨_, exec_retSub_pos h0 hu ht, by simp [State.topCall], ?_, by simp, by simp [SameRegisters],
    by simp [SameProgram]⟩
  rw [State.jumpTo_cs, State.dropCall_cs, toNat_sub_one h0.ne']

/-- Settles O41: the depth is tested first, and RET_SUB has popped before it tests its target. -/
theorem callAndReturnFaults : Obligations.CallAndReturnFaults := by
  intro s c
  refine ⟨fun hfull => (withCallRoom_fault s _ _).2 (.inl ⟨hfull.le, hfull, rfl⟩), fun hu hc => ?_,
    fun h0 => (withCallEntry_fault s _ _).2 (.inl ⟨by omega, h0, rfl⟩), fun h0 hu ht => ?_⟩
  · rw [FailsInvalid, exec_jmpSub, withCallRoom_pos s _ hu.le hu.ne]
    exact (withTarget_fault _ s _ _).2 (.inl ⟨hc, rfl⟩)
  · rw [exec_retSub, withCallEntry_pos s _ hu h0.ne']
    exact (withTarget_fault _ s.dropCall _ _).2 (.inl ⟨ht, rfl⟩)

/-- A return address fits in a signed slot. -/
theorem toInt_returnAddress (pc : Reg) : (BitVec.ofNat 64 (pc.toNat + 5)).toInt = pc.toNat + 5 := by
  have hpc := pc.isLt
  have hnat : (BitVec.ofNat 64 (pc.toNat + 5)).toNat = pc.toNat + 5 := by
    rw [BitVec.toNat_ofNat, Nat.mod_eq_of_lt (by omega)]
  rw [BitVec.toInt_eq_toNat_of_lt (by omega), hnat]
  rfl

/-- Settles O42: the entry RET_SUB reads is the return address JMP_SUB has stored. -/
theorem callThenReturnComesBack : Obligations.CallThenReturnComesBack := by
  intro s c hs hu hc hback
  obtain ⟨t, hcall, hcs, htop, -, -, -, hcfg, -, htg⟩ := callCompletes s c hs.dataWf hu hc
  have hdepth : t.cs.toNat = s.cs.toNat + 1 := hcs ▸ toNat_add_one (csCap_le hs) hu
  have hentry : (t.data.readSlot (t.cfg.callOff t.cs.toNat)).toInt = s.pc.toNat + 5 := by
    rw [hcfg, hdepth, htop, toInt_returnAddress]
  have ht : t.IsTarget (t.data.readSlot (t.cfg.callOff t.cs.toNat)).toInt := by
    rwa [hentry, State.IsTarget, htg]
  obtain ⟨u, hret, hpc, hcs', -⟩ := returnCompletes t (by omega) (by rw [hcfg, hdepth]; exact hu) ht
  refine ⟨t, u, hcall, hret, ?_, ?_⟩
  · have := (toNat_ofInt_of_isTarget hs.codeBound hs.targets hback).1
    rw [hpc, hentry]
    omega
  · apply BitVec.eq_of_toNat_eq
    omega

/-! ### The slots of the stacks -/

/-- Settles O21: the two zones hold as many slots as their capacities say, laid out downwards. -/
theorem stackSlotsStayInZone : Obligations.StackSlotsStayInZone := by
  intro cfg n m hn
  refine ⟨fun hc => ?_, fun hc => ?_⟩
  · obtain ⟨hlo, hhi⟩ := callOff_bounds hn hc
    refine ⟨hlo, hhi, fun hnm hm => ?_⟩
    simp only [Configuration.csCap, Configuration.callOff] at *
    omega
  · obtain ⟨hlo, hhi⟩ := userOff_bounds hn hc
    refine ⟨hlo, hhi, fun hnm hm => ?_⟩
    simp only [Configuration.usCap, Configuration.userOff, Configuration.totalSize] at *
    omega

end Sys2Proof.Machine
end

section
/-!
What the jumps, the branches, the system instructions and the no-op run do to `pc` and the registers (44_control sections
2 and 3, 45_system, 41_data_movement section 1).
-/

namespace Sys2Proof.Machine

theorem moved_advance (s : State) (len : Nat) : Moved s (s.advance len) (s.pc + BitVec.ofNat 32 len) :=
  ⟨by simp, by simp, by simp [SameRegisters], by simp [SameProgram]⟩

theorem moved_jumpTo (s : State) (t : Int) : Moved s (s.jumpTo t) (BitVec.ofInt 32 t) :=
  ⟨by simp, by simp, by simp [SameRegisters], by simp [SameProgram]⟩

/-! ### Jumps and branches -/

/-- Settles O43: the jump is the legal-target test and nothing more. -/
theorem jumpCompletes : Obligations.JumpCompletes := fun s c =>
  ⟨fun hc => ⟨_, withTarget_pos _ s _ hc, moved_jumpTo s c.toInt⟩,
    fun hc => (withTarget_fault _ s _ _).2 (.inl ⟨hc, rfl⟩)⟩

/-- An instruction that comes down to the branch rule follows it. -/
theorem branches_of_exec_eq {i : Instr} {s : State} {p cond : Prop} [Decidable p] {off : Offset} {len : Nat}
    (h : exec i s = branch (decide p) off len s) (hp : p ↔ cond) : Branches i s cond off len := by
  rw [Branches, Moves, Moves, FailsInvalid, h, ← hp]
  refine ⟨fun hc ht => ⟨_, (branch_next _ _ _ _ _).2 (.inl ⟨decide_eq_true hc, ht, rfl⟩), moved_jumpTo s _⟩,
    fun hc ht => (branch_fault _ _ _ _ _).2 ⟨decide_eq_true hc, ht, rfl⟩,
    fun hc => ⟨_, (branch_next _ _ _ _ _).2 (.inr ⟨decide_eq_false hc, rfl⟩), moved_advance s len⟩⟩

theorem toInt_eq_zero_iff (x : Slot) : x.toInt = 0 ↔ x = 0#64 :=
  BitVec.toInt_inj (y := 0#64)

/-- Settles O44: a slot reads as 0 just when all its bits are 0. -/
theorem zeroBranchesComplete : Obligations.ZeroBranchesComplete := fun s a off ha =>
  have hz := toInt_eq_zero_iff (s.slot a.toInt)
  ⟨branches_of_exec_eq ((exec_bzrDat a off s).trans (withSlot_pos a s _ ha)) hz,
    branches_of_exec_eq ((exec_bnzDat a off s).trans (withSlot_pos a s _ ha)) (not_congr hz)⟩

/-- Settles O45: the relations on signed readings are those of the 64-bit patterns. -/
theorem relationalBranchesComplete : Obligations.RelationalBranchesComplete := by
  intro s a b off ha hb
  have hslots : ∀ k : Slot → Slot → Result,
      (withSlot a s fun x => withSlot b s fun y => k x y) = k (s.slot a.toInt) (s.slot b.toInt) := fun _ =>
    (withSlot_pos a s _ ha).trans (withSlot_pos b s _ hb)
  exact ⟨branches_of_exec_eq ((exec_bgtDat a b off s).trans (hslots _)) BitVec.slt_iff_toInt_lt.symm,
    branches_of_exec_eq ((exec_bltDat a b off s).trans (hslots _)) BitVec.slt_iff_toInt_lt.symm,
    branches_of_exec_eq ((exec_bgeDat a b off s).trans (hslots _)) BitVec.sle_iff_toInt_le.symm,
    branches_of_exec_eq ((exec_bleDat a b off s).trans (hslots _)) BitVec.sle_iff_toInt_le.symm,
    branches_of_exec_eq ((exec_beqDat a b off s).trans (hslots _)) BitVec.toInt_inj,
    branches_of_exec_eq ((exec_bneDat a b off s).trans (hslots _)) (not_congr BitVec.toInt_inj)⟩

/-! ### Halts, the sleep threshold, the restart point and the no-op run -/

/-- A termination sets its flag, goes to the restart point and changes nothing else (45_system R191). -/
theorem moved_terminate (s : State) : Moved s { s.terminate with flags := s.flags } s.pcs ∧
    ∀ b, flagAt s.terminate.flags b = (flagAt s.flags b || decide (b = terminatedBit)) :=
  ⟨⟨rfl, rfl, by simp [SameRegisters], by simp [SameProgram]⟩, fun b => flagAt_setFlag _ _ b (by decide)⟩

/-- A stop sets its flag, moves on and changes nothing else (45_system R191). -/
theorem moved_stop (s : State) (len : Nat) :
    Moved s { s.stop len with flags := s.flags } (s.pc + BitVec.ofNat 32 len) ∧
    ∀ b, flagAt (s.stop len).flags b = (flagAt s.flags b || decide (b = stoppedBit)) :=
  ⟨moved_advance s len, fun b => flagAt_setFlag _ _ b (by decide)⟩

/-- Settles O47: past the read of its slot each is a termination, a stop or a plain advance. -/
theorem conditionalHaltsComplete : Obligations.ConditionalHaltsComplete := by
  intro s a ha
  have hfiz := (exec_fizDat a s).trans (withSlot_pos a s _ ha)
  have hstz := (exec_stzDat a s).trans (withSlot_pos a s _ ha)
  rw [← toInt_eq_zero_iff, ne_eq, ← toInt_eq_zero_iff]
  exact ⟨fun hz => ⟨⟨_, hfiz.trans (if_pos hz), moved_terminate s⟩, ⟨_, hstz.trans (if_pos hz), moved_stop s 5⟩⟩,
    fun hz => ⟨⟨_, hfiz.trans (if_neg hz), moved_advance s 5⟩, ⟨_, hstz.trans (if_neg hz), moved_advance s 5⟩⟩⟩

/-- Settles O48: a termination and a stop, with no test. -/
theorem unconditionalHaltsComplete : Obligations.UnconditionalHaltsComplete := fun s =>
  ⟨⟨_, exec_finImd s, moved_terminate s⟩, ⟨_, exec_stpImd s, moved_stop s 1⟩⟩

/-- Settles O46: but for the threshold the state moves on. -/
theorem sleepCompletes : Obligations.SleepCompletes := fun s a ha =>
  ⟨_, (exec_slpDat a s).trans (withSlot_pos a s _ ha), rfl, moved_advance s 5⟩

/-- Settles O49: but for the restart point of SET_PCS the state moves on. -/
theorem restartPointAndNopComplete : Obligations.RestartPointAndNopComplete := fun s k =>
  ⟨⟨_, exec_setPcs s, rfl, moved_advance s 1⟩, ⟨_, exec_nop k s, moved_advance s k⟩⟩

end Sys2Proof.Machine
end

section
/-!
External calls: what the host's answer changes, accepted and rejected (46_external).
-/

namespace Sys2Proof.Machine

/-! ### A request served -/

theorem served_flags_noWrite {s : State} {req : ExtRequest} {r : ExtResponse} (h : r.flagWrite = none) :
    (s.served req r).flags = s.flags := by
  rw [State.served_flags, h]

theorem served_flags_write {s : State} {req : ExtRequest} {r : ExtResponse} {w : HostFlags}
    (h : r.flagWrite = some w) : (s.served req r).flags = putHostFlags s.flags w := by
  rw [State.served_flags, h]

/-- The host's answer leaves what 46_external R200 says. -/
theorem served_extAnswer (s : State) (req : ExtRequest) : Served s (s.served req (s.extAnswer req)) req where
  sent := rfl
  answers := rfl
  context := rfl
  noWrite := served_flags_noWrite
  write w hw := by
    rw [State.isPaused, served_flags_write hw]
    exact flagAt_putHostFlags_host s.flags w
  stopped := State.served_isStopped s req _
  terminated := State.served_isTerminated s req _
  registers := by simp
  program := by simp [SameProgram]

theorem Served.advance {s t : State} {req : ExtRequest} (h : Served s t req) (len : Nat) :
    Served s (t.advance len) req :=
  ⟨h.sent, h.answers, h.context, h.noWrite, h.write, h.stopped, h.terminated, h.registers, h.program⟩

theorem Served.setSlot {s t : State} {req : ExtRequest} (h : Served s t req) (a : Int) (v : Slot) :
    Served s (t.setSlot a v) req :=
  ⟨h.sent, h.answers, h.context, h.noWrite, h.write, h.stopped, h.terminated, h.registers, h.program⟩

section Forms
variable {i : Instr} {s : State} {req : ExtRequest} {a : DataAddr} {len : Nat}

theorem calls_of_exec_eq (hok : (s.extAnswer req).ok = true)
    (h : exec i s = extCall req s fun _ t => .next (t.advance len)) : Calls i s req len :=
  ⟨_, h.trans (extCall_pos req s _ hok), (served_extAnswer s req).advance len, by simp, by simp⟩

theorem callsInto_of_exec_eq (hs : s.data.wf) (ha : s.cfg.ValidData a.toInt) (hok : (s.extAnswer req).ok = true)
    (h : exec i s = extCall req s fun v t => store a v len t) : CallsInto i s req a len :=
  ⟨_, h.trans ((extCall_pos req s _ hok).trans (store_pos a _ len (s.served req _) ha)),
    ((served_extAnswer s req).setSlot _ _).advance len, Memory.readSlot_writeSlot _ hs _ _,
    Memory.read_writeSlot_outside _ hs _ _, by simp⟩

theorem callRejected_of_exec_eq {k : Slot → State → Result} (hno : (s.extAnswer req).ok = false)
    (h : exec i s = extCall req s k) : CallRejected i s req :=
  ⟨_, h.trans ((extCall_fault req s k _).2 (.inl ⟨hno, rfl⟩)), served_extAnswer s req, rfl, rfl⟩

end Forms

/-! ### The six forms past their address checks -/

section Forms
variable {s : State} (fn : FunId) {a b c : DataAddr} (ha : s.cfg.ValidData a.toInt)
include ha

theorem exec_extFunDat_pos : exec (.extFunDat fn a) s =
    extCall ⟨fn, [s.slot a.toInt], false⟩ s fun _ t => .next (t.advance 7) := by
  rw [exec_extFunDat, withSlot_pos a s _ ha]

theorem exec_extFunRet_pos : exec (.extFunRet fn a) s = extCall ⟨fn, [], true⟩ s fun v t => store a v 7 t := by
  rw [exec_extFunRet, withSlot_pos a s _ ha]

variable (hb : s.cfg.ValidData b.toInt)
include hb

theorem exec_extFunDat2_pos : exec (.extFunDat2 fn a b) s =
    extCall ⟨fn, [s.slot a.toInt, s.slot b.toInt], false⟩ s fun _ t => .next (t.advance 11) := by
  rw [exec_extFunDat2, withSlot_pos a s _ ha, withSlot_pos b s _ hb]

theorem exec_extFunRetDat_pos : exec (.extFunRetDat fn a b) s =
    extCall ⟨fn, [s.slot b.toInt], true⟩ s fun v t => store a v 11 t := by
  rw [exec_extFunRetDat, withSlot_pos a s _ ha, withSlot_pos b s _ hb]

theorem exec_extFunRetDat2_pos (hc : s.cfg.ValidData c.toInt) : exec (.extFunRetDat2 fn a b c) s =
    extCall ⟨fn, [s.slot b.toInt, s.slot c.toInt], true⟩ s fun v t => store a v 15 t := by
  rw [exec_extFunRetDat2, withSlot_pos a s _ ha, withSlot_pos b s _ hb, withSlot_pos c s _ hc]

end Forms

/-- Settles O50: each form past its address checks is one transaction and an advance. -/
theorem externalCallsComplete : Obligations.ExternalCallsComplete := fun s fn _ _ =>
  ⟨fun hok => calls_of_exec_eq hok (exec_extFun fn s),
    fun ha hok => calls_of_exec_eq hok (exec_extFunDat_pos fn ha),
    fun ha hb hok => calls_of_exec_eq hok (exec_extFunDat2_pos fn ha hb)⟩

/-- Settles O51: the arguments are read before the returned value is stored. -/
theorem returningCallsComplete : Obligations.ReturningCallsComplete := fun _ fn _ _ _ hs ha =>
  ⟨fun hok => callsInto_of_exec_eq hs ha hok (exec_extFunRet_pos fn ha),
    fun hb hok => callsInto_of_exec_eq hs ha hok (exec_extFunRetDat_pos fn ha hb),
    fun hb hc hok => callsInto_of_exec_eq hs ha hok (exec_extFunRetDat2_pos fn ha hb hc)⟩

/-- Settles O52: a rejection ends each form before it moves on or stores. -/
theorem rejectedCallsFail : Obligations.RejectedCallsFail := fun s fn _ _ _ =>
  ⟨fun hno => callRejected_of_exec_eq hno (exec_extFun fn s),
    fun ha hno => callRejected_of_exec_eq hno (exec_extFunDat_pos fn ha),
    fun ha hb hno => callRejected_of_exec_eq hno (exec_extFunDat2_pos fn ha hb),
    fun ha hno => callRejected_of_exec_eq hno (exec_extFunRet_pos fn ha),
    fun ha hb hno => callRejected_of_exec_eq hno (exec_extFunRetDat_pos fn ha hb),
    fun ha hb hc hno => callRejected_of_exec_eq hno (exec_extFunRetDat2_pos fn ha hb hc)⟩

end Sys2Proof.Machine
end

section
/-!
Frames: which bytes and flags an instruction may change, and what it leaves as it was (20_memory sections 2, 3 and 5,
10_state R27).
-/

namespace Sys2Proof.Machine

/-! ### The bytes that change -/

theorem mem_slot_of_read_writeSlot_ne {m : Memory} (hm : m.wf) {off b : Nat} {v : Slot}
    (h : (m.writeSlot off v).read b ≠ m.read b) : off ≤ b ∧ b < off + 8 := by
  by_contra hb
  exact h (Memory.read_writeSlot_outside m hm off v b (by omega))

theorem opcode_of_storesTo {i : Instr} {a : DataAddr} (h : i.storesTo = some a) :
    i.opcode ≠ .jmpSub ∧ i.opcode ≠ .pshDat := by
  cases i
  case jmpSub | pshDat => cases h
  all_goals exact ⟨nofun, nofun⟩

/-- The data buffer after a success: as before, or with one slot written by a store, a push or a call. -/
theorem Effect.data_cases {i : Instr} {s t : State} (h : Effect i s t) :
    t.data = s.data ∨
    (∃ a v, i.storesTo = some a ∧ s.cfg.ValidData a.toInt ∧ t.data = s.data.writeSlot (slotOff a.toInt) v) ∨
    (∃ v, i.opcode = .pshDat ∧ s.us.toNat < s.cfg.usCap ∧
      t.data = s.data.writeSlot (s.cfg.userOff (s.us.toNat + 1)) v) ∨
    (∃ v, i.opcode = .jmpSub ∧ s.cs.toNat < s.cfg.csCap ∧
      t.data = s.data.writeSlot (s.cfg.callOff (s.cs.toNat + 1)) v) := by
  cases h with
  | stored a v hi hn he hp ha => exact .inr (.inl ⟨a, v, hi, ha, rfl⟩)
  | answered req a he hn hp hok ha => exact .inr (.inl ⟨a, _, hn, ha, rfl⟩)
  | popped a hi h0 hu ha => subst hi; exact .inr (.inl ⟨a, _, rfl, ha, rfl⟩)
  | pushed a hi hu => subst hi; exact .inr (.inr (.inl ⟨_, rfl, hu, rfl⟩))
  | called c hi hu => subst hi; exact .inr (.inr (.inr ⟨_, rfl, hu, rfl⟩))
  | _ => exact .inl (by simp)

/-- Settles O20: the slot written lies in the zone of the instruction that writes it. -/
theorem stackZonesProtected : Obligations.StackZonesProtected := by
  intro s t i hs he b hb
  obtain hd | ⟨a, v, hi, ha, hd⟩ | ⟨v, hi, hu, hd⟩ | ⟨v, hi, hu, hd⟩ := (exec_effect he).data_cases
  · rw [hd] at hb
    exact absurd rfl hb
  · obtain ⟨hlo, hhi⟩ := mem_slot_of_read_writeSlot_ne hs.dataWf (hd ▸ hb)
    obtain ⟨hj, hp⟩ := opcode_of_storesTo hi
    have := slotOff_add_le ha
    exact ⟨fun h => absurd h hj, fun h => absurd h hp, fun _ _ => by omega⟩
  · obtain ⟨hlo, hhi⟩ := mem_slot_of_read_writeSlot_ne hs.dataWf (hd ▸ hb)
    have := userOff_bounds (cfg := s.cfg) (n := s.us.toNat + 1) (by omega) hu
    exact ⟨fun h => by simp [hi] at h, fun _ => by omega, fun _ h => absurd hi h⟩
  · obtain ⟨hlo, hhi⟩ := mem_slot_of_read_writeSlot_ne hs.dataWf (hd ▸ hb)
    have := callOff_bounds (cfg := s.cfg) (n := s.cs.toNat + 1) (by omega) hu
    exact ⟨fun _ => by omega, fun h => by simp [hi] at h, fun h => absurd hi h⟩

/-! ### The flags that change -/

/-- The flags after a success: as before, one halt flag set by a halt instruction, or a host's write in a call. -/
theorem Effect.flags_cases {i : Instr} {s t : State} (h : Effect i s t) :
    t.flags = s.flags ∨
    (i.opcode ∈ [Opcode.stzDat, .stpImd] ∧ t.flags = setFlag s.flags stoppedBit) ∨
    (i.opcode ∈ [Opcode.fizDat, .finImd] ∧ t.flags = setFlag s.flags terminatedBit) ∨
    (i.isExternal = true ∧ t.isStopped = s.isStopped ∧ t.isTerminated = s.isTerminated) := by
  cases h with
  | stopped hi => obtain rfl | ⟨a, rfl, -⟩ := hi <;> exact .inr (.inl ⟨by simp [Instr.opcode], rfl⟩)
  | terminated hi =>
    obtain rfl | ⟨a, rfl, -⟩ := hi <;> exact .inr (.inr (.inl ⟨by simp [Instr.opcode], rfl⟩))
  | sent req he | answered req a he =>
    exact .inr (.inr (.inr ⟨he, State.served_isStopped s req _, State.served_isTerminated s req _⟩))
  | _ => exact .inl (by simp)

/-- Settles O22: a halt instruction sets its own flag alone, and the host cannot reach the halt flags. -/
theorem onlyHaltInstrsSetHaltFlags : Obligations.OnlyHaltInstrsSetHaltFlags := by
  intro s t i he
  simp only [State.isStopped, State.isTerminated]
  obtain hf | ⟨hi, hf⟩ | ⟨hi, hf⟩ | ⟨hi, hstop, hterm⟩ := (exec_effect he).flags_cases
  · simp [hf]
  · have hset : ∀ b, flagAt t.flags b = (flagAt s.flags b || decide (b = stoppedBit)) := fun b =>
      hf ▸ flagAt_setFlag _ _ b (by decide)
    refine ⟨fun _ => ⟨by simpa using hi, by simp [hset]⟩, fun h => ?_, fun b hb h => ?_⟩
    · simp [hset, stoppedBit, terminatedBit] at h
    · obtain rfl | rfl | rfl := hb <;> simp [hset, stoppedBit, pausedBit, aZeroBit, bZeroBit] at h
  · have hset : ∀ b, flagAt t.flags b = (flagAt s.flags b || decide (b = terminatedBit)) := fun b =>
      hf ▸ flagAt_setFlag _ _ b (by decide)
    refine ⟨fun h => ?_, fun _ => ⟨by simpa using hi, by simp [hset]⟩, fun b hb h => ?_⟩
    · simp [hset, stoppedBit, terminatedBit] at h
    · obtain rfl | rfl | rfl := hb <;> simp [hset, terminatedBit, pausedBit, aZeroBit, bZeroBit] at h
  · exact ⟨fun h => absurd hstop h, fun h => absurd hterm h, fun _ _ _ => hi⟩

/-! ### What stays as it was -/

/-- Settles O53: the effect of an instruction with a destination is a store, a pop or a returned value. -/
theorem frameOfStoringInstrs : Obligations.FrameOfStoringInstrs := by
  intro s t i a hs ha he
  cases exec_effect he with
  | stored a' v hi hn hx =>
    obtain rfl := Option.some.inj (hi.symm.trans ha)
    exact ⟨Memory.read_writeSlot_outside _ hs _ _, by simp [SameProgram, State.isStopped, State.isTerminated]⟩
  | popped a' hi =>
    subst hi
    obtain rfl := Option.some.inj ha
    exact ⟨Memory.read_writeSlot_outside _ hs _ _,
      by simp [SameProgram, State.isStopped, State.isTerminated, Instr.opcode]⟩
  | answered req a' hx hn =>
    obtain rfl := Option.some.inj (hn.symm.trans ha)
    have hsrv := ((served_extAnswer s req).setSlot a'.toInt (s.extAnswer req).value).advance i.length
    exact ⟨Memory.read_writeSlot_outside _ hs _ _, hsrv.program, by simp, by simp, by simp, by simp, hsrv.stopped,
      hsrv.terminated, by simp, by simp [hx]⟩
  | jumped d hd ho hn | moved hd hp hn | sent req hx hn => exact nomatch hn.symm.trans ha
  | pushed _ hi | called _ hi | returned hi | slept _ hi | restarted hi => subst hi; cases ha
  | terminated hi | stopped hi => obtain rfl | ⟨_, rfl, -⟩ := hi <;> cases ha

/-- Settles O54: of the effects of an instruction with no destination only the two pushes write memory. -/
theorem frameOfNonStoringInstrs : Obligations.FrameOfNonStoringInstrs := by
  intro s t i hi hj hp he
  cases exec_effect he with
  | stored a v ha | answered req a hx ha => exact nomatch hi.symm.trans ha
  | popped a h => subst h; cases hi
  | pushed a h => subst h; exact absurd rfl hp
  | called c h => subst h; exact absurd rfl hj
  | jumped | moved => simp [SameProgram]
  | sent req hx => simp [SameProgram, hx]
  | returned h | slept a h | restarted h => subst h; simp [SameProgram, Instr.opcode]
  | terminated h | stopped h => obtain rfl | ⟨a, rfl, -⟩ := h <;> simp [SameProgram, Instr.opcode]

/-- Settles O55: a push or a call that succeeds has passed its checks, so it completes. -/
theorem frameOfPushes : Obligations.FrameOfPushes := by
  intro s t hs
  refine ⟨fun c h => ?_, fun a h => ?_⟩
  · obtain ⟨hle, hne, h'⟩ := (withCallRoom_next s _ t).1 h
    obtain ⟨t', he, -, -, hout, -, hreg, hprog⟩ :=
      callCompletes s c hs (by omega) ((withTarget_next _ s _ t).1 h').1
    obtain rfl := Host.Outcome.next.inj (h.symm.trans he)
    exact ⟨hout, hreg, hprog⟩
  · obtain ⟨hle, hne, h'⟩ := (withUserRoom_next s _ t).1 h
    obtain ⟨t', he, -, -, hout, -, hreg, hprog⟩ := pushCompletes s a hs ((withSlot_next a s _ t).1 h').1 (by omega)
    obtain rfl := Host.Outcome.next.inj (h.symm.trans he)
    exact ⟨hout, hreg, hprog⟩

end Sys2Proof.Machine
end

section
/-!
The host's ports: decode-only mode (40_engine section 4), the snapshot (10_state R33) and the flag port (10_state R45).
-/

namespace Sys2Proof.Machine

/-! ### Decode-only mode -/

section DecodeMove
variable {h : Session} {cursor : Nat}

/-- A decode-only transaction the host may make leaves the machine and answers as `decodeAt` does. -/
theorem decodeMove_of_mayDecode (hp : h.phase = .fresh ∨ h.phase = .decoding) :
    decodeMove h cursor = .ok (⟨h.core, .decoding⟩, .decoded (decodeAt h.core cursor).1 (decodeAt h.core cursor).2) := by
  obtain hp | hp := hp <;> simp only [decodeMove, Phase.mayDecode, hp]

theorem decodeMove_executing (hp : h.phase = .executing) : decodeMove h cursor = .error .modesInterleaved := by
  simp only [decodeMove, Phase.mayDecode, hp]

theorem decodeMove_constructed (hp : h.phase = .constructed) : decodeMove h cursor = .error .stepBeforeReset := by
  simp only [decodeMove, Phase.mayDecode, hp]

end DecodeMove

/-- Settles O56: both moves are a decode-only transaction at the cursor. -/
theorem decodeOnlyChangesNothing : Obligations.DecodeOnlyChangesNothing := by
  intro h cursor
  refine ⟨fun m hm => ?_, fun hp => ?_, fun hp => ?_⟩
  · have hmove : hostMove h m = decodeMove h cursor := by
      obtain rfl | ⟨rfl, rfl⟩ := hm <;> rfl
    rw [hmove]
    refine ⟨fun hp => ?_, decodeMove_executing, decodeMove_constructed⟩
    rw [decodeMove_of_mayDecode hp, decodeAt]
    refine ⟨fun hd => ?_, fun c hd => ?_, fun i len hd => ?_⟩ <;> rw [hd]
  · simp only [hostMove, executeMove, Phase.mayStep, hp]
  · simp only [hostMove, executeMove, Phase.mayStep, hp]

/-! ### The snapshot and the flag port -/

theorem restore_save (s : State) : s.save.restore s.ext = { s with legalTargets := sweep s.cfg s.code } := rfl

/-- Settles O57: the sweep of the saved code region is the set of legal targets it had. -/
theorem snapshotRestoresInstance : Obligations.SnapshotRestoresInstance := by
  intro s hs
  rw [restore_save, ← hs.targets]

/-- Settles O59: the port writes its own three bits and no other. -/
theorem hostFlagWriteSetsThreeFlags : Obligations.HostFlagWriteSetsThreeFlags := by
  intro h w
  obtain ⟨hpaused, ha, hb⟩ := flagAt_putHostFlags_host h.core.flags w
  exact ⟨{ h with core := h.core.writeHostFlags w }, rfl, rfl, hpaused, ha, hb,
    flagAt_putHostFlags_core _ w _ (.inl rfl), flagAt_putHostFlags_core _ w _ (.inr rfl), rfl⟩

end Sys2Proof.Machine
end
